-- ==== Sys2Proof/Word.lean ====
section
/-! DEFINITION. The word types of GM-CORE: the 256-bit register value (R10), the 32-bit command word (R50), the byte of
the aperture (R30) and the widest bus transfer (R36). -/

namespace Sys2Proof

/-- A register value, the spec's `u256` (R8, R10, R11). Bit 0 is the least significant bit. -/
abbrev Word := BitVec 256

/-- A command word `cw` (R50), and the width of STATUS and ECMD (R14, R15). -/
abbrev CmdWord := BitVec 32

/-- One byte of the host aperture (R30). -/
abbrev Byte := BitVec 8

/-- The value of one host access: at most 8 bytes (R36); a narrower access uses the low bytes. -/
abbrev BusWord := BitVec 64

end Sys2Proof
end

