-- ==== Sys2Proof/Syntax.lean ====
section
/-! DEFINITION. The seventeen commands of GM-CORE, one constructor per row of spec/opcode_table.json (R56), with the operand
types of R54 and R55. -/

namespace Sys2Proof

/-- A register field of the command word: the number of the first register of a group (R54). -/
abbrev Reg := Fin 16

/-- The modulus bit `m` (R55): 0 selects `P` (Field Engine), 1 selects `N` (Order Engine). -/
inductive ModSel where
  /-- `m = 0`, written `.P`. -/
  | p
  /-- `m = 1`, written `.N`. -/
  | n
  deriving DecidableEq, Repr

/-- The condition selector `cs` of CMOV and CNEG (R55, R85). -/
inductive Cond where
  /-- `cs = 0`: the constant 0. -/
  | f
  /-- `cs = 1`: the constant 1. -/
  | t
  /-- `cs = 2`: `STATUS.EQ`. -/
  | eq
  /-- `cs = 3`: `STATUS.INF`. -/
  | inf
  deriving DecidableEq, Repr

/-- The command set (R56). A register operand names the first register of its group. -/
inductive Instr where
  /-- MMUL.m rd, ra, rb (R72). -/
  | mmul (m : ModSel) (rd ra rb : Reg)
  /-- MSQR.m rd, ra (R75). -/
  | msqr (m : ModSel) (rd ra : Reg)
  /-- MRED.m rd, ra (R74). -/
  | mred (m : ModSel) (rd ra : Reg)
  /-- MENC.m rd, ra (R73). -/
  | menc (m : ModSel) (rd ra : Reg)
  /-- MINV.m rd, ra (R131). -/
  | minv (m : ModSel) (rd ra : Reg)
  /-- KINV rd, ra (R132). -/
  | kinv (rd ra : Reg)
  /-- CMOV rd, ra, rb, cs (R86). -/
  | cmov (cs : Cond) (rd ra rb : Reg)
  /-- CNEG.m rd, ra, cs (R87). -/
  | cneg (cs : Cond) (m : ModSel) (rd ra : Reg)
  /-- TSEL rd, ra, col (R88); the field holds 0..63, the legal columns are 0..36. -/
  | tsel (rd ra : Reg) (col : Fin 64)
  /-- PDBL rd, ra (R100). -/
  | pdbl (rd ra : Reg)
  /-- PADD rd, ra, rb (R101). -/
  | padd (rd ra rb : Reg)
  /-- PADDM rd, ra, rb with the immediate bits pnz, qnz, s (R102). -/
  | paddm (pnz qnz sg : Bool) (rd ra rb : Reg)
  /-- PAFF rd, ra (R103). -/
  | paff (rd ra : Reg)
  /-- BMUL rd, ra (R113). -/
  | bmul (rd ra : Reg)
  /-- SMUL rd, ra, rb (R116). -/
  | smul (rd ra rb : Reg)
  /-- CMUL rd, ra, rb, rc (R118). -/
  | cmul (rd ra rb rc : Reg)
  /-- TINIT (R134). -/
  | tinit
  deriving DecidableEq, Repr

end Sys2Proof
end

