-- ==== Sys2Proof/Decode.lean ====
section
/-! DEFINITION. The decoder of the command word (R50, R54 to R57), total on all 2^32 words and rejecting by the two names
ILLOP and RSVD, and after it the encoder (R59), written from the same table of R56. -/

namespace Sys2Proof

/-- `v[hi:lo]` (R8): bits `hi` down to `lo` of `v`, as an integer. -/
def bits (v hi lo : Nat) : Nat :=
  v / 2 ^ lo % 2 ^ (hi - lo + 1)

/-- Why a word is no command (R57): the first two checks of R148. -/
inductive DecodeError where
  /-- The operation code is not in the table of R56. -/
  | illop
  /-- An unused register field or a disallowed immediate bit is set. -/
  | rsvd
  deriving DecidableEq, Repr

/-- The register field whose lowest bit is `lo` (R50). -/
def regField (w lo : Nat) : Reg :=
  Fin.ofNat 16 (w / 2 ^ lo)

/-- The modulus bit `m = imm[0]` (R55). -/
def modField (w : Nat) : ModSel :=
  if bits w 0 0 = 0 then .p else .n

/-- The condition selector `cs = imm[2:1]` (R55). -/
def condField (w : Nat) : Cond :=
  match bits w 2 1 with
  | 0 => .f
  | 1 => .t
  | 2 => .eq
  | _ => .inf

/-- The TSEL column `col = imm[5:0]` (R55). -/
def colField (w : Nat) : Fin 64 :=
  Fin.ofNat 64 w

/-- One immediate bit as a flag (R55: `s`, `qnz`, `pnz`). -/
def flagField (w i : Nat) : Bool :=
  bits w i i = 1

/-- A row of the table of R56: `i` if the row's must-be-zero bits are zero, RSVD otherwise (R57). -/
def row (mustBeZero : Bool) (i : Instr) : Except DecodeError Instr :=
  if mustBeZero then .ok i else .error .rsvd

/-- The decoder: the operation code selects the row (R58), the must-be-zero bits of the row are the ranges that
spec/opcode_table.json calls fixed. -/
def decode (cw : CmdWord) : Except DecodeError Instr :=
  let w := cw.toNat
  let rd := regField w 20
  let ra := regField w 16
  let rb := regField w 12
  let rc := regField w 8
  match bits w 31 24 with
  | 0x01 => row (bits w 11 1 = 0) (.mmul (modField w) rd ra rb)
  | 0x02 => row (bits w 15 1 = 0) (.msqr (modField w) rd ra)
  | 0x03 => row (bits w 15 1 = 0) (.mred (modField w) rd ra)
  | 0x04 => row (bits w 15 1 = 0) (.menc (modField w) rd ra)
  | 0x05 => row (bits w 15 1 = 0) (.minv (modField w) rd ra)
  | 0x06 => row (bits w 15 0 = 0) (.kinv rd ra)
  | 0x10 => row (bits w 0 0 = 0 && bits w 11 3 = 0) (.cmov (condField w) rd ra rb)
  | 0x11 => row (bits w 15 3 = 0) (.cneg (condField w) (modField w) rd ra)
  | 0x12 => row (bits w 15 6 = 0) (.tsel rd ra (colField w))
  | 0x20 => row (bits w 15 0 = 0) (.pdbl rd ra)
  | 0x21 => row (bits w 11 0 = 0) (.padd rd ra rb)
  | 0x22 => row (bits w 11 3 = 0) (.paddm (flagField w 2) (flagField w 1) (flagField w 0) rd ra rb)
  | 0x23 => row (bits w 15 0 = 0) (.paff rd ra)
  | 0x30 => row (bits w 15 0 = 0) (.bmul rd ra)
  | 0x31 => row (bits w 11 0 = 0) (.smul rd ra rb)
  | 0x32 => row (bits w 7 0 = 0) (.cmul rd ra rb rc)
  | 0x40 => row (bits w 23 0 = 0) .tinit
  | _ => .error .illop

/-- The instruction that the decoder reads from a word of the opcode table's numbering: `w`'s low `nbits` bits, every bit
above them 0. A GM-CORE command is one 32-bit word (R58), the value of one bus write (R51). -/
def decodeTableWord (nbits w : Nat) : Option Instr :=
  match decode (BitVec.ofNat 32 (w % 2 ^ nbits)) with
  | .ok i => some i
  | .error _ => none

/-! The encoder. -/

/-- The value of the modulus bit (R55). -/
def ModSel.bit : ModSel → Nat
  | .p => 0
  | .n => 1

/-- The value of the condition selector (R55). -/
def Cond.code : Cond → Nat
  | .f => 0
  | .t => 1
  | .eq => 2
  | .inf => 3

/-- The word `op << 24 | rd << 20 | ra << 16 | rb << 12 | rc << 8 | imm` (R59). -/
def assemble (op : Nat) (rd ra rb rc : Reg) (imm : Nat) : CmdWord :=
  BitVec.ofNat 32 (op * 2 ^ 24 + rd.val * 2 ^ 20 + ra.val * 2 ^ 16 + rb.val * 2 ^ 12 + rc.val * 2 ^ 8 + imm)

/-- The word of a command (R56, R59 and the encoding line of each command's rule). -/
def encode : Instr → CmdWord
  | .mmul m rd ra rb => assemble 0x01 rd ra rb 0 m.bit
  | .msqr m rd ra => assemble 0x02 rd ra 0 0 m.bit
  | .mred m rd ra => assemble 0x03 rd ra 0 0 m.bit
  | .menc m rd ra => assemble 0x04 rd ra 0 0 m.bit
  | .minv m rd ra => assemble 0x05 rd ra 0 0 m.bit
  | .kinv rd ra => assemble 0x06 rd ra 0 0 0
  | .cmov cs rd ra rb => assemble 0x10 rd ra rb 0 (2 * cs.code)
  | .cneg cs m rd ra => assemble 0x11 rd ra 0 0 (2 * cs.code + m.bit)
  | .tsel rd ra col => assemble 0x12 rd ra 0 0 col.val
  | .pdbl rd ra => assemble 0x20 rd ra 0 0 0
  | .padd rd ra rb => assemble 0x21 rd ra rb 0 0
  | .paddm pnz qnz sg rd ra rb => assemble 0x22 rd ra rb 0 (4 * pnz.toNat + 2 * qnz.toNat + sg.toNat)
  | .paff rd ra => assemble 0x23 rd ra 0 0 0
  | .bmul rd ra => assemble 0x30 rd ra 0 0 0
  | .smul rd ra rb => assemble 0x31 rd ra rb 0 0
  | .cmul rd ra rb rc => assemble 0x32 rd ra rb rc 0
  | .tinit => assemble 0x40 0 0 0 0 0

/-! The pseudo-commands of R60, each standing for exactly one command. -/

/-- `MOV rd, ra`: copy one register bit for bit. -/
def Instr.mov (rd ra : Reg) : Instr := .cmov .t rd ra ra

/-- `FMUL rd, ra, rb`: field multiplication. -/
def Instr.fmul (rd ra rb : Reg) : Instr := .mmul .p rd ra rb

/-- `NMUL rd, ra, rb`: order multiplication. -/
def Instr.nmul (rd ra rb : Reg) : Instr := .mmul .n rd ra rb

/-- `FSQR rd, ra`: field squaring. -/
def Instr.fsqr (rd ra : Reg) : Instr := .msqr .p rd ra

/-- `NSQR rd, ra`: order squaring. -/
def Instr.nsqr (rd ra : Reg) : Instr := .msqr .n rd ra

/-- `FNEG rd, ra`: unconditional field negation. -/
def Instr.fneg (rd ra : Reg) : Instr := .cneg .t .p rd ra

/-- `NNEG rd, ra`: unconditional order negation. -/
def Instr.nneg (rd ra : Reg) : Instr := .cneg .t .n rd ra

/-- `FINV rd, ra`: Montgomery-domain field inverse. -/
def Instr.finv (rd ra : Reg) : Instr := .minv .p rd ra

/-- `NINV rd, ra`: Montgomery-domain order inverse. -/
def Instr.ninv (rd ra : Reg) : Instr := .minv .n rd ra

end Sys2Proof
end

