-- ==== Sys2Proof/Config.lean ====
section
/-! DEFINITION. What GM-CORE fixes and no command changes: the curve and its derived Montgomery constants (R1, R2), the
structural parameters (R3), and the values that the spec leaves free after a reset signal (R165). -/

namespace Sys2Proof.Config

/-- One modular engine (R2): the modulus with the constants R2 derives from it. -/
structure Engine where
  /-- The modulus `M`. -/
  m : Nat
  /-- `RINV_M = RADIX^-1 mod M`. -/
  rinv : Nat
  /-- `RR_M = RADIX^2 mod M`. -/
  rr : Nat
  /-- `ONE_M = RADIX mod M`, the Montgomery form of 1. -/
  one : Nat
  /-- `MPRIME_M = (-M^-1) mod 2^256`. -/
  mprime : Nat
  /-- `K0_M = MPRIME_M mod 2^64`. -/
  k0 : Nat
  deriving DecidableEq, Repr

/-- The configuration record `CURVE` of R1, with an engine for each of its two moduli. -/
structure Params where
  /-- The Field Engine, modulus `P`. -/
  field : Engine
  /-- The Order Engine, modulus `N`. -/
  order : Engine
  /-- The coefficient `A = P - 3`. -/
  a : Nat
  /-- The coefficient `B`; no command uses it (R18). -/
  b : Nat
  /-- The generator's x coordinate. -/
  gx : Nat
  /-- The generator's y coordinate. -/
  gy : Nat
  deriving DecidableEq, Repr

/-- The Montgomery radix (R2). -/
abbrev radix : Nat := 2 ^ 256

/-- R2: the constants of an engine are the ones R2 defines from its modulus, an odd number between 2^255 and 2^256 (R1). -/
abbrev Engine.Derived (e : Engine) : Prop :=
  2 ^ 255 < e.m ∧ e.m < 2 ^ 256 ∧ e.m % 2 = 1 ∧
  e.rinv < e.m ∧ e.rinv * radix % e.m = 1 ∧
  e.rr = radix * radix % e.m ∧ e.one = radix % e.m ∧
  e.mprime < radix ∧ (e.mprime * e.m + 1) % radix = 0 ∧ e.k0 = e.mprime % 2 ^ 64

/-- The conditions of R1 that are arithmetic of the six integers alone, decidable by evaluation. All of R1 is
`Params.Valid`. -/
abbrev Params.Consistent (c : Params) : Prop :=
  c.field.Derived ∧ c.order.Derived ∧ c.a = c.field.m - 3 ∧ c.b < c.field.m ∧
  c.gx < c.field.m ∧ c.gy < c.field.m ∧
  (4 * c.a ^ 3 + 27 * c.b ^ 2) % c.field.m ≠ 0 ∧
  c.gy ^ 2 % c.field.m = (c.gx ^ 3 + c.a * c.gx + c.b) % c.field.m ∧
  2 ^ 251 < c.order.m % 2 ^ 252

/-- The curve `y^2 = x^3 + A*x + B` modulo `P` (R1). -/
def Params.curve (c : Params) : WeierstrassCurve.Affine (ZMod c.field.m) where
  a₁ := 0
  a₂ := 0
  a₃ := 0
  a₄ := c.a
  a₆ := c.b

/-- R1: every condition on the record `CURVE`, on which the spec's rules rest. The spec checked them for the table below; the
model does not prove them, and no definition of the machine uses them (log 22). -/
structure Params.Valid (c : Params) : Prop where
  /-- The bounds, `A = P - 3`, the ranges, the discriminant, the generator's equation, the bound on `N mod 2^252`, and the
  derived constants of R2. -/
  consistent : c.Consistent
  /-- `P` is prime. -/
  prime_p : Nat.Prime c.field.m
  /-- `N` is prime. -/
  prime_n : Nat.Prime c.order.m
  /-- The point `(GX, GY)` of the curve has order exactly `N`. -/
  order_generator : haveI : Fact (Nat.Prime c.field.m) := ⟨prime_p⟩
    ∃ h : c.curve.Nonsingular c.gx c.gy,
      addOrderOf (WeierstrassCurve.Affine.Point.some (W' := c.curve) _ _ h) = c.order.m
  /-- The curve group has exactly `N` elements. -/
  card_group : Nat.card c.curve.Point = c.order.m

/-- The Field Engine of this hardware: `P` and its constants (tables of R1 and R2; `RINV_P` from the example of R74). -/
def fieldEngine : Engine where
  m := 0xFFFFFFFEFFFFFFFFFFFFFFFFFFFFFFFFFFFFFFFF00000000FFFFFFFFFFFFFFFF
  rinv := 0xFFFFFFFB00000005FFFFFFFC00000002FFFFFFFD00000006FFFFFFF900000004
  rr := 0x0000000400000002000000010000000100000002FFFFFFFF0000000200000003
  one := 0x0000000100000000000000000000000000000000FFFFFFFF0000000000000001
  mprime := 0xFFFFFFFC00000001FFFFFFFE00000000FFFFFFFF000000010000000000000001
  k0 := 0x0000000000000001

/-- The Order Engine of this hardware: `N` and its constants (tables of R1 and R2; `RINV_N` from 95_test_vectors.md
section 2.1). -/
def orderEngine : Engine where
  m := 0xFFFFFFFEFFFFFFFFFFFFFFFFFFFFFFFF7203DF6B21C6052B53BBF40939D54123
  rinv := 0x6F39132F13ABB48CA81BA1178588D900F0E551783F95FA1213E93C0567B935EA
  rr := 0x1EB5E412A22B3D3B620FC84C3AFFE0D43464504ADE6FA2FA901192AF7C114F20
  one := 0x000000010000000000000000000000008DFC2094DE39FAD4AC440BF6C62ABEDD
  mprime := 0x6F39132F82E4C7BC2B0068D3B08941D4DF1E8D34FC8319A5327F9E8872350975
  k0 := 0x327F9E8872350975

/-- The curve of this hardware: the table of R1 (D26; log 7). -/
def sm2 : Params where
  field := fieldEngine
  order := orderEngine
  a := 0xFFFFFFFEFFFFFFFFFFFFFFFFFFFFFFFFFFFFFFFF00000000FFFFFFFFFFFFFFFC
  b := 0x28E9FA9E9D9F5E344D5A9E4BCF6509A7F39789F515AB8F92DDBCBD414D940E93
  gx := 0x32C4AE2C1F1981195F9904466A39C9948FE30BBFF2660BE1715A4589334C74C7
  gy := 0xBC3736A2F4F6779C59BDCEE36B692153D0A9877CC62A474002DF32E52139F0A0

/-! The structural parameters of R3. -/

/-- Window width of the base table (`WB`, R3). -/
abbrev baseWidth : Nat := 7

/-- Digit positions (columns) of the base table (`NB`, R3). -/
abbrev baseDigits : Nat := 37

/-- Digit values (entries of a column) of the base table (`VB`, R3). -/
abbrev baseValues : Nat := 64

/-- Window width of the variable-base multiplication (`WV`, R3), and its doublings per digit. -/
abbrev varWidth : Nat := 5

/-- Digits of the variable-base multiplication (`NV`, R3). -/
abbrev varDigits : Nat := 52

/-- The element width in bits, the constant `BITS` of the PARAM window (R3, R18). -/
abbrev bitSize : Nat := 256

/-! Free values: R165 leaves them unspecified, so they have no body and nothing can be proved of them (log 3). -/

/-- The content of register `i` after reset signal number `k` (R165: some value, not known to the host). -/
opaque drawReg (k i : Nat) : Word

/-- The x half of table entry `[j][v]` after reset signal number `k` (R165). -/
opaque drawTabX (k j v : Nat) : Word

/-- The y half of table entry `[j][v]` after reset signal number `k` (R165). -/
opaque drawTabY (k j v : Nat) : Word

end Sys2Proof.Config
end

