-- ==== Sys2Proof/Machine/Field.lean ====
section
/-! DEFINITION. The modular arithmetic behind every command: the Montgomery multiplier (R70), the field primitives (R95),
the negation of R87, the inverse as a fixed power (R130), and the realisations the spec gives of them (R71, R77, R133,
R135). Values are mathematical integers (R8). -/

namespace Sys2Proof.Machine

open Sys2Proof.Config (Engine)

/-- `MontMul_M(a, b) = (a * b * RINV_M) mod M` (R70), for any two values. -/
def montMul (e : Engine) (a b : Nat) : Nat :=
  a * b * e.rinv % e.m

/-- `FAdd(a, b) = (a + b) mod M` (R95). -/
def fAdd (e : Engine) (a b : Nat) : Nat :=
  (a + b) % e.m

/-- `FSub(a, b) = (a - b) mod M` (R95), the non-negative residue. -/
def fSub (e : Engine) (a b : Nat) : Nat :=
  (a + (e.m - b % e.m)) % e.m

/-- `FMul(a, b) = MontMul_P(a, b)` (R95). -/
def fMul (e : Engine) (a b : Nat) : Nat :=
  montMul e a b

/-- `FSqr(a) = MontMul_P(a, a)` (R95). -/
def fSqr (e : Engine) (a : Nat) : Nat :=
  montMul e a a

/-- `2 * t` by repeated `FAdd` (R95). -/
def fDouble (e : Engine) (t : Nat) : Nat :=
  fAdd e t t

/-- `(M - (a mod M)) mod M` (R87): the canonical negation. -/
def negMod (e : Engine) (a : Nat) : Nat :=
  (e.m - a % e.m) % e.m

/-- The conditional negation of R87, R98, R112 and R115: a bit-exact copy when the condition is 0. -/
def condNeg (e : Engine) (c : Bool) (a : Nat) : Nat :=
  if c then negMod e a else a

/-- Square-and-multiply on the lowest `fuel` bits of the exponent `k`: multiplies `acc` by the power of `b`. -/
def powModLoop (m : Nat) : Nat → Nat → Nat → Nat → Nat
  | 0, _, _, acc => acc
  | fuel + 1, b, k, acc => powModLoop m fuel (b * b % m) (k / 2) (if k % 2 = 1 then acc * b % m else acc)

/-- `a^k mod m` for an exponent of at most 256 bits. -/
def powMod (a k m : Nat) : Nat :=
  powModLoop m 256 (a % m) k (1 % m)

/-- `MontInv_M(a) = (RR_M * (a mod M)^(M-2)) mod M` (R130); 0 when `a mod M = 0`. -/
def montInv (e : Engine) (a : Nat) : Nat :=
  e.rr * powMod (a % e.m) (e.m - 2) e.m % e.m

/-! Realisations. No command's meaning calls them; each has the value of the function above it (U6). -/

/-- The Montgomery reduction of R71 without its last line: `t = (T + q * M) / 2^256`. -/
def redcQuotient (e : Engine) (t : Nat) : Nat :=
  (t + t % Config.radix * e.mprime % Config.radix * e.m) / Config.radix

/-- R71: the product by Montgomery reduction. -/
def redcMul (e : Engine) (a b : Nat) : Nat :=
  redcQuotient e (a * b) % e.m

/-- One 64-bit step of R77. -/
def redcStep (e : Engine) (t : Nat) : Nat :=
  (t + t % 2 ^ 64 * e.k0 % 2 ^ 64 * e.m) / 2 ^ 64

/-- R77: four word-serial steps, then the reduction of R71's last line. -/
def redcWordsMul (e : Engine) (a b : Nat) : Nat :=
  redcStep e (redcStep e (redcStep e (redcStep e (a * b)))) % e.m

/-- `S(x, n)` of R133 and R135: `n` successive squarings. -/
def sqrTimes (e : Engine) (x : Nat) : Nat → Nat
  | 0 => x
  | n + 1 => montMul e (sqrTimes e x n) (sqrTimes e x n)

/-- R133: the chain for the exponent `P - 2` of the SM2 prime, built on the partial powers p2, p4, p8, p16, p32. -/
def chainP (e : Engine) (a : Nat) : Nat :=
  let p2 := montMul e (sqrTimes e a 1) a
  let p4 := montMul e (sqrTimes e p2 2) p2
  let p8 := montMul e (sqrTimes e p4 4) p4
  let p16 := montMul e (sqrTimes e p8 8) p8
  let p32 := montMul e (sqrTimes e p16 16) p16
  let x24 := montMul e (sqrTimes e p16 8) p8
  let x28 := montMul e (sqrTimes e x24 4) p4
  let x30 := montMul e (sqrTimes e x28 2) p2
  let x31 := montMul e (sqrTimes e x30 1) a
  let w0 := sqrTimes e x31 1
  let w1 := montMul e (sqrTimes e w0 32) p32
  let w2 := montMul e (sqrTimes e w1 32) p32
  let w3 := montMul e (sqrTimes e w2 32) p32
  let w4 := montMul e (sqrTimes e w3 32) p32
  let w5 := sqrTimes e w4 32
  let w6 := montMul e (sqrTimes e w5 32) p32
  let w7 := montMul e (sqrTimes e w6 30) x30
  montMul e (sqrTimes e w7 2) a

/-- The table `odd[1], odd[3], ..., odd[15]` of R135, `odd[2 * i + 1]` at position `i`. -/
def oddPower (e : Engine) (a : Nat) : Nat → Nat
  | 0 => a
  | i + 1 => montMul e (oddPower e a i) (sqrTimes e a 1)

/-- A non-zero hexadecimal digit `d = 2^s * u` with `u` odd: the pair `(s, u)` (R135). -/
def oddSplit (d : Nat) : Nat × Nat :=
  if d % 2 = 1 then (0, d)
  else if d % 4 = 2 then (1, d / 2)
  else if d % 8 = 4 then (2, d / 4)
  else (3, d / 8)

/-- One step of R135's loop, for the exponent digit `d`. -/
def chainNStep (e : Engine) (a acc d : Nat) : Nat :=
  if d = 0 then sqrTimes e acc 4
  else
    let (s, u) := oddSplit d
    sqrTimes e (montMul e (sqrTimes e acc (4 - s)) (oddPower e a (u / 2))) s

/-- The loop of R135 over the `n` lowest hexadecimal digits of the exponent `k`, most significant first. -/
def chainNLoop (e : Engine) (a k : Nat) : Nat → Nat → Nat
  | 0, acc => acc
  | n + 1, acc => chainNLoop e a k n (chainNStep e a acc (k / 16 ^ n % 16))

/-- R135: the chain for the exponent `N - 2`, whose top digit `e[63]` is 0xF, by 4-bit windows over odd powers. -/
def chainN (e : Engine) (a : Nat) : Nat :=
  chainNLoop e a (e.m - 2) 63 (oddPower e a 7)

end Sys2Proof.Machine
end

