-- ==== Sys2Proof/Machine/Point.lean ====
section
/-! DEFINITION. The point functions behind PDBL, PADD, PADDM and PAFF (R96 to R99), on Montgomery-form coordinates modulo
`P`. None of them tests for the identity or for the curve equation (R19, R104). -/

namespace Sys2Proof.Machine

open Sys2Proof.Config (Engine)

/-- A Jacobian triple `(X, Y, Z)` (R11, R20). -/
structure Jac where
  x : Nat
  y : Nat
  z : Nat
  deriving DecidableEq, Repr

/-- An affine pair `(x, y)` (R11, R19). -/
structure Affine where
  x : Nat
  y : Nat
  deriving DecidableEq, Repr

/-- `Dbl(X, Y, Z)` (R96): Jacobian doubling with `a = -3`. -/
def dbl (e : Engine) (p : Jac) : Jac :=
  let delta := fSqr e p.z
  let gamma := fSqr e p.y
  let beta := fMul e p.x gamma
  let t := fMul e (fSub e p.x delta) (fAdd e p.x delta)
  let alpha := fAdd e (fDouble e t) t
  let beta4 := fDouble e (fDouble e beta)
  let x3 := fSub e (fSqr e alpha) (fDouble e beta4)
  let z3 := fDouble e (fMul e p.y p.z)
  let gg8 := fDouble e (fDouble e (fDouble e (fSqr e gamma)))
  let y3 := fSub e (fMul e alpha (fSub e beta4 x3)) gg8
  ⟨x3, y3, z3⟩

/-- `Add` (R97): general Jacobian addition, with the equality bit `eq`. -/
def add (e : Engine) (p q : Jac) : Jac × Bool :=
  let z1z1 := fSqr e p.z
  let z2z2 := fSqr e q.z
  let u1 := fMul e p.x z2z2
  let u2 := fMul e q.x z1z1
  let s1 := fMul e (fMul e p.y q.z) z2z2
  let s2 := fMul e (fMul e q.y p.z) z1z1
  let h := fSub e u2 u1
  let rr := fSub e s2 s1
  let hh := fSqr e h
  let hhh := fMul e h hh
  let v := fMul e u1 hh
  let x3 := fSub e (fSub e (fSqr e rr) hhh) (fDouble e v)
  let y3 := fSub e (fMul e rr (fSub e v x3)) (fMul e s1 hhh)
  let z3 := fMul e (fMul e h p.z) q.z
  (⟨x3, y3, z3⟩, h == 0 && rr == 0)

/-- The formula lines of `AddMixed` (R98): the sum of a triple and a pair with `Z` implied 1. -/
def addMixedSum (e : Engine) (p : Jac) (q : Affine) : Jac :=
  let z1z1 := fSqr e p.z
  let u2 := fMul e q.x z1z1
  let s2 := fMul e (fMul e q.y p.z) z1z1
  let h := fSub e u2 p.x
  let rr := fSub e s2 p.y
  let hh := fSqr e h
  let hhh := fMul e h hh
  let v := fMul e p.x hh
  let x3 := fSub e (fSub e (fSqr e rr) hhh) (fDouble e v)
  let y3 := fSub e (fMul e rr (fSub e v x3)) (fMul e p.y hhh)
  let z3 := fMul e h p.z
  ⟨x3, y3, z3⟩

/-- `AddMixed` (R98): `sg` negates the addend's y; `pnz = 0` gives the addend, else `qnz = 0` the accumulator, else the sum. -/
def addMixed (e : Engine) (p : Jac) (q : Affine) (sg qnz pnz : Bool) : Jac :=
  let q' : Affine := ⟨q.x, condNeg e sg q.y⟩
  if pnz = false then ⟨q'.x, q'.y, e.one⟩
  else if qnz = false then p
  else addMixedSum e p q'

/-- `ToAffine` (R99): the standard-form pair, and the bit `inf` that says `Z mod P = 0`. -/
def toAffine (e : Engine) (p : Jac) : Affine × Bool :=
  let zi := montInv e p.z
  let zi2 := fSqr e zi
  let zi3 := fMul e zi2 zi
  let xm := fMul e p.x zi2
  let ym := fMul e p.y zi3
  (⟨montMul e xm 1, montMul e ym 1⟩, p.z % e.m == 0)

/-- `Dbl` applied `n` times. -/
def dblTimes (e : Engine) (p : Jac) : Nat → Jac
  | 0 => p
  | n + 1 => dbl e (dblTimes e p n)

end Sys2Proof.Machine
end

