-- ==== Sys2Proof/Machine/State.lean ====
section
/-! DEFINITION. The state of GM-CORE as plain data (10_state.md), with the host's pending actions (R40), the reasons a step
can stop, and the state after reset (R165, R166). -/

namespace Sys2Proof.Machine

/-- A base-table entry: an affine pair in Montgomery form (R17). -/
structure TabEntry where
  /-- The Montgomery form of the x coordinate. -/
  x : Word
  /-- The Montgomery form of the y coordinate. -/
  y : Word
  deriving DecidableEq, Repr

/-- One column of the base table: `TAB[j][1..64]`, entry `v` at position `v - 1` (R17). -/
abbrev TabColumn := Vector TabEntry Config.baseValues

/-- The base table `TAB[0..36][1..64]` (R17). -/
abbrev Table := Vector TabColumn Config.baseDigits

/-- What the host can do to the machine: the two aperture accesses of R31 and R32, and the reset signal of R167.
Addresses are byte offsets into the aperture (R30); `n` is the access width in bytes. -/
inductive HostAction where
  /-- `MemRead(addr, n)` (R31). -/
  | read (addr n : Nat)
  /-- `MemWrite(addr, n, v)` (R32); the value is the low `n` bytes of `v`. -/
  | write (addr n : Nat) (v : BusWord)
  /-- The external reset signal (R167). -/
  | reset
  deriving DecidableEq, Repr

/-- The state. Fields up to `tab` are the spec's; `host`, `replies` and `resets` are the model's own (log 3, 4, 5). -/
structure State where
  /-- The general registers `R[0]` to `R[15]` (R10, R11). -/
  regs : Vector Word 16
  /-- `STATUS.TRDY`, bit 0: the base table has been built (R14). -/
  trdy : Bool
  /-- `STATUS.EQ`, bit 1: the last PADD found its operands equal (R14). -/
  eq : Bool
  /-- `STATUS.INF`, bit 2: the last affine-producing command's result was the identity (R14). -/
  inf : Bool
  /-- `STATUS.ZR`, bit 3: the last inversion's input was congruent to zero (R14). -/
  zr : Bool
  /-- `STATUS.ERR`, bits 15:8: the fault code, 0 when no fault has occurred since reset (R14, R146). -/
  err : BitVec 8
  /-- `ECMD`: the command word of the first faulting command since reset (R15). -/
  ecmd : CmdWord
  /-- The base table `TAB` (R17). -/
  tab : Table
  /-- The model's own: the host's pending actions, oldest first, the one sequence of R40. -/
  host : List HostAction
  /-- The model's own: the values that admitted reads have returned to the host, oldest first (R31). -/
  replies : List BusWord
  /-- The model's own: how many reset signals have been taken, which the draws of R165 are applied to. -/
  resets : Nat
  deriving DecidableEq, Repr

/-- Why a step stops with a fault: never. A GM-CORE fault (R145 to R149) changes STATUS.ERR and ECMD and the machine goes
on, so it is a next state; nothing else in the spec stops the machine. No constructor, so no step raises one: safe. -/
inductive Fault where
  deriving DecidableEq, Repr

/-- Why a step has no meaning. -/
inductive Refusal where
  /-- A command with no meaning in this model. No arm of this model raises it. Safe: the model stops where the hardware
  would go on. -/
  | notModelled (mnemonic : String)
  /-- A host access that the aperture does not admit (R37): undefined offset, misaligned, a width the item does not accept,
  or across two items. Raised by the aperture read and write, for which R37 says "A model should give such an access no
  step (refuse it)". Safe: the hardware answers with a bus error and changes no state. -/
  | busError (addr n : Nat)
  deriving DecidableEq, Repr

/-- The machine right after reset: STATUS and ECMD zero (R166); the registers and the table, for which the spec gives no
value (R165), zero (DESIGN CHOICE, log 1 and log 2); nothing pending from the host. -/
def State.reset : State where
  regs := Vector.replicate 16 0
  trdy := false
  eq := false
  inf := false
  zr := false
  err := 0
  ecmd := 0
  tab := Vector.replicate Config.baseDigits (Vector.replicate Config.baseValues ⟨0, 0⟩)
  host := []
  replies := []
  resets := 0

end Sys2Proof.Machine
end

