-- ==== Sys2Proof/Machine/Ops.lean ====
section
/-! DEFINITION. The named operations over the state: reading and writing registers and register groups (R10, R38, R54),
raising a fault (R145 to R147), and taking the reset signal (R165 to R167). -/

namespace Sys2Proof.Machine

/-! Registers. An index past 15 reads 0 and a write there does nothing; no command gets that far, since R148 raises REGIDX
before any operand is read. -/

/-- `R[i]` (R8, R10). -/
def State.reg (s : State) (i : Nat) : Word :=
  if h : i < 16 then s.regs[i] else 0

/-- `R[i] <- v` (R8, R10). -/
def State.setReg (s : State) (i : Nat) (v : Word) : State :=
  if h : i < 16 then { s with regs := s.regs.set i v } else s

/-- `R[i]` as the integer it holds (R11). -/
def State.val (s : State) (i : Nat) : Nat :=
  (s.reg i).toNat

/-- `R[i] <- v` for an integer result, which the rule that computes it keeps below 2^256 (R8). -/
def State.setVal (s : State) (i : Nat) (v : Nat) : State :=
  s.setReg i (BitVec.ofNat 256 v)

/-- The affine pair in `R[i]`, `R[i+1]` (R54). -/
def State.pair (s : State) (i : Nat) : Affine :=
  ⟨s.val i, s.val (i + 1)⟩

/-- The Jacobian triple in `R[i]`, `R[i+1]`, `R[i+2]` (R54). -/
def State.triple (s : State) (i : Nat) : Jac :=
  ⟨s.val i, s.val (i + 1), s.val (i + 2)⟩

/-- `R[i] <- x ; R[i+1] <- y`. -/
def State.setPair (s : State) (i : Nat) (a : Affine) : State :=
  (s.setVal i a.x).setVal (i + 1) a.y

/-- `R[i..i+2] <- (X, Y, Z)`. -/
def State.setTriple (s : State) (i : Nat) (p : Jac) : State :=
  ((s.setVal i p.x).setVal (i + 1) p.y).setVal (i + 2) p.z

/-! Faults. -/

/-- The fault codes of R146. -/
inductive FaultCode where
  /-- The operation code is not one of the seventeen. -/
  | illop
  /-- An unused register field or a disallowed immediate bit is set. -/
  | rsvd
  /-- A register group runs past `R[15]`. -/
  | regidx
  /-- A TSEL column above 36. -/
  | col
  /-- TSEL, BMUL or CMUL while `TRDY = 0`. -/
  | notab
  /-- TINIT while `TRDY = 1`. -/
  | tabdone
  deriving DecidableEq, Repr

/-- The value written to `STATUS.ERR` (R146). -/
def FaultCode.code : FaultCode → BitVec 8
  | .illop => 1
  | .rsvd => 2
  | .regidx => 3
  | .col => 4
  | .notab => 5
  | .tabdone => 6

/-- `raise Fault(code)` for the command word `cw` (R147): exactly these two writes. There is no vector, no saved state and
no mode change, and no return from a fault (R150). -/
def raiseFault (code : FaultCode) (cw : CmdWord) (s : State) : State :=
  { s with err := code.code, ecmd := cw }

/-! Reset. -/

/-- The register contents after reset signal number `k`: free values (R165; log 3). -/
def drawnRegs (k : Nat) : Vector Word 16 :=
  Vector.ofFn fun i => Config.drawReg k i.val

/-- The table contents after reset signal number `k`: free values (R165; log 3), unreadable while `TRDY = 0`. -/
def drawnTable (k : Nat) : Table :=
  Vector.ofFn fun j => Vector.ofFn fun v => ⟨Config.drawTabX k j.val (v.val + 1), Config.drawTabY k j.val (v.val + 1)⟩

/-- The reset signal (R167): STATUS and ECMD zero (R166), registers and table unspecified (R165). What the host still means
to do and what it has read are the host's, and stay. -/
def takeReset (s : State) : State :=
  { State.reset with
    regs := drawnRegs (s.resets + 1)
    tab := drawnTable (s.resets + 1)
    host := s.host
    replies := s.replies
    resets := s.resets + 1 }

end Sys2Proof.Machine
end

