-- ==== Sys2Proof/Machine/Flags.lean ====
section
/-! DEFINITION. The flags and the STATUS register (R14, R16). Each flag is written only by the commands R14 names, always to
0 or 1. -/

namespace Sys2Proof.Machine

/-- `STATUS.EQ <- b` (R14: PADD). -/
def State.setEq (s : State) (b : Bool) : State :=
  { s with eq := b }

/-- `STATUS.INF <- b` (R14: PAFF, BMUL, SMUL, CMUL). -/
def State.setInf (s : State) (b : Bool) : State :=
  { s with inf := b }

/-- `STATUS.ZR <- b` (R14: MINV, KINV). -/
def State.setZr (s : State) (b : Bool) : State :=
  { s with zr := b }

/-- `ZR`'s value for an inversion of `a` modulo `m` (R131, R132): 1 exactly when `a mod m = 0`. -/
def zrFlag (a m : Nat) : Bool :=
  a % m == 0

/-- `INF`'s value for BMUL and SMUL (R113, R116): `inf or (not nz)`. -/
def infFlag (inf nz : Bool) : Bool :=
  inf || !nz

/-- `R[rd..rd+2] <- T ; STATUS.EQ <- eq` (R101). -/
def State.putSum (s : State) (rd : Nat) (r : Jac × Bool) : State :=
  (s.setTriple rd r.1).setEq r.2

/-- `R[rd] <- x ; R[rd+1] <- y ; STATUS.INF <- inf` (R103, R113, R116, R118). -/
def State.putAffine (s : State) (rd : Nat) (r : Affine × Bool) : State :=
  (s.setPair rd r.1).setInf r.2

/-- `R[rd] <- v ; STATUS.ZR <- zr` (R131, R132). -/
def State.putInverse (s : State) (rd : Nat) (v : Nat) (zr : Bool) : State :=
  (s.setVal rd v).setZr zr

/-- The 32-bit STATUS register (R14): TRDY bit 0, EQ bit 1, INF bit 2, ZR bit 3, ERR bits 15:8, all other bits 0. -/
def State.statusWord (s : State) : CmdWord :=
  BitVec.ofNat 32
    (s.trdy.toNat + 2 * s.eq.toNat + 4 * s.inf.toNat + 8 * s.zr.toNat + 256 * s.err.toNat)

end Sys2Proof.Machine
end

