-- ==== Sys2Proof/WellFormed.lean ====
section
/-! DEFINITION. Well-formed commands: the two checks of R148 that depend on the command word alone and not on its encoding
(REGIDX, R54, and COL, R146). A command that is not well formed still decodes; issuing it raises the fault. -/

namespace Sys2Proof

/-- R54: the group of `n` registers that starts at `f` does not run past `R[15]`; register numbers do not wrap around. -/
def groupOk (f : Reg) (n : Nat) : Bool :=
  f.val + n ≤ 16

/-- R54 with the spans of R56: every register group of the command fits. -/
def Instr.groupsOk : Instr → Bool
  | .mmul _ _ _ _ | .msqr _ _ _ | .mred _ _ _ | .menc _ _ _ | .minv _ _ _ | .kinv _ _ => true
  | .cmov _ _ _ _ | .cneg _ _ _ _ => true
  | .tsel rd _ _ => groupOk rd 2
  | .pdbl rd ra => groupOk rd 3 && groupOk ra 3
  | .padd rd ra rb => groupOk rd 3 && groupOk ra 3 && groupOk rb 3
  | .paddm _ _ _ rd ra rb => groupOk rd 3 && groupOk ra 3 && groupOk rb 2
  | .paff rd ra => groupOk rd 2 && groupOk ra 3
  | .bmul rd _ => groupOk rd 2
  | .smul rd _ rb => groupOk rd 2 && groupOk rb 2
  | .cmul rd _ _ rc => groupOk rd 2 && groupOk rc 2
  | .tinit => true

/-- R146 code COL: a TSEL column is at most 36. -/
def Instr.columnOk : Instr → Bool
  | .tsel _ _ col => col.val < Config.baseDigits
  | .mmul _ _ _ _ | .msqr _ _ _ | .mred _ _ _ | .menc _ _ _ | .minv _ _ _ | .kinv _ _ => true
  | .cmov _ _ _ _ | .cneg _ _ _ _ | .pdbl _ _ | .padd _ _ _ | .paddm _ _ _ _ _ _ | .paff _ _ => true
  | .bmul _ _ | .smul _ _ _ | .cmul _ _ _ _ | .tinit => true

/-- A command whose register groups fit and whose column exists. -/
def Instr.wf (i : Instr) : Bool :=
  i.groupsOk && i.columnOk

end Sys2Proof
end

