-- ==== Sys2Proof/Machine/Operands.lean ====
section
/-! DEFINITION. Operand decoding inside the machine: the engine a modulus bit selects (R55), the condition of CMOV and CNEG
(R85), the register groups a command names (R54, R56), and the fault checks that precede every command's rule (R148). -/

namespace Sys2Proof.Machine

/-- `M_m` (R55): the engine of `CURVE` that the modulus bit selects. -/
def engineOf (c : Config.Params) : ModSel → Config.Engine
  | .p => c.field
  | .n => c.order

/-- The condition `c` (R85), from the flags as they were before the command. -/
def condOf (cs : Cond) (s : State) : Bool :=
  match cs with
  | .f => false
  | .t => true
  | .eq => s.eq
  | .inf => s.inf

/-- The register groups of a command, each with its span (R54, R56); a field of span 0 names none. -/
def spans : Instr → List (Reg × Nat)
  | .mmul _ rd ra rb => [(rd, 1), (ra, 1), (rb, 1)]
  | .msqr _ rd ra => [(rd, 1), (ra, 1)]
  | .mred _ rd ra => [(rd, 1), (ra, 1)]
  | .menc _ rd ra => [(rd, 1), (ra, 1)]
  | .minv _ rd ra => [(rd, 1), (ra, 1)]
  | .kinv rd ra => [(rd, 1), (ra, 1)]
  | .cmov _ rd ra rb => [(rd, 1), (ra, 1), (rb, 1)]
  | .cneg _ _ rd ra => [(rd, 1), (ra, 1)]
  | .tsel rd ra _ => [(rd, 2), (ra, 1)]
  | .pdbl rd ra => [(rd, 3), (ra, 3)]
  | .padd rd ra rb => [(rd, 3), (ra, 3), (rb, 3)]
  | .paddm _ _ _ rd ra rb => [(rd, 3), (ra, 3), (rb, 2)]
  | .paff rd ra => [(rd, 2), (ra, 3)]
  | .bmul rd ra => [(rd, 2), (ra, 1)]
  | .smul rd ra rb => [(rd, 2), (ra, 1), (rb, 2)]
  | .cmul rd ra rb rc => [(rd, 2), (ra, 1), (rb, 1), (rc, 2)]
  | .tinit => []

/-- A register group runs past `R[15]` (R54): `f + n - 1 > 15`. -/
def pastEnd (g : Reg × Nat) : Bool :=
  15 < g.1.val + g.2 - 1

/-- The command is a TSEL of a column above 36 (R146, code COL). -/
def badColumn : Instr → Bool
  | .tsel _ _ col => 36 < col.val
  | _ => false

/-- The command reads the base table (R148 check 5). -/
def readsTable : Instr → Bool
  | .tsel _ _ _ | .bmul _ _ | .cmul _ _ _ _ => true
  | _ => false

/-- The command builds the base table (R148 check 6). -/
def buildsTable : Instr → Bool
  | .tinit => true
  | _ => false

/-- Checks 3 to 6 of R148, in order: the first that fails gives the code. -/
def faultOf (i : Instr) (s : State) : Option FaultCode :=
  if (spans i).any pastEnd then some .regidx
  else if badColumn i then some .col
  else if readsTable i && !s.trdy then some .notab
  else if buildsTable i && s.trdy then some .tabdone
  else none

/-- R148 for a decoded command: raise the first fault that applies, else execute the command's rule (check 7). The
command word that ECMD records is the command's encoding (log 13). -/
def guarded (i : Instr) (s : State) (rule : State → State) : Host.Outcome State Fault Refusal :=
  match faultOf i s with
  | some code => .next (raiseFault code (encode i) s)
  | none => .next (rule s)

end Sys2Proof.Machine
end

