-- ==== Sys2Proof/Machine/FieldOps.lean ====
section
/-! DEFINITION. MMUL, MSQR, MRED, MENC (40_montgomery.md) and MINV, KINV (44_inverse_init.md sections 2 and 3): each command's
rule over any `CURVE` (R1), and its meaning on this hardware. -/

namespace Sys2Proof.Machine

/-- MMUL (R72). -/
def ruleMmul (c : Config.Params) (m : ModSel) (rd ra rb : Reg) (s : State) : State :=
  s.setVal rd (montMul (engineOf c m) (s.val ra) (s.val rb))

/-- MMUL behind the fault checks, on this hardware's curve. -/
def execMmul (m : ModSel) (rd ra rb : Reg) (s : State) : Host.Outcome State Fault Refusal :=
  guarded (.mmul m rd ra rb) s (ruleMmul Config.sm2 m rd ra rb)

/-- MSQR (R75). -/
def ruleMsqr (c : Config.Params) (m : ModSel) (rd ra : Reg) (s : State) : State :=
  s.setVal rd (montMul (engineOf c m) (s.val ra) (s.val ra))

/-- MSQR behind the fault checks, on this hardware's curve. -/
def execMsqr (m : ModSel) (rd ra : Reg) (s : State) : Host.Outcome State Fault Refusal :=
  guarded (.msqr m rd ra) s (ruleMsqr Config.sm2 m rd ra)

/-- MRED (R74). -/
def ruleMred (c : Config.Params) (m : ModSel) (rd ra : Reg) (s : State) : State :=
  s.setVal rd (montMul (engineOf c m) (s.val ra) 1)

/-- MRED behind the fault checks, on this hardware's curve. -/
def execMred (m : ModSel) (rd ra : Reg) (s : State) : Host.Outcome State Fault Refusal :=
  guarded (.mred m rd ra) s (ruleMred Config.sm2 m rd ra)

/-- MENC (R73). -/
def ruleMenc (c : Config.Params) (m : ModSel) (rd ra : Reg) (s : State) : State :=
  s.setVal rd (montMul (engineOf c m) (s.val ra) (engineOf c m).rr)

/-- MENC behind the fault checks, on this hardware's curve. -/
def execMenc (m : ModSel) (rd ra : Reg) (s : State) : Host.Outcome State Fault Refusal :=
  guarded (.menc m rd ra) s (ruleMenc Config.sm2 m rd ra)

/-- MINV (R131): the inverse, and `ZR`. -/
def ruleMinv (c : Config.Params) (m : ModSel) (rd ra : Reg) (s : State) : State :=
  s.putInverse rd (montInv (engineOf c m) (s.val ra)) (zrFlag (s.val ra) (engineOf c m).m)

/-- MINV behind the fault checks, on this hardware's curve. -/
def execMinv (m : ModSel) (rd ra : Reg) (s : State) : Host.Outcome State Fault Refusal :=
  guarded (.minv m rd ra) s (ruleMinv Config.sm2 m rd ra)

/-- The value of KINV (R132): into Montgomery form, the inverse, out of Montgomery form, all modulo `N`. -/
def kinvValue (e : Config.Engine) (k : Nat) : Nat :=
  montMul e (montInv e (montMul e (k % e.m) e.rr)) 1

/-- KINV (R132): the standard-form inverse modulo `N`, and `ZR`. -/
def ruleKinv (c : Config.Params) (rd ra : Reg) (s : State) : State :=
  s.putInverse rd (kinvValue c.order (s.val ra)) (zrFlag (s.val ra) c.order.m)

/-- KINV behind the fault checks, on this hardware's curve. -/
def execKinv (rd ra : Reg) (s : State) : Host.Outcome State Fault Refusal :=
  guarded (.kinv rd ra) s (ruleKinv Config.sm2 rd ra)

end Sys2Proof.Machine
end

