-- ==== Sys2Proof/Machine/PointOps.lean ====
section
/-! DEFINITION. PDBL, PADD, PADDM and PAFF (42_point.md): each command's rule over any `CURVE` (R1), and its meaning on this
hardware. -/

namespace Sys2Proof.Machine

/-- PDBL (R100). -/
def rulePdbl (c : Config.Params) (rd ra : Reg) (s : State) : State :=
  s.setTriple rd (dbl c.field (s.triple ra))

/-- PDBL behind the fault checks, on this hardware's curve. -/
def execPdbl (rd ra : Reg) (s : State) : Host.Outcome State Fault Refusal :=
  guarded (.pdbl rd ra) s (rulePdbl Config.sm2 rd ra)

/-- PADD (R101): the sum, and `EQ`. -/
def rulePadd (c : Config.Params) (rd ra rb : Reg) (s : State) : State :=
  s.putSum rd (add c.field (s.triple ra) (s.triple rb))

/-- PADD behind the fault checks, on this hardware's curve. -/
def execPadd (rd ra rb : Reg) (s : State) : Host.Outcome State Fault Refusal :=
  guarded (.padd rd ra rb) s (rulePadd Config.sm2 rd ra rb)

/-- PADDM (R102): the mixed addition with its three immediate bits. -/
def rulePaddm (c : Config.Params) (pnz qnz sg : Bool) (rd ra rb : Reg) (s : State) : State :=
  s.setTriple rd (addMixed c.field (s.triple ra) (s.pair rb) sg qnz pnz)

/-- PADDM behind the fault checks, on this hardware's curve. -/
def execPaddm (pnz qnz sg : Bool) (rd ra rb : Reg) (s : State) : Host.Outcome State Fault Refusal :=
  guarded (.paddm pnz qnz sg rd ra rb) s (rulePaddm Config.sm2 pnz qnz sg rd ra rb)

/-- PAFF (R103): the affine pair in standard form, and `INF`. -/
def rulePaff (c : Config.Params) (rd ra : Reg) (s : State) : State :=
  s.putAffine rd (toAffine c.field (s.triple ra))

/-- PAFF behind the fault checks, on this hardware's curve. -/
def execPaff (rd ra : Reg) (s : State) : Host.Outcome State Fault Refusal :=
  guarded (.paff rd ra) s (rulePaff Config.sm2 rd ra)

end Sys2Proof.Machine
end

