-- ==== Sys2Proof/Machine/Table.lean ====
section
/-! DEFINITION. The base table: its construction by TINIT (R17, R134, R136; log 9) and the masked full scan that every read
of it makes (R88). -/

namespace Sys2Proof.Machine

open Sys2Proof.Config (Params)

/-- The generator as a triple in Montgomery form: `row[1]` of R136. -/
def genJac (c : Params) : Jac :=
  ⟨montMul c.field c.gx c.field.rr, montMul c.field c.gy c.field.rr, c.field.one⟩

/-- `row[v]` of R136 with a bound on the recursion: a doubling for an even `v`, an addition of `row[1]` for an odd one. -/
def rowWithin (c : Params) : Nat → Nat → Jac
  | 0, _ => genJac c
  | fuel + 1, v =>
    if v ≤ 1 then genJac c
    else if v % 2 = 0 then dbl c.field (rowWithin c fuel (v / 2))
    else (add c.field (rowWithin c fuel (v - 1)) (genJac c)).1

/-- `row[v]` of R136, representing `v * G`. -/
def rowPoint (c : Params) (v : Nat) : Jac :=
  rowWithin c v v

/-- The normalisation of R136: the affine pair of a triple, kept in Montgomery form. -/
def normalise (c : Params) (p : Jac) : Affine :=
  let zi := montInv c.field p.z
  let zi2 := fSqr c.field zi
  let zi3 := fMul c.field zi2 zi
  ⟨fMul c.field p.x zi2, fMul c.field p.y zi3⟩

/-- `TAB[j][v]` (R17): the Montgomery-form affine coordinates of `(v * 2^(7j)) * G`, reached as R136 reaches them:
`row[v]` doubled 7 times per column step, then normalised. -/
def baseEntry (c : Params) (j v : Nat) : TabEntry :=
  let a := normalise c (dblTimes c.field (rowPoint c v) (Config.baseWidth * j))
  ⟨BitVec.ofNat 256 a.x, BitVec.ofNat 256 a.y⟩

/-- The table that TINIT builds (R134): a constant of the curve. -/
def baseTable (c : Params) : Table :=
  Vector.ofFn fun j => Vector.ofFn fun v => baseEntry c j.val (v.val + 1)

/-- The masked scan of R88 over values numbered from `v`: every entry is read, the one numbered `idx` is kept. -/
def scanFrom (idx : Nat) : Nat → List Nat → Nat
  | _, [] => 0
  | v, e :: es => (if idx = v then e else 0) ||| scanFrom idx (v + 1) es

/-- The masked scan of R88 over values numbered 1, 2, ...: the value numbered `idx`, or 0 if there is none. -/
def scan (idx : Nat) (es : List Nat) : Nat :=
  scanFrom idx 1 es

/-- Column `j` of the table, the entries 1 to 64 in order. -/
def columnEntries (t : Table) (j : Nat) : List TabEntry :=
  if h : j < Config.baseDigits then t[j].toList else []

/-- `Sel(j, idx)` (R88, R112): `TAB[j][idx]` if `1 <= idx <= 64`, else `(0, 0)`. -/
def tableSelect (t : Table) (j idx : Nat) : Affine :=
  ⟨scan idx ((columnEntries t j).map fun e => e.x.toNat), scan idx ((columnEntries t j).map fun e => e.y.toNat)⟩

end Sys2Proof.Machine
end

