-- ==== Sys2Proof/Machine/Scalar.lean ====
section
/-! DEFINITION. The windowed scalar multiplier: Booth recoding (R110), the fixed-base loop (R112), the per-call table and the
variable-base loop (R114, R115), and the combination of two partial results (R117). Every `if` is a masked selection of
the spec, evaluated directly (R172; log 11). -/

namespace Sys2Proof.Machine

open Sys2Proof.Config (Engine Params)

/-- The window `W` of R110: the `w` bits of digit position `i` and the bit below them. -/
def boothWindow (k w i : Nat) : Nat :=
  2 * k / 2 ^ (w * i) % 2 ^ (w + 1)

/-- `Booth(k, w, i)` (R110): the sign and the magnitude of digit `i`. -/
def booth (k w i : Nat) : Bool × Nat :=
  let win := boothWindow k w i
  let sign := win / 2 ^ w == 1
  let d := if sign then 2 ^ (w + 1) - 1 - win else win
  (sign, d / 2 + d % 2)

/-- The value of a digit (R110): `-mag` or `+mag`. -/
def digitValue (d : Bool × Nat) : Int :=
  if d.1 then -(d.2 : Int) else d.2

/-- `k' = k mod N` (R119). -/
def reduceScalar (c : Params) (k : Nat) : Nat :=
  k % c.order.m

/-- One of the 36 steps of R112's loop: the digit `i` of `k'`. -/
def baseMulStep (c : Params) (t : Table) (k' : Nat) (st : Jac × Bool) (i : Nat) : Jac × Bool :=
  let d := booth k' Config.baseWidth i
  (addMixed c.field st.1 (tableSelect t i d.2) d.1 (d.2 != 0) st.2, st.2 || d.2 != 0)

/-- `BaseMulJac(k)` (R112) over the table `t`: the triple, and the flag "something has been added". -/
def baseMulJac (c : Params) (t : Table) (k : Nat) : Jac × Bool :=
  let k' := reduceScalar c k
  let d := booth k' Config.baseWidth 0
  let a := tableSelect t 0 d.2
  ((List.range (Config.baseDigits - 1)).map (· + 1)).foldl (baseMulStep c t k')
    (⟨a.x, condNeg c.field d.1 a.y, c.field.one⟩, d.2 != 0)

/-- The per-call table `VT[1..16]` of R114, `VT[v]` at position `v - 1`, built in R114's order. -/
def varTable (c : Params) (x y : Nat) : List Jac :=
  let e := c.field
  let v1 : Jac := ⟨montMul e x e.rr, montMul e y e.rr, e.one⟩
  let v2 := dbl e v1
  let v3 := (add e v2 v1).1
  let v4 := dbl e v2
  let v5 := (add e v4 v1).1
  let v6 := dbl e v3
  let v7 := (add e v6 v1).1
  let v8 := dbl e v4
  let v9 := (add e v8 v1).1
  let v10 := dbl e v5
  let v11 := (add e v10 v1).1
  let v12 := dbl e v6
  let v13 := (add e v12 v1).1
  let v14 := dbl e v7
  let v15 := (add e v14 v1).1
  let v16 := dbl e v8
  [v1, v2, v3, v4, v5, v6, v7, v8, v9, v10, v11, v12, v13, v14, v15, v16]

/-- `SelV(idx)` (R115): `VT[idx]` if `1 <= idx <= 16`, else `(0, 0, 0)`, by the masked scan. -/
def varSelect (vt : List Jac) (idx : Nat) : Jac :=
  ⟨scan idx (vt.map Jac.x), scan idx (vt.map Jac.y), scan idx (vt.map Jac.z)⟩

/-- One of the 51 steps of R115's loop: the digit `i` of `k'`. -/
def varMulStep (e : Engine) (vt : List Jac) (k' : Nat) (st : Jac × Bool) (i : Nat) : Jac × Bool :=
  let acc := dblTimes e st.1 5
  let dg := booth k' Config.varWidth i
  let t0 := varSelect vt dg.2
  let t : Jac := ⟨t0.x, condNeg e dg.1 t0.y, t0.z⟩
  let u := add e acc t
  let u1 := if u.2 then dbl e acc else u.1
  let u2 := if dg.2 = 0 then acc else u1
  (if st.2 then u2 else t, st.2 || dg.2 != 0)

/-- `VarMulJac(k, x, y)` (R115): the triple, and the flag "something has been added". -/
def varMulJac (c : Params) (k x y : Nat) : Jac × Bool :=
  let k' := reduceScalar c k
  let vt := varTable c x y
  let m := (booth k' Config.varWidth (Config.varDigits - 1)).2
  (List.range (Config.varDigits - 1)).reverse.foldl (varMulStep c.field vt k') (varSelect vt m, m != 0)

/-- `Combine` (R117): the sum of two partial results, with equal, absent and opposite terms folded in. -/
def combine (e : Engine) (r1 r2 : Jac × Bool) : Jac :=
  let s := add e r1.1 r2.1
  let s1 := if s.2 then dbl e r1.1 else s.1
  let s2 := if r2.2 then s1 else r1.1
  if r1.2 then s2 else r2.1

end Sys2Proof.Machine
end

