-- ==== Sys2Proof/Machine/ScalarOps.lean ====
section
/-! DEFINITION. BMUL, SMUL, CMUL (43_scalar_mult.md) and TINIT (44_inverse_init.md section 5): each command's rule over any
`CURVE` (R1), and its meaning on this hardware. -/

namespace Sys2Proof.Machine

/-- The end of BMUL and SMUL (R113, R116): the pair of `ToAffine`, and `inf or (not nz)`. -/
def affineResult (e : Config.Engine) (p : Jac × Bool) : Affine × Bool :=
  ((toAffine e p.1).1, infFlag (toAffine e p.1).2 p.2)

/-- BMUL (R113): `k * G` in standard form, and `INF`. -/
def ruleBmul (c : Config.Params) (rd ra : Reg) (s : State) : State :=
  s.putAffine rd (affineResult c.field (baseMulJac c s.tab (s.val ra)))

/-- BMUL behind the fault checks, on this hardware's curve. -/
def execBmul (rd ra : Reg) (s : State) : Host.Outcome State Fault Refusal :=
  guarded (.bmul rd ra) s (ruleBmul Config.sm2 rd ra)

/-- SMUL (R116): `k * (x, y)` in standard form, and `INF`. -/
def ruleSmul (c : Config.Params) (rd ra rb : Reg) (s : State) : State :=
  s.putAffine rd (affineResult c.field (varMulJac c (s.val ra) (s.val rb) (s.val (rb.val + 1))))

/-- SMUL behind the fault checks, on this hardware's curve. -/
def execSmul (rd ra rb : Reg) (s : State) : Host.Outcome State Fault Refusal :=
  guarded (.smul rd ra rb) s (ruleSmul Config.sm2 rd ra rb)

/-- CMUL (R118): `k1 * G + k2 * (x, y)` in standard form, and `INF`. -/
def ruleCmul (c : Config.Params) (rd ra rb rc : Reg) (s : State) : State :=
  s.putAffine rd (toAffine c.field (combine c.field (baseMulJac c s.tab (s.val ra))
    (varMulJac c (s.val rb) (s.val rc) (s.val (rc.val + 1)))))

/-- CMUL behind the fault checks, on this hardware's curve. -/
def execCmul (rd ra rb rc : Reg) (s : State) : Host.Outcome State Fault Refusal :=
  guarded (.cmul rd ra rb rc) s (ruleCmul Config.sm2 rd ra rb rc)

/-- TINIT (R134): builds the table and sets `TRDY`; reads and writes no register. -/
def ruleTinit (c : Config.Params) (s : State) : State :=
  { s with tab := baseTable c, trdy := true }

/-- TINIT behind the fault checks, on this hardware's curve. -/
def execTinit (s : State) : Host.Outcome State Fault Refusal :=
  guarded .tinit s (ruleTinit Config.sm2)

end Sys2Proof.Machine
end

