-- ==== Sys2Proof/Machine/SelectOps.lean ====
section
/-! DEFINITION. CMOV, CNEG and TSEL (41_select_move.md): each command's rule, over any `CURVE` (R1) where one enters, and its
meaning on this hardware. -/

namespace Sys2Proof.Machine

/-- CMOV (R86): a bit-exact move of one of two registers; a true condition selects the first source. -/
def ruleCmov (cs : Cond) (rd ra rb : Reg) (s : State) : State :=
  s.setReg rd (if condOf cs s then s.reg ra else s.reg rb)

/-- CMOV behind the fault checks; no constant of `CURVE` enters. -/
def execCmov (cs : Cond) (rd ra rb : Reg) (s : State) : Host.Outcome State Fault Refusal :=
  guarded (.cmov cs rd ra rb) s (ruleCmov cs rd ra rb)

/-- CNEG (R87): a canonical negation when the condition holds, a bit-exact copy otherwise. -/
def ruleCneg (c : Config.Params) (cs : Cond) (m : ModSel) (rd ra : Reg) (s : State) : State :=
  s.setVal rd (condNeg (engineOf c m) (condOf cs s) (s.val ra))

/-- CNEG behind the fault checks, on this hardware's curve. -/
def execCneg (cs : Cond) (m : ModSel) (rd ra : Reg) (s : State) : Host.Outcome State Fault Refusal :=
  guarded (.cneg cs m rd ra) s (ruleCneg Config.sm2 cs m rd ra)

/-- TSEL (R88): the entry of column `col` that the whole register value selects, or (0, 0). -/
def ruleTsel (rd ra : Reg) (col : Fin 64) (s : State) : State :=
  s.setPair rd (tableSelect s.tab col (s.val ra))

/-- TSEL behind the fault checks; no constant of `CURVE` enters. -/
def execTsel (rd ra : Reg) (col : Fin 64) (s : State) : Host.Outcome State Fault Refusal :=
  guarded (.tsel rd ra col) s (ruleTsel rd ra col)

end Sys2Proof.Machine
end

