-- ==== Sys2Proof/Machine/Dispatch.lean ====
section
/-! DEFINITION. The dispatch: one arm per command, each one call of its meaning. -/

namespace Sys2Proof.Machine

def exec (i : Instr) (s : State) : Host.Outcome State Fault Refusal :=
  match i with
  | .mmul m rd ra rb => Sys2Proof.Machine.execMmul m rd ra rb s
  | .msqr m rd ra => Sys2Proof.Machine.execMsqr m rd ra s
  | .mred m rd ra => Sys2Proof.Machine.execMred m rd ra s
  | .menc m rd ra => Sys2Proof.Machine.execMenc m rd ra s
  | .minv m rd ra => Sys2Proof.Machine.execMinv m rd ra s
  | .kinv rd ra => Sys2Proof.Machine.execKinv rd ra s
  | .cmov cs rd ra rb => Sys2Proof.Machine.execCmov cs rd ra rb s
  | .cneg cs m rd ra => Sys2Proof.Machine.execCneg cs m rd ra s
  | .tsel rd ra col => Sys2Proof.Machine.execTsel rd ra col s
  | .pdbl rd ra => Sys2Proof.Machine.execPdbl rd ra s
  | .padd rd ra rb => Sys2Proof.Machine.execPadd rd ra rb s
  | .paddm pnz qnz sg rd ra rb => Sys2Proof.Machine.execPaddm pnz qnz sg rd ra rb s
  | .paff rd ra => Sys2Proof.Machine.execPaff rd ra s
  | .bmul rd ra => Sys2Proof.Machine.execBmul rd ra s
  | .smul rd ra rb => Sys2Proof.Machine.execSmul rd ra rb s
  | .cmul rd ra rb rc => Sys2Proof.Machine.execCmul rd ra rb rc s
  | .tinit => Sys2Proof.Machine.execTinit s

end Sys2Proof.Machine
end

