-- ==== Sys2Proof/Machine/Command.lean ====
section
/-! DEFINITION. Issuing a command word (R51, R52) with the fault checks of R148 that precede decoding's success: the sticky
fault (R149), ILLOP and RSVD. -/

namespace Sys2Proof.Machine

/-- Check 0 of R148 (R149): once `STATUS.ERR` is non-zero every word written to CMD is discarded. -/
def State.faulted (s : State) : Bool :=
  s.err != 0

/-- A 4-byte write of `cw` to CMD (R51): the checks of R148 in order, then the command, in one atomic step (R52). -/
def issue (cw : CmdWord) (s : State) : Host.Outcome State Fault Refusal :=
  if s.faulted then .next s
  else
    match decode cw with
    | .error .illop => .next (raiseFault .illop cw s)
    | .error .rsvd => .next (raiseFault .rsvd cw s)
    | .ok i => exec i s

end Sys2Proof.Machine
end

