-- ==== Sys2Proof/Machine/Aperture.lean ====
section
/-! DEFINITION. The host aperture (20_memory.md): the map of R30, the admission rules of R31, R35 to R37, the big-endian
byte view of every item (R33, R34), and the host's reads, writes and reset signal as steps. -/

namespace Sys2Proof.Machine

/-- The constants of the PARAM window (R18). -/
inductive ParamName where
  | p
  | n
  | a
  | b
  | gx
  | gy
  deriving DecidableEq, Repr

/-- The value of a constant of the PARAM window, in standard form (R18), from the record `CURVE` (R1). -/
def paramValue (c : Config.Params) : ParamName → Nat
  | .p => c.field.m
  | .n => c.order.m
  | .a => c.a
  | .b => c.b
  | .gx => c.gx
  | .gy => c.gy

/-- The named items of R30's map. -/
inductive Item where
  /-- The register `R[i]`. -/
  | reg (i : Nat)
  /-- The CMD port (R13). -/
  | cmd
  /-- STATUS (R14). -/
  | status
  /-- ECMD (R15). -/
  | ecmd
  /-- A constant of the PARAM window (R18). -/
  | param (k : ParamName)
  /-- BITS (R18). -/
  | bits
  deriving DecidableEq, Repr

/-- One line of R30's map: an item with its offset and its size in bytes. -/
structure Region where
  base : Nat
  size : Nat
  item : Item
  deriving DecidableEq, Repr

/-- R30's map. Every offset that no region covers is undefined. -/
def apertureMap : List Region :=
  (List.range 16).map (fun i => ⟨32 * i, 32, .reg i⟩) ++
  [⟨0x200, 4, .cmd⟩, ⟨0x204, 4, .status⟩, ⟨0x208, 4, .ecmd⟩,
   ⟨0x300, 32, .param .p⟩, ⟨0x320, 32, .param .n⟩, ⟨0x340, 32, .param .a⟩, ⟨0x360, 32, .param .b⟩,
   ⟨0x380, 32, .param .gx⟩, ⟨0x3A0, 32, .param .gy⟩,
   ⟨0x3C0, 4, .bits⟩]

/-- The region that holds all of the bytes `addr` to `addr + n - 1` (R31). -/
def locate (addr n : Nat) : Option Region :=
  apertureMap.find? fun r => r.base ≤ addr && addr + n ≤ r.base + r.size

/-- The items that accept only a 4-byte access at their exact offset (R36): the ones of size 4. -/
def widthOk (r : Region) (addr n : Nat) : Bool :=
  if r.size = 4 then n == 4 && addr == r.base else true

/-- An admitted access (R31, R35, R36): the region it falls in, or none for a bus error (R37). -/
def admitted (addr n : Nat) : Option Region :=
  if (n = 1 ∨ n = 2 ∨ n = 4 ∨ n = 8) ∧ addr % n = 0 then
    (locate addr n).filter fun r => widthOk r addr n
  else none

/-- The integer that an item shows to the host. CMD reads as 0 (R13); the PARAM window shows this hardware's curve. -/
def itemValue (s : State) : Item → Nat
  | .reg i => s.val i
  | .cmd => 0
  | .status => s.statusWord.toNat
  | .ecmd => s.ecmd.toNat
  | .param k => paramValue Config.sm2 k
  | .bits => Config.bitSize

/-- Byte `t` of the big-endian image of the `size`-byte integer `v` (R33, R34): byte 0 is the most significant. -/
def imageByte (size v t : Nat) : Nat :=
  v / 256 ^ (size - 1 - t) % 256

/-- The byte at offset `a` of the aperture (R33), none at an undefined offset. -/
def State.byteAt (s : State) (a : Nat) : Option Byte :=
  (locate a 1).map fun r => BitVec.ofNat 8 (imageByte r.size (itemValue s r.item) (a - r.base))

/-- The big-endian integer of bytes in ascending offset order (R31). -/
def bigEndian (bs : List Byte) : Nat :=
  bs.foldl (fun acc b => 256 * acc + b.toNat) 0

/-- The bytes at offsets `addr` to `addr + n - 1`; an undefined offset contributes none. -/
def State.bytesAt (s : State) (addr n : Nat) : List Byte :=
  (List.range n).filterMap fun t => s.byteAt (addr + t)

/-- `MemRead(addr, n)` (R31), none for an access that is not admitted. It changes no state. -/
def memRead (s : State) (addr n : Nat) : Option BusWord :=
  (admitted addr n).map fun _ => BitVec.ofNat 64 (bigEndian (s.bytesAt addr n))

/-- `w` with byte `t` of its big-endian image replaced by `b` (R32, R33), `t` in 0..31. -/
def putByte (w : Word) (t b : Nat) : Word :=
  (w &&& ~~~((0xFF : Word) <<< (248 - 8 * t))) ||| (BitVec.ofNat 256 (b % 256) <<< (248 - 8 * t))

/-- `w` with the bytes `t` to `t + n - 1` replaced by the big-endian bytes of the `n`-byte value `v` (R32, R33). -/
def putBytes (w : Word) (t n v : Nat) : Word :=
  (List.range n).foldl (fun w k => putByte w (t + k) (imageByte n v k)) w

/-- `MemWrite(addr, n, v)` (R32): bytes into a register, a command into CMD, nothing into the read-only items (R14, R15,
R18); an access that is not admitted is refused (R37). -/
def memWrite (s : State) (addr n : Nat) (v : BusWord) : Host.Outcome State Fault Refusal :=
  match admitted addr n with
  | none => .refused (.busError addr n)
  | some r =>
    match r.item with
    | .reg i => .next (s.setReg i (putBytes (s.reg i) (addr - r.base) n v.toNat))
    | .cmd => issue (BitVec.ofNat 32 v.toNat) s
    | .status => .next s
    | .ecmd => .next s
    | .param _ => .next s
    | .bits => .next s

/-- A host read as a step (R31): the value goes to the host, the core's state is unchanged. -/
def hostRead (s : State) (addr n : Nat) : Host.Outcome State Fault Refusal :=
  match memRead s addr n with
  | none => .refused (.busError addr n)
  | some v => .next { s with replies := s.replies ++ [v] }

/-- One host action, carried out to completion before the next (R40). -/
def hostStep (a : HostAction) (s : State) : Host.Outcome State Fault Refusal :=
  match a with
  | .read addr n => hostRead s addr n
  | .write addr n v => memWrite s addr n v
  | .reset => .next (takeReset s)

/-- The next pending action of the host's one sequence (R40); with none pending the core is idle and holds its state
(R158(e)). -/
def nextAction (s : State) : Host.Outcome State Fault Refusal :=
  match s.host with
  | [] => .next s
  | a :: rest => hostStep a { s with host := rest }

/-- The host action that issues the command word `cw` (R51). -/
def issueAction (cw : CmdWord) : HostAction :=
  .write 0x200 4 (BitVec.ofNat 64 cw.toNat)

/-- `s` with the issue of the word `cw` as the next pending host action (log 4). -/
def queueCommand (s : State) (cw : CmdWord) : State :=
  { s with host := issueAction cw :: s.host }

end Sys2Proof.Machine
end

