-- ==== Sys2Proof/Machine/Step.lean ====
section
/-! DEFINITION. One step of GM-CORE: one action of the host, which for a command word is the whole command (R40, R52). -/

namespace Sys2Proof.Machine

/-- One step: the next pending host action (Machine/Aperture.lean). -/
def step (s : State) : Host.Outcome State Fault Refusal :=
  nextAction s

/-- `s` with the issue of a command word in front of the host's pending actions, so that the next step issues it. A command
is not fetched: it is the value of one write to CMD (R51). The word is `w`'s low `nbits` bits, all bits above them 0. -/
def State.withFetchWord (s : State) (nbits w : Nat) : State :=
  queueCommand s (BitVec.ofNat 32 (w % 2 ^ nbits))

end Sys2Proof.Machine
end

