-- ==== Sys2Proof/Machine/Assembler.lean ====
section
/-! DEFINITION. The assembler form of a command (R59), the notation of 95_test_vectors.md. -/

namespace Sys2Proof.Machine

/-- `r0` .. `r15` (R59). -/
def regName (r : Reg) : String :=
  "r" ++ toString r.val

/-- The modulus suffix `.P` or `.N` (R59). -/
def modSuffix : ModSel → String
  | .p => ".P"
  | .n => ".N"

/-- The condition `F`, `T`, `EQ` or `INF` (R59). -/
def condName : Cond → String
  | .f => "F"
  | .t => "T"
  | .eq => "EQ"
  | .inf => "INF"

/-- Operands separated by commas (R59). -/
def operands (os : List String) : String :=
  String.intercalate ", " os

/-- One command line (R59): the mnemonic with its suffix, then destination, sources and immediate. -/
def asm : Instr → String
  | .mmul m rd ra rb => "MMUL" ++ modSuffix m ++ " " ++ operands [regName rd, regName ra, regName rb]
  | .msqr m rd ra => "MSQR" ++ modSuffix m ++ " " ++ operands [regName rd, regName ra]
  | .mred m rd ra => "MRED" ++ modSuffix m ++ " " ++ operands [regName rd, regName ra]
  | .menc m rd ra => "MENC" ++ modSuffix m ++ " " ++ operands [regName rd, regName ra]
  | .minv m rd ra => "MINV" ++ modSuffix m ++ " " ++ operands [regName rd, regName ra]
  | .kinv rd ra => "KINV " ++ operands [regName rd, regName ra]
  | .cmov cs rd ra rb => "CMOV " ++ operands [regName rd, regName ra, regName rb, condName cs]
  | .cneg cs m rd ra => "CNEG" ++ modSuffix m ++ " " ++ operands [regName rd, regName ra, condName cs]
  | .tsel rd ra col => "TSEL " ++ operands [regName rd, regName ra, toString col.val]
  | .pdbl rd ra => "PDBL " ++ operands [regName rd, regName ra]
  | .padd rd ra rb => "PADD " ++ operands [regName rd, regName ra, regName rb]
  | .paddm pnz qnz sg rd ra rb =>
    "PADDM " ++ operands [regName rd, regName ra, regName rb, toString (4 * pnz.toNat + 2 * qnz.toNat + sg.toNat)]
  | .paff rd ra => "PAFF " ++ operands [regName rd, regName ra]
  | .bmul rd ra => "BMUL " ++ operands [regName rd, regName ra]
  | .smul rd ra rb => "SMUL " ++ operands [regName rd, regName ra, regName rb]
  | .cmul rd ra rb rc => "CMUL " ++ operands [regName rd, regName ra, regName rb, regName rc]
  | .tinit => "TINIT"

end Sys2Proof.Machine
end

