-- ==== Sys2Proof/Machine/Rule.lean ====
section
/-! DEFINITION. The rule of every command over an arbitrary record `CURVE` (R1): check 7 of R148, without the checks before
it. The machine is this on the curve of Config.lean (Laws/Exec.lean, exec_guarded). -/

namespace Sys2Proof.Machine

/-- What a command does once its checks have passed, for the curve `c`. -/
def commandRule (c : Config.Params) : Instr → State → State
  | .mmul m rd ra rb => ruleMmul c m rd ra rb
  | .msqr m rd ra => ruleMsqr c m rd ra
  | .mred m rd ra => ruleMred c m rd ra
  | .menc m rd ra => ruleMenc c m rd ra
  | .minv m rd ra => ruleMinv c m rd ra
  | .kinv rd ra => ruleKinv c rd ra
  | .cmov cs rd ra rb => ruleCmov cs rd ra rb
  | .cneg cs m rd ra => ruleCneg c cs m rd ra
  | .tsel rd ra col => ruleTsel rd ra col
  | .pdbl rd ra => rulePdbl c rd ra
  | .padd rd ra rb => rulePadd c rd ra rb
  | .paddm pnz qnz sg rd ra rb => rulePaddm c pnz qnz sg rd ra rb
  | .paff rd ra => rulePaff c rd ra
  | .bmul rd ra => ruleBmul c rd ra
  | .smul rd ra rb => ruleSmul c rd ra rb
  | .cmul rd ra rb rc => ruleCmul c rd ra rb rc
  | .tinit => ruleTinit c

end Sys2Proof.Machine
end

