-- ==== Sys2Proof/Safety.lean ====
section
/-! DEFINITION. The terms of the statements: the machine invariant, the frame of a command, the admissible host accesses as
arithmetic, the opcode table at the level of the word, the scalar loops and the table as recurrences, and what a Jacobian
triple represents. -/

namespace Sys2Proof.Safety

open Sys2Proof.Machine

/-! The invariant. -/

/-- R146: `STATUS.ERR` holds 0 or one of the six codes; 7 to 255 are never written. -/
def ErrLegal (s : State) : Prop :=
  s.err.toNat ≤ 6

/-- R15: `ECMD` is 0 while no command has faulted. -/
def EcmdQuiet (s : State) : Prop :=
  s.err = 0 → s.ecmd = 0

/-- R17, R22: once `TRDY = 1` the table is the one TINIT builds. -/
def TableBuilt (s : State) : Prop :=
  s.trdy = true → s.tab = baseTable Config.sm2

/-- The machine invariant. -/
def Inv (s : State) : Prop :=
  ErrLegal s ∧ EcmdQuiet s ∧ TableBuilt s

/-! Frames. -/

/-- Every register outside the group of `n` registers that starts at `rd` is unchanged. -/
def RegsExcept (rd n : Nat) (s t : State) : Prop :=
  ∀ i, i < 16 → (i < rd ∨ rd + n ≤ i) → t.reg i = s.reg i

/-- Every byte of the aperture outside `R[rd..rd+n-1]` reads as before, STATUS among them. -/
def BytesExcept (rd n : Nat) (s t : State) : Prop :=
  ∀ a, (a < 32 * rd ∨ 32 * (rd + n) ≤ a) → t.byteAt a = s.byteAt a

/-- Every byte of the aperture outside `R[rd..rd+n-1]` and outside the four bytes of STATUS reads as before. -/
def BytesExceptStatus (rd n : Nat) (s t : State) : Prop :=
  ∀ a, (a < 32 * rd ∨ 32 * (rd + n) ≤ a) → (a < 0x204 ∨ 0x208 ≤ a) → t.byteAt a = s.byteAt a

/-- What only TINIT, a fault, reset or the host writes: the table, TRDY, ERR, ECMD, and the model's own fields. -/
def SystemSame (s t : State) : Prop :=
  t.tab = s.tab ∧ t.trdy = s.trdy ∧ t.err = s.err ∧ t.ecmd = s.ecmd ∧
  t.host = s.host ∧ t.replies = s.replies ∧ t.resets = s.resets

/-- The three flags are unchanged. -/
def FlagsSame (s t : State) : Prop :=
  t.eq = s.eq ∧ t.inf = s.inf ∧ t.zr = s.zr

/-- The frame of a command that writes the `n` registers from `rd` and no flag. -/
def Frame (rd n : Nat) (s t : State) : Prop :=
  RegsExcept rd n s t ∧ FlagsSame s t ∧ SystemSame s t ∧ BytesExcept rd n s t

/-- The frame of a command that writes the `n` registers from `rd` and flags, apart from the flags themselves. -/
def FrameButFlags (rd n : Nat) (s t : State) : Prop :=
  RegsExcept rd n s t ∧ SystemSame s t ∧ BytesExceptStatus rd n s t

/-! Host accesses. -/

/-- The admitted accesses of R31 with R35 and R36, as arithmetic on R30's map: 1, 2, 4 or 8 aligned bytes in the register
windows or the PARAM constants, or exactly the 4 bytes of CMD, STATUS, ECMD or BITS. -/
def Admissible (addr n : Nat) : Prop :=
  (n = 1 ∨ n = 2 ∨ n = 4 ∨ n = 8) ∧ addr % n = 0 ∧
  (addr + n ≤ 0x200 ∨ (0x300 ≤ addr ∧ addr + n ≤ 0x3C0) ∨
   (n = 4 ∧ (addr = 0x200 ∨ addr = 0x204 ∨ addr = 0x208 ∨ addr = 0x3C0)))

/-- The constants of the PARAM window in the order of R18: P, N, A, B, GX, GY. -/
def params : List Nat :=
  [Config.sm2.field.m, Config.sm2.order.m, Config.sm2.a, Config.sm2.b, Config.sm2.gx, Config.sm2.gy]

/-! The opcode table, on the word's own bits. -/

/-- One row of R56: the operation code, the must-be-zero bit ranges `(hi, lo)`, and the used register fields as
`(lowest bit, span)`. -/
structure OpcodeRow where
  op : Nat
  zero : List (Nat × Nat)
  spans : List (Nat × Nat)
  deriving DecidableEq, Repr

/-- The seventeen rows of R56, in the order of spec/opcode_table.json. -/
def opcodeTable : List OpcodeRow :=
  [⟨0x01, [(11, 1)], [(20, 1), (16, 1), (12, 1)]⟩, ⟨0x02, [(15, 1)], [(20, 1), (16, 1)]⟩,
   ⟨0x03, [(15, 1)], [(20, 1), (16, 1)]⟩, ⟨0x04, [(15, 1)], [(20, 1), (16, 1)]⟩,
   ⟨0x05, [(15, 1)], [(20, 1), (16, 1)]⟩, ⟨0x06, [(15, 0)], [(20, 1), (16, 1)]⟩,
   ⟨0x10, [(11, 3), (0, 0)], [(20, 1), (16, 1), (12, 1)]⟩, ⟨0x11, [(15, 3)], [(20, 1), (16, 1)]⟩,
   ⟨0x12, [(15, 6)], [(20, 2), (16, 1)]⟩, ⟨0x20, [(15, 0)], [(20, 3), (16, 3)]⟩,
   ⟨0x21, [(11, 0)], [(20, 3), (16, 3), (12, 3)]⟩, ⟨0x22, [(11, 3)], [(20, 3), (16, 3), (12, 2)]⟩,
   ⟨0x23, [(15, 0)], [(20, 2), (16, 3)]⟩, ⟨0x30, [(15, 0)], [(20, 2), (16, 1)]⟩,
   ⟨0x31, [(11, 0)], [(20, 2), (16, 1), (12, 2)]⟩, ⟨0x32, [(7, 0)], [(20, 2), (16, 1), (12, 1), (8, 2)]⟩,
   ⟨0x40, [(23, 0)], []⟩]

/-- The row whose operation code the word carries (R58). -/
def rowOf (cw : CmdWord) : Option OpcodeRow :=
  opcodeTable.find? fun r => r.op == bits cw.toNat 31 24

/-- Some must-be-zero bit of the row is set in the word (R57). -/
def reservedSet (r : OpcodeRow) (cw : CmdWord) : Bool :=
  r.zero.any fun p => bits cw.toNat p.1 p.2 != 0

/-- Some used register group of the row runs past `R[15]` (R54). -/
def groupPastEnd (r : OpcodeRow) (cw : CmdWord) : Bool :=
  r.spans.any fun p => 15 < bits cw.toNat (p.1 + 3) p.1 + p.2 - 1

/-- `Sel(j, idx)` of R88 and R112 as a plain look-up, where the machine scans: `TAB[j][idx]` if `1 <= idx <= 64`, else
`(0, 0)`. -/
def entryOf (t : Table) (j idx : Nat) : Affine :=
  if h : j < 37 ∧ 1 ≤ idx ∧ idx ≤ 64 then
    have hi : idx - 1 < 64 := by omega
    ⟨((t[j]'h.1)[idx - 1]'hi).x.toNat, ((t[j]'h.1)[idx - 1]'hi).y.toNat⟩
  else ⟨0, 0⟩

/-! The loops and the table of the scalar multipliers, as recurrences over any `CURVE` (R1). -/

/-- R112's fixed-base loop for the scalar `k'` over the table `t` ends in `p = (acc, nz)`: the start from the entry for digit
0, then for `i = 1` to 36 the mixed addition of the entry that digit `i` selects. -/
def FixedBaseLoop (c : Config.Params) (t : Table) (k' : Nat) (p : Jac × Bool) : Prop :=
  let e := c.field
  let digit := fun i => booth k' 7 i
  let start := entryOf t 0 (digit 0).2
  ∃ (acc : Nat → Jac) (nz : Nat → Bool),
    acc 0 = ⟨start.x, if (digit 0).1 then (e.m - start.y % e.m) % e.m else start.y, e.one⟩ ∧
    nz 0 = ((digit 0).2 != 0) ∧
    (∀ i, 1 ≤ i → i ≤ 36 →
      acc i = addMixed e (acc (i - 1)) (entryOf t i (digit i).2) (digit i).1 ((digit i).2 != 0) (nz (i - 1)) ∧
      nz i = (nz (i - 1) || (digit i).2 != 0)) ∧
    p = (acc 36, nz 36)

/-- R115's variable-base loop for the scalar `k'` and the point `(x, y)` ends in `p = (acc, nz)`: the start from the top
digit, then for `i = 50` down to 0 five doublings, the selected and conditionally negated addend, the doubling in place of the
sum where `Add` reports equal operands (the lines `d` and `u1`, 90_conflicts.md C8), the accumulator kept for a zero digit,
the addend taken while nothing has been added. The entries selected are those of R114's table. -/
def VariableBaseLoop (c : Config.Params) (k' x y : Nat) (p : Jac × Bool) : Prop :=
  let e := c.field
  let digit := fun i => booth k' 5 i
  let sel := varSelect (varTable c x y)
  ∃ (acc : Nat → Jac) (nz : Nat → Bool),
    acc 51 = sel (digit 51).2 ∧ nz 51 = ((digit 51).2 != 0) ∧
    (∀ i, i ≤ 50 →
      let a := dbl e (dbl e (dbl e (dbl e (dbl e (acc (i + 1))))))
      let t0 := sel (digit i).2
      let t : Jac := ⟨t0.x, if (digit i).1 then (e.m - t0.y % e.m) % e.m else t0.y, t0.z⟩
      let u1 := if (add e a t).2 then dbl e a else (add e a t).1
      let u2 := if (digit i).2 ≠ 0 then u1 else a
      acc i = (if nz (i + 1) then u2 else t) ∧ nz i = (nz (i + 1) || (digit i).2 != 0)) ∧
    p = (acc 0, nz 0)

/-- R136's construction gives the table `t`: the rows built from the generator by doubling and addition, each entry the
normalised triple of its row doubled 7 times per column. -/
def BuiltFromRows (c : Config.Params) (t : Table) : Prop :=
  let e := c.field
  ∃ row : Nat → Jac,
    row 1 = ⟨montMul e c.gx e.rr, montMul e c.gy e.rr, e.one⟩ ∧
    (∀ v, 1 ≤ v → row (2 * v) = dbl e (row v) ∧ row (2 * v + 1) = (add e (row (2 * v)) (row 1)).1) ∧
    ∀ j v (hj : j < 37) (hv : v < 64),
      let p := dblTimes e (row (v + 1)) (7 * j)
      let zi := montInv e p.z
      (t[j]'hj)[v].x.toNat = montMul e p.x (montMul e zi zi) ∧
      (t[j]'hj)[v].y.toNat = montMul e p.y (montMul e (montMul e zi zi) zi)

/-! What a triple represents. -/

/-- The standard-form residue of a Montgomery-form coordinate, `MontMul(a, 1)` in the residue ring (R20). -/
def std (e : Config.Engine) (a : Nat) : ZMod e.m :=
  (a : ZMod e.m) * e.rinv

/-- R20: the triple represents the affine point `(x, y)`: `Z` is invertible, `x = X / Z^2` and `y = Y / Z^3`. For a prime
modulus "invertible" is "`Z mod P != 0`". -/
def Represents (e : Config.Engine) (p : Jac) (x y : ZMod e.m) : Prop :=
  IsUnit (std e p.z) ∧ std e p.x = x * std e p.z ^ 2 ∧ std e p.y = y * std e p.z ^ 3

end Sys2Proof.Safety
end

