-- ==== Sys2Proof/Certificates/Slice0/Obligations.lean ====
section
/-! DEFINITION. The statements for the provers. -/

open Sys2Proof Sys2Proof.Machine Sys2Proof.Safety

/-! Reset, the invariant, and the rules about every step. -/

/-- R166 whole: after reset STATUS and ECMD are zero; the constants read the same in every state; no step but a reset clears
TRDY or ERR. -/
def Obligations.ResetAloneClearsStatus : Prop :=
  (State.reset.statusWord = 0 ∧ State.reset.ecmd = 0) ∧
  (∀ (s : State) rest, s.host = .reset :: rest →
    ∃ t, step s = .next t ∧ t.statusWord = 0 ∧ t.ecmd = 0 ∧ t.host = rest) ∧
  (∀ (s : State) k v t, params[k]? = some v → t < 32 →
    s.byteAt (0x300 + 32 * k + t) = some (BitVec.ofNat 8 (v / 256 ^ (31 - t)))) ∧
  (∀ s : State, memRead s 0x3C0 4 = some 0x100) ∧
  (∀ s t : State, step s = .next t → s.host.head? ≠ some .reset →
    (s.trdy = true → t.trdy = true) ∧ (s.err ≠ 0 → t.err = s.err))

/-- The machine invariant holds right after reset. -/
def Obligations.ResetHasInvariant : Prop :=
  Inv State.reset

/-- R15, R22, R146: every step keeps the machine invariant, from every state that has it. -/
def Obligations.StepKeepsInvariant : Prop :=
  ∀ s t : State, Inv s → step s = .next t → Inv t

/-- R22: once the table is built no step but a reset changes it, and while it is not built a step that changes it builds
it whole. -/
def Obligations.TableIsWrittenOnceBetweenResets : Prop :=
  ∀ s t : State, step s = .next t → s.host.head? ≠ some .reset →
    (s.trdy = true → t.tab = s.tab ∧ t.trdy = true) ∧
    (s.trdy = false → t.tab = s.tab ∧ t.trdy = false ∨ t.tab = baseTable Config.sm2 ∧ t.trdy = true)

/-- R165 with U5 (93_implementation_defined.md): while `TRDY = 0` the content of the table cannot be observed: two states
that differ only in it answer the same registers, STATUS, ECMD and replies, and the same table once TINIT has built it. -/
def Obligations.UnbuiltTableIsUnobservable : Prop :=
  ∀ (s : State) (tab' : Table) (t : State), s.trdy = false → step s = .next t →
    ∃ t', step { s with tab := tab' } = .next t' ∧ t'.regs = t.regs ∧ t'.statusWord = t.statusWord ∧
      t'.ecmd = t.ecmd ∧ t'.host = t.host ∧ t'.replies = t.replies ∧ t'.resets = t.resets ∧
      (t.trdy = true → t'.tab = t.tab)

/-- R14, R16: each flag is written only by the commands R14 names for it. -/
def Obligations.FlagsAreWrittenOnlyByTheirCommands : Prop :=
  ∀ (i : Instr) (s t : State), exec i s = .next t →
    (t.eq ≠ s.eq → ∃ rd ra rb, i = .padd rd ra rb) ∧
    (t.inf ≠ s.inf → (∃ rd ra, i = .paff rd ra) ∨ (∃ rd ra, i = .bmul rd ra) ∨ (∃ rd ra rb, i = .smul rd ra rb) ∨
      ∃ rd ra rb rc, i = .cmul rd ra rb rc) ∧
    (t.zr ≠ s.zr → (∃ m rd ra, i = .minv m rd ra) ∨ ∃ rd ra, i = .kinv rd ra) ∧
    (t.trdy ≠ s.trdy → i = .tinit)

/-- A step stops only on a host access that the aperture does not admit (R37; log 6), and never with a fault (log 19). -/
def Obligations.StepStopsOnlyOnABusError : Prop :=
  ∀ s : State, (∃ t, step s = .next t) ∨
    ∃ addr n rest, ¬ Admissible addr n ∧ step s = .refused (.busError addr n) ∧
      (s.host = .read addr n :: rest ∨ ∃ v, s.host = .write addr n v :: rest)

/-- A step takes the oldest pending host action and nothing else; with none pending the state stays (R40, R158). The queue of
pending actions is the model's own field (log 4). -/
def Obligations.StepTakesTheOldestHostAction : Prop :=
  (∀ s : State, s.host = [] → step s = .next s) ∧
  (∀ (s : State) a rest, s.host = a :: rest → step s = hostStep a { s with host := rest })

/-- R51, R52: a step on the host's write of a word to CMD issues that word, whatever it is, and so does a step on a word that
withFetchWord places; with no fault latched a word that decodes runs its command, and a word that does not raises ILLOP or
RSVD for it (R148 checks 1 and 2), changing ERR and ECMD only. That the write is the oldest pending action is the model's form
of "the host writes it" (log 4). -/
def Obligations.StepRunsTheDecodedCommand : Prop :=
  (∀ (s : State) (v : BusWord) rest, s.host = .write 0x200 4 v :: rest →
    let cw : CmdWord := v.setWidth 32
    let s' := { s with host := rest }
    step s = issue cw s' ∧
    (s.err = 0 →
      (∀ i, decode cw = .ok i → step s = exec i s') ∧
      (decode cw = .error .illop → step s = .next { s' with err := 1, ecmd := cw }) ∧
      (decode cw = .error .rsvd → step s = .next { s' with err := 2, ecmd := cw }))) ∧
  (∀ (s : State) nbits w, step (s.withFetchWord nbits w) = issue (BitVec.ofNat 32 (w % 2 ^ nbits)) s) ∧
  (∀ (s : State) nbits w i, s.err = 0 → decodeTableWord nbits w = some i → step (s.withFetchWord nbits w) = exec i s)

/-! Encoding. -/

/-- Decoding the encoding of a command gives the command back, for every command with every operand. -/
def Obligations.DecodeInvertsEncode : Prop :=
  ∀ i : Instr, decode (encode i) = .ok i

/-- Every word that decodes is the encoding of what it decodes to: each command has one word. -/
def Obligations.EncodeInvertsDecode : Prop :=
  ∀ (cw : CmdWord) (i : Instr), decode cw = .ok i → encode i = cw

/-- R57: a word is ILLOP exactly when its operation code is in no row, and RSVD exactly when it is in a row one of whose
must-be-zero bits is set. -/
def Obligations.DecodeRejectsExactlyTheReservedWords : Prop :=
  ∀ cw : CmdWord,
    (decode cw = .error .illop ↔ rowOf cw = none) ∧
    (decode cw = .error .rsvd ↔ ∃ r, rowOf cw = some r ∧ reservedSet r cw = true)

/-- Words written out from the encoding lines of the command rules decode to the commands they stand for. -/
def Obligations.SampleWordsDecode : Prop :=
  decode 0b00000001001000000001000000000000 = .ok (.mmul .p 2 0 1) ∧
  decode 0b00010000011010010110000000000100 = .ok (.cmov .eq 6 9 6) ∧
  decode 0b00010010010000000000000000100100 = .ok (.tsel 4 0 36) ∧
  decode 0b00100010110100001110000000000110 = .ok (.paddm true true false 13 0 14) ∧
  decode 0b00110010011000000001001000000000 = .ok (.cmul 6 0 1 2) ∧
  decode 0b01000000000000000000000000000000 = .ok .tinit ∧
  decode 0b00000000000000000000000000000000 = .error .illop ∧
  decode 0b00000110000100000000000000000001 = .error .rsvd

/-! Faults. -/

/-- R147, R148 whole: the checks in their fixed order on the word's own bits; a failing check writes its code to ERR and the
word to ECMD and nothing else, and answers a next state. -/
def Obligations.ChecksAreMadeInFixedOrder : Prop :=
  ∀ (cw : CmdWord) (s : State),
    let fault := fun code : BitVec 8 => (.next { s with err := code, ecmd := cw } : Host.Outcome State Fault Refusal)
    let op := bits cw.toNat 31 24
    issue cw s =
      if s.err ≠ 0 then .next s
      else match rowOf cw with
        | none => fault 1
        | some r =>
          if reservedSet r cw then fault 2
          else if groupPastEnd r cw then fault 3
          else if op = 0x12 ∧ 36 < bits cw.toNat 5 0 then fault 4
          else if (op = 0x12 ∨ op = 0x30 ∨ op = 0x32) ∧ s.trdy = false then fault 5
          else if op = 0x40 ∧ s.trdy = true then fault 6
          else match decode cw with
            | .ok i => exec i s
            | .error _ => fault 0

/-- Where the commands trap (R148): REGIDX, then COL, then NOTAB or TABDONE, each leaving all but ERR and ECMD as it was.
That ECMD is the command's own encoding is log 13. -/
def Obligations.CommandsTrapWhereTheRulesSay : Prop :=
  ∀ (i : Instr) (s : State),
    let fault := fun code : BitVec 8 => (.next { s with err := code, ecmd := encode i } : Host.Outcome State Fault Refusal)
    (i.groupsOk = false → exec i s = fault 3) ∧
    (i.groupsOk = true → i.columnOk = false → exec i s = fault 4) ∧
    (i.wf = true → s.trdy = false →
      ((∃ rd ra col, i = .tsel rd ra col) ∨ (∃ rd ra, i = .bmul rd ra) ∨ ∃ rd ra rb rc, i = .cmul rd ra rb rc) →
      exec i s = fault 5) ∧
    (i = .tinit → s.trdy = true → exec i s = fault 6)

/-- R149 whole: while a fault is latched a word written to CMD changes nothing, and host accesses of the register window
work as if none were. -/
def Obligations.FaultsAreSticky : Prop :=
  (∀ (s : State) (v : BusWord) rest, s.err ≠ 0 → s.host = .write 0x200 4 v :: rest →
    step s = .next { s with host := rest }) ∧
  (∀ (s : State) addr n (e : BitVec 8) (c : CmdWord), addr + n ≤ 0x200 →
    memRead { s with err := e, ecmd := c } addr n = memRead s addr n) ∧
  (∀ (s : State) addr n (v : BusWord) (e : BitVec 8) (c : CmdWord) t, addr + n ≤ 0x200 → memWrite s addr n v = .next t →
    memWrite { s with err := e, ecmd := c } addr n v = .next { t with err := e, ecmd := c })

/-- R145: whether a word faults, and with which code, does not depend on any register, flag or table entry: states that
agree on TRDY, ERR and ECMD fault alike. -/
def Obligations.FaultsDoNotDependOnData : Prop :=
  ∀ (cw : CmdWord) (s s' t t' : State), s'.trdy = s.trdy → s'.err = s.err → s'.ecmd = s.ecmd →
    issue cw s = .next t → issue cw s' = .next t' → t'.err = t.err ∧ t'.ecmd = t.ecmd

/-! The aperture. -/

/-- R30, R31, R35, R36: the map admits exactly the admissible accesses. -/
def Obligations.ApertureAdmitsExactlyTheMap : Prop :=
  ∀ addr n, (admitted addr n).isSome = true ↔ Admissible addr n

/-- R31, R37: an admissible read returns a value and changes nothing else (the model's record of replies, log 5, apart); an
inadmissible read or write is refused as a bus error (log 6). -/
def Obligations.HostAccessesAnswerOrAreRefused : Prop :=
  (∀ (s : State) addr n rest, Admissible addr n → s.host = .read addr n :: rest →
    ∃ v, memRead { s with host := rest } addr n = some v ∧
      step s = .next { s with host := rest, replies := s.replies ++ [v] }) ∧
  (∀ (s : State) addr n rest, ¬ Admissible addr n → s.host = .read addr n :: rest →
    step s = .refused (.busError addr n)) ∧
  (∀ (s : State) addr n v rest, ¬ Admissible addr n → s.host = .write addr n v :: rest →
    step s = .refused (.busError addr n))

/-- R31, R34: an admissible read of the register window or the PARAM window returns the big-endian integer of the bytes. -/
def Obligations.ReadsAreBigEndian : Prop :=
  ∀ (s : State) addr n, Admissible addr n →
    ∃ b : Nat → Byte, (∀ t, t < n → s.byteAt (addr + t) = some (b t)) ∧
      (memRead s addr n).map BitVec.toNat = some (∑ t ∈ Finset.range n, (b t).toNat * 256 ^ (n - 1 - t))

/-- R33 whole: byte `32*i + t` is bits `255-8t..248-8t` of `R[i]`; a host write replaces only the bytes it covers; an 8-byte
read is a limb. -/
def Obligations.RegisterWindowIsBigEndian : Prop :=
  (∀ (s : State) i t, i < 16 → t < 32 →
    s.byteAt (32 * i + t) = some (BitVec.ofNat 8 (bits (s.val i) (255 - 8 * t) (248 - 8 * t)))) ∧
  (∀ (s : State) addr n v, Admissible addr n → addr + n ≤ 0x200 →
    ∃ t, memWrite s addr n v = .next t ∧
      (∀ k, k < n → t.byteAt (addr + k) = some (BitVec.ofNat 8 (v.toNat / 256 ^ (n - 1 - k)))) ∧
      (∀ a, (a < addr ∨ addr + n ≤ a) → t.byteAt a = s.byteAt a) ∧ FlagsSame s t ∧ SystemSame s t) ∧
  (∀ (s : State) i t, i < 16 → t < 4 →
    memRead s (32 * i + 8 * t) 8 = some (BitVec.ofNat 64 (bits (s.val i) (64 * (3 - t) + 63) (64 * (3 - t)))))

/-- R34, R40: a read returns what the latest write left: the same width gives the written value, one byte at the same offset
its most significant byte. -/
def Obligations.ReadReturnsTheLatestWrite : Prop :=
  ∀ (s : State) addr n (v : BusWord), Admissible addr n → addr + n ≤ 0x200 →
    ∃ t, memWrite s addr n v = .next t ∧
      memRead t addr n = some (BitVec.ofNat 64 (v.toNat % 256 ^ n)) ∧
      memRead t addr 1 = some (BitVec.ofNat 64 (v.toNat / 256 ^ (n - 1) % 256))

/-- R14, R15, R18, R32: an admissible host write to STATUS, ECMD, PARAM or BITS changes nothing. -/
def Obligations.ReadOnlyItemsIgnoreWrites : Prop :=
  ∀ (s : State) addr n (v : BusWord), Admissible addr n → 0x204 ≤ addr → memWrite s addr n v = .next s

/-- R13, R14, R15: STATUS has TRDY, EQ, INF, ZR in bits 0 to 3, ERR in bits 15:8 and zeros elsewhere, and is what a host
read of 0x204 returns; a read of 0x208 returns ECMD; a read of CMD returns 0. -/
def Obligations.StatusHasItsLayout : Prop :=
  ∀ s : State,
    (∀ k, s.statusWord.getLsbD k =
      if k = 0 then s.trdy else if k = 1 then s.eq else if k = 2 then s.inf else if k = 3 then s.zr
      else if 8 ≤ k ∧ k < 16 then s.err.getLsbD (k - 8) else false) ∧
    memRead s 0x204 4 = some (s.statusWord.setWidth 64) ∧
    memRead s 0x208 4 = some (s.ecmd.setWidth 64) ∧
    memRead s 0x200 4 = some 0

/-! The multiplier and reducer. -/

/-- R2: the constants of both engines are the ones R2 defines from the moduli, and the six parameters satisfy the
arithmetic conditions of R1. -/
def Obligations.CurveConstantsAreConsistent : Prop :=
  Config.sm2.Consistent

/-- R70 whole, for any engine whose constants are the derived ones, both engines of this hardware among them:
`MontMul_M(a, b) = (a * b * RINV_M) mod M` with `RINV_M` the inverse of 2^256, canonical, and multiplicative on Montgomery
forms. -/
def Obligations.MontMulIsTheMontgomeryProduct : Prop :=
  (∀ m : ModSel, (engineOf Config.sm2 m).Derived) ∧
  ∀ (e : Config.Engine) (a b : Nat), e.Derived → a < 2 ^ 256 → b < 2 ^ 256 →
    e.rinv < e.m ∧ e.rinv * 2 ^ 256 % e.m = 1 ∧
    montMul e a b = a * b * e.rinv % e.m ∧ montMul e a b < e.m ∧
    montMul e a b * 2 ^ 256 % e.m = a * b % e.m ∧
    ∀ u v, montMul e (u * 2 ^ 256 % e.m) (v * 2 ^ 256 % e.m) = u * v * 2 ^ 256 % e.m

/-- R76 (a) to (f): the laws of the arithmetic. -/
def Obligations.MontMulLaws : Prop :=
  ∀ (e : Config.Engine) (a b c : Nat), e.Derived →
    montMul e a b = montMul e b a ∧
    montMul e a b = montMul e (a % e.m) (b % e.m) ∧
    montMul e a e.one = a % e.m ∧
    montMul e a 1 = a * e.rinv % e.m ∧
    montMul e a e.rr = a * 2 ^ 256 % e.m ∧
    montMul e (montMul e a b) c = montMul e a (montMul e b c) ∧
    montMul e a 0 = 0 ∧ montMul e a e.m = 0

/-- R71 whole: the division of the Montgomery reduction is exact; the quotient is below `2^256 + M`, so at most two
subtractions of `M` reduce it; for a product below `2^256 * M` (as with a canonical operand) it is below `2 * M` and one
conditional subtraction does; the value is R70's. -/
def Obligations.MontgomeryReductionComputesMontMul : Prop :=
  ∀ (e : Config.Engine) (a b : Nat), e.Derived → a < 2 ^ 256 → b < 2 ^ 256 →
    redcQuotient e (a * b) * 2 ^ 256 = a * b + a * b % 2 ^ 256 * e.mprime % 2 ^ 256 * e.m ∧
    redcQuotient e (a * b) < 2 ^ 256 + e.m ∧ redcQuotient e (a * b) < 3 * e.m ∧
    (a < e.m ∨ b < e.m → a * b < 2 ^ 256 * e.m) ∧
    (a * b < 2 ^ 256 * e.m → redcQuotient e (a * b) < 2 * e.m ∧
      redcMul e a b = if e.m ≤ redcQuotient e (a * b) then redcQuotient e (a * b) - e.m else redcQuotient e (a * b)) ∧
    redcMul e a b = montMul e a b

/-- R77 whole: every 64-bit step divides exactly, four of them give the quotient of R71, and for `P` the multiplier is 1,
so that `q` is the low limb. -/
def Obligations.WordSerialReductionAgrees : Prop :=
  Config.sm2.field.k0 = 1 ∧ ∀ (e : Config.Engine) (a b : Nat), e.Derived →
    (∀ t, redcStep e t * 2 ^ 64 = t + t % 2 ^ 64 * e.k0 % 2 ^ 64 * e.m) ∧
    redcStep e (redcStep e (redcStep e (redcStep e (a * b)))) = redcQuotient e (a * b) ∧
    redcWordsMul e a b = montMul e a b

/-- R72: MMUL completes in every state, its result is the canonical Montgomery product, and it changes nothing else. -/
def Obligations.MmulLeavesTheProduct : Prop :=
  ∀ (m : ModSel) (rd ra rb : Reg) (s : State), ∃ t, exec (.mmul m rd ra rb) s = .next t ∧
    t.val rd < (engineOf Config.sm2 m).m ∧
    t.val rd * 2 ^ 256 % (engineOf Config.sm2 m).m = s.val ra * s.val rb % (engineOf Config.sm2 m).m ∧
    Frame rd 1 s t

/-- R73, R74, R75: MSQR, MRED and MENC complete in every state, with the square, the value out of and into the Montgomery
domain as results, and change nothing else. -/
def Obligations.MsqrMredMencLeaveTheirResults : Prop :=
  ∀ (m : ModSel) (rd ra : Reg) (s : State),
    let md := (engineOf Config.sm2 m).m
    (∃ t, exec (.msqr m rd ra) s = .next t ∧ t.val rd < md ∧
      t.val rd * 2 ^ 256 % md = s.val ra * s.val ra % md ∧ Frame rd 1 s t) ∧
    (∃ t, exec (.mred m rd ra) s = .next t ∧ t.val rd < md ∧ t.val rd * 2 ^ 256 % md = s.val ra % md ∧ Frame rd 1 s t) ∧
    (∃ t, exec (.menc m rd ra) s = .next t ∧ t.val rd = s.val ra * 2 ^ 256 % md ∧ Frame rd 1 s t)

/-- R73 corner cases: entering the Montgomery domain and leaving it again, in either order, leaves the operand reduced. -/
def Obligations.MencAndMredAreInverse : Prop :=
  ∀ (m : ModSel) (rd ra : Reg) (s t u : State),
    (exec (.menc m rd ra) s = .next t → exec (.mred m rd rd) t = .next u → u.val rd = s.val ra % (engineOf Config.sm2 m).m) ∧
    (exec (.mred m rd ra) s = .next t → exec (.menc m rd rd) t = .next u → u.val rd = s.val ra % (engineOf Config.sm2 m).m)

/-! The inverse engine. -/

/-- R130, R131: MINV completes in every state; its result is `RR * (a mod M)^(M-2) mod M`, ZR says whether the operand is
congruent to zero, in which case the result is 0, and it changes nothing else. -/
def Obligations.MinvLeavesTheFixedPower : Prop :=
  ∀ (m : ModSel) (rd ra : Reg) (s : State),
    let e := engineOf Config.sm2 m
    ∃ t, exec (.minv m rd ra) s = .next t ∧
      t.val rd = e.rr * (s.val ra % e.m) ^ (e.m - 2) % e.m ∧
      (t.zr = true ↔ s.val ra % e.m = 0) ∧ (s.val ra % e.m = 0 → t.val rd = 0) ∧
      t.eq = s.eq ∧ t.inf = s.inf ∧ FrameButFlags rd 1 s t

/-- R132: KINV completes in every state; its result is `k^(N-2) mod N`, ZR says whether `k` is congruent to zero, in which
case the result is 0, and it changes nothing else. -/
def Obligations.KinvLeavesTheFixedPower : Prop :=
  ∀ (rd ra : Reg) (s : State),
    let md := Config.sm2.order.m
    ∃ t, exec (.kinv rd ra) s = .next t ∧
      t.val rd = s.val ra ^ (md - 2) % md ∧
      (t.zr = true ↔ s.val ra % md = 0) ∧ (s.val ra % md = 0 → t.val rd = 0) ∧
      t.eq = s.eq ∧ t.inf = s.inf ∧ FrameButFlags rd 1 s t

/-- R130, R132: for an engine with a prime modulus the fixed powers are inverses: `MontMul(a, MontInv(a)) = ONE` and
`(k * KINV(k)) mod M = 1` for operands not congruent to zero. -/
def Obligations.FixedPowersAreInverses : Prop :=
  ∀ (e : Config.Engine) (a : Nat), Nat.Prime e.m → e.m < 2 ^ 256 → e.rinv * 2 ^ 256 % e.m = 1 →
    e.rr = 2 ^ 256 * 2 ^ 256 % e.m → e.one = 2 ^ 256 % e.m → a % e.m ≠ 0 →
    montMul e a (montInv e a) = e.one ∧ a * kinvValue e a % e.m = 1

/-- R133: the chain for `P - 2` computes the inverse of R130 for every operand. -/
def Obligations.FieldChainComputesMontInv : Prop :=
  ∀ a : Nat, chainP Config.sm2.field a = montInv Config.sm2.field a

/-- R135: the chain for `N - 2` computes the inverse of R130 for every operand. -/
def Obligations.OrderChainComputesMontInv : Prop :=
  ∀ a : Nat, chainN Config.sm2.order a = montInv Config.sm2.order a

/-! Conditional move, conditional negation, table select. -/

/-- R85, R86: CMOV completes in every state; its result is the masked choice of R86 under the condition of R85's table, and
it changes nothing else. -/
def Obligations.CmovMovesByMask : Prop :=
  ∀ (cs : Cond) (rd ra rb : Reg) (s : State),
    let c := match cs with
      | .f => false
      | .t => true
      | .eq => s.eq
      | .inf => s.inf
    let mask : Word := if c then BitVec.ofNat 256 (2 ^ 256 - 1) else 0
    ∃ t, exec (.cmov cs rd ra rb) s = .next t ∧
      t.reg rd = (s.reg ra &&& mask) ||| (s.reg rb &&& ~~~mask) ∧ Frame rd 1 s t

/-- R85, R87: CNEG completes in every state; under a true condition its result is the canonical negative, under a false one
the operand bit for bit, and it changes nothing else. -/
def Obligations.CnegNegatesUnderItsCondition : Prop :=
  ∀ (cs : Cond) (m : ModSel) (rd ra : Reg) (s : State),
    let c := match cs with
      | .f => false
      | .t => true
      | .eq => s.eq
      | .inf => s.inf
    ∃ t, exec (.cneg cs m rd ra) s = .next t ∧
      (c = true → t.val rd < (engineOf Config.sm2 m).m ∧ (t.val rd + s.val ra) % (engineOf Config.sm2 m).m = 0) ∧
      (c = false → t.reg rd = s.reg ra) ∧ Frame rd 1 s t

/-- R88: with the table built and the operands legal TSEL completes; its result is the entry that the whole register value
selects, (0, 0) for a value outside 1..64, and it changes nothing else. -/
def Obligations.TselSelectsTheEntry : Prop :=
  ∀ (rd ra : Reg) (col : Fin 64) (s : State) (hc : col.val < 37), rd.val ≤ 14 → s.trdy = true →
    ∃ t, exec (.tsel rd ra col) s = .next t ∧
      (∀ v (hv : v < 64), s.val ra = v + 1 →
        t.reg rd = (s.tab[col.val]'hc)[v].x ∧ t.reg (rd.val + 1) = (s.tab[col.val]'hc)[v].y) ∧
      (s.val ra = 0 ∨ 64 < s.val ra → t.reg rd = 0 ∧ t.reg (rd.val + 1) = 0) ∧
      Frame rd 2 s t

/-- R60: `MOV rd, ra` copies one register bit for bit, and `FNEG`, `NNEG` negate modulo `P` and `N`. -/
def Obligations.PseudoCommandsCopyAndNegate : Prop :=
  ∀ (rd ra : Reg) (s : State),
    (∃ t, exec (Instr.mov rd ra) s = .next t ∧ t.reg rd = s.reg ra) ∧
    (∃ t, exec (Instr.fneg rd ra) s = .next t ∧ (t.val rd + s.val ra) % Config.sm2.field.m = 0) ∧
    (∃ t, exec (Instr.nneg rd ra) s = .next t ∧ (t.val rd + s.val ra) % Config.sm2.order.m = 0)

/-! The point engine. -/

/-- R100: PDBL on groups that fit completes with the triple of R96 in its destination, canonical, and changes nothing
else. -/
def Obligations.PdblLeavesTheDouble : Prop :=
  ∀ (rd ra : Reg) (s : State), rd.val ≤ 13 → ra.val ≤ 13 →
    ∃ t, exec (.pdbl rd ra) s = .next t ∧ t.triple rd = dbl Config.sm2.field (s.triple ra) ∧
      t.val rd < Config.sm2.field.m ∧ t.val (rd.val + 1) < Config.sm2.field.m ∧ t.val (rd.val + 2) < Config.sm2.field.m ∧
      Frame rd 3 s t

/-- R101: PADD on groups that fit completes with the triple and the equality bit of R97 in its destination and in EQ, and
changes nothing else. -/
def Obligations.PaddLeavesTheSum : Prop :=
  ∀ (rd ra rb : Reg) (s : State), rd.val ≤ 13 → ra.val ≤ 13 → rb.val ≤ 13 →
    ∃ t, exec (.padd rd ra rb) s = .next t ∧
      t.triple rd = (add Config.sm2.field (s.triple ra) (s.triple rb)).1 ∧
      t.eq = (add Config.sm2.field (s.triple ra) (s.triple rb)).2 ∧
      t.inf = s.inf ∧ t.zr = s.zr ∧ FrameButFlags rd 3 s t

/-- R102 with R98: PADDM on groups that fit completes; with `pnz = 0` it leaves the addend with `Z = ONE_P`, else with
`qnz = 0` the accumulator bit for bit, else the sum of R98; `s` negates the addend's y; it changes nothing else. -/
def Obligations.PaddmSelectsItsResult : Prop :=
  ∀ (pnz qnz sg : Bool) (rd ra rb : Reg) (s : State), rd.val ≤ 13 → ra.val ≤ 13 → rb.val ≤ 14 →
    let y2 := if sg then (Config.sm2.field.m - s.val (rb.val + 1) % Config.sm2.field.m) % Config.sm2.field.m
      else s.val (rb.val + 1)
    ∃ t, exec (.paddm pnz qnz sg rd ra rb) s = .next t ∧
      (pnz = false → t.triple rd = ⟨s.val rb, y2, Config.sm2.field.one⟩) ∧
      (pnz = true → qnz = false → t.triple rd = s.triple ra) ∧
      (pnz = true → qnz = true → t.triple rd = addMixedSum Config.sm2.field (s.triple ra) ⟨s.val rb, y2⟩) ∧
      Frame rd 3 s t

/-- R103: PAFF on groups that fit completes with the pair and the bit of R99, canonical; with `Z mod P = 0` that is (0, 0)
and `INF = 1` whatever X and Y hold; it changes nothing else. -/
def Obligations.PaffLeavesTheAffinePair : Prop :=
  ∀ (rd ra : Reg) (s : State), rd.val ≤ 14 → ra.val ≤ 13 →
    ∃ t, exec (.paff rd ra) s = .next t ∧
      t.pair rd = (toAffine Config.sm2.field (s.triple ra)).1 ∧
      t.val rd < Config.sm2.field.m ∧ t.val (rd.val + 1) < Config.sm2.field.m ∧
      (t.inf = true ↔ s.val (ra.val + 2) % Config.sm2.field.m = 0) ∧
      (s.val (ra.val + 2) % Config.sm2.field.m = 0 → t.reg rd = 0 ∧ t.reg (rd.val + 1) = 0) ∧
      t.eq = s.eq ∧ t.zr = s.zr ∧ FrameButFlags rd 2 s t

/-- R96: `Dbl` of a triple that represents `(x, y)`, with `2y` invertible, represents the double of `(x, y)` on the curve
with `a = -3`: the tangent with slope `l`, `2*y*l = 3*x^2 - 3`. -/
def Obligations.DblRepresentsTheDouble : Prop :=
  ∀ (e : Config.Engine) (p : Jac) (x y l : ZMod e.m), e.Derived → Represents e p x y → IsUnit (2 * y) →
    2 * y * l = 3 * x ^ 2 - 3 →
    Represents e (dbl e p) (l ^ 2 - 2 * x) (l * (x - (l ^ 2 - 2 * x)) - y)

/-- R97: `Add` of triples that represent points with different x represents their sum, the chord with slope `l`, and reports
them different. -/
def Obligations.AddRepresentsTheSum : Prop :=
  ∀ (e : Config.Engine) (p q : Jac) (x1 y1 x2 y2 l : ZMod e.m), e.Derived → Represents e p x1 y1 → Represents e q x2 y2 →
    IsUnit (x2 - x1) → (x2 - x1) * l = y2 - y1 →
    Represents e (add e p q).1 (l ^ 2 - x1 - x2) (l * (x1 - (l ^ 2 - x1 - x2)) - y1) ∧ (add e p q).2 = false

/-- R97 (a), (b): two representatives of one point give `(0, 0, 0)` and `eq = 1`; opposite points give `Z3 = 0` and
`eq = 0`. -/
def Obligations.AddOfEqualAndOppositePoints : Prop :=
  ∀ (e : Config.Engine) (p q : Jac) (x y : ZMod e.m), e.Derived → Represents e p x y →
    (Represents e q x y → add e p q = (⟨0, 0, 0⟩, true)) ∧
    (Represents e q x (-y) → IsUnit (2 * y) → (add e p q).1.z = 0 ∧ (add e p q).2 = false)

/-- R97 (c): with an operand whose `Z mod P = 0` the sum has `Z3 = 0`, whatever the other operand is. -/
def Obligations.AddOfAnIdentityHasZeroZ : Prop :=
  ∀ (e : Config.Engine) (p q : Jac), e.Derived → p.z % e.m = 0 ∨ q.z % e.m = 0 → (add e p q).1.z = 0

/-- R98: with both flags 1 `AddMixed` of a triple and a Montgomery-form pair with a different x represents the sum
(`s = 0`) or the difference (`s = 1`). -/
def Obligations.AddMixedRepresentsTheSum : Prop :=
  ∀ (e : Config.Engine) (p : Jac) (q : Affine) (sg : Bool) (x1 y1 l : ZMod e.m), e.Derived → Represents e p x1 y1 →
    let x2 := std e q.x
    let y2 := if sg then -std e q.y else std e q.y
    IsUnit (x2 - x1) → (x2 - x1) * l = y2 - y1 →
    Represents e (addMixed e p q sg true true) (l ^ 2 - x1 - x2) (l * (x1 - (l ^ 2 - x1 - x2)) - y1)

/-- R99: `ToAffine` of a triple that represents `(x, y)`, whose Z satisfies Fermat's congruence modulo `M` (as every Z not
congruent to 0 does for a prime modulus), is the canonical pair `(x, y)` in standard form, with `inf = 0`. -/
def Obligations.ToAffineGivesThePoint : Prop :=
  ∀ (e : Config.Engine) (p : Jac) (x y : ZMod e.m), e.Derived → Represents e p x y → p.z ^ (e.m - 1) % e.m = 1 →
    ((toAffine e p).1.x : ZMod e.m) = x ∧ ((toAffine e p).1.y : ZMod e.m) = y ∧
    (toAffine e p).1.x < e.m ∧ (toAffine e p).1.y < e.m ∧ (toAffine e p).2 = false

/-! The scalar multipliers. -/

/-- R110 whole: the window is the `w` bits of the digit position and the bit below them, the sign its top bit, the magnitude
the rounded half, at most `2^(w-1)`, and the digit's value the magnitude with that sign. -/
def Obligations.BoothDigitIsTheRoundedWindow : Prop :=
  ∀ (k w i : Nat), 1 ≤ w →
    let win := k * 2 / 2 ^ (w * i) % 2 ^ (w + 1)
    (∀ t, t ≤ w → win.testBit t = if w * i + t = 0 then false else k.testBit (w * i + t - 1)) ∧
    (booth k w i).1 = win.testBit w ∧
    (booth k w i).2 = (if win.testBit w then 2 ^ (w + 1) - 1 - win else win) / 2 +
      (if win.testBit w then 2 ^ (w + 1) - 1 - win else win) % 2 ∧
    (booth k w i).2 ≤ 2 ^ (w - 1) ∧
    digitValue (booth k w i) = if win.testBit w then -((booth k w i).2 : Int) else (booth k w i).2

/-- R111 (a) to (d): the digits sum to the scalar, every partial sum is `(k mod 2^(wi)) - c_i * 2^(wi)` and lies in its
range, the top digits are non-negative and small, and a zero scalar has zero digits. -/
def Obligations.BoothDigitsSumToTheScalar : Prop :=
  (∀ (k w n : Nat), 1 ≤ w → k < 2 ^ (w * n - 1) →
    ∑ i ∈ Finset.range n, digitValue (booth k w i) * 2 ^ (w * i) = (k : Int)) ∧
  (∀ (k w i : Nat), 1 ≤ w → 1 ≤ i →
    let a := ∑ j ∈ Finset.range i, digitValue (booth k w j) * 2 ^ (w * j)
    a = (k % 2 ^ (w * i) : Int) - (if k.testBit (w * i - 1) then 1 else 0) * 2 ^ (w * i) ∧
    -(2 ^ (w * i - 1) : Int) ≤ a ∧ a < 2 ^ (w * i - 1)) ∧
  (∀ k, k < 2 ^ 256 →
    (∑ i ∈ Finset.range 37, digitValue (booth k 7 i) * 2 ^ (7 * i) = (k : Int)) ∧
    (∑ i ∈ Finset.range 52, digitValue (booth k 5 i) * 2 ^ (5 * i) = (k : Int)) ∧
    (booth k 7 36).1 = false ∧ (booth k 7 36).2 ≤ 16 ∧ (booth k 5 51).1 = false ∧ (booth k 5 51).2 ≤ 2) ∧
  (∀ k w, boothWindow k w 0 % 2 = 0) ∧
  (∀ w i, booth 0 w i = (false, 0))

/-- R112, R113: the fixed-base loop, its start from the entry for digit 0 and its 36 steps in order, each a mixed addition of
the entry its digit selects; with the table built and a destination that fits BMUL completes with the pair of `ToAffine` of
the loop's triple and `INF = inf or (not nz)`; the loop adds something exactly for a scalar not congruent to 0 modulo N, and
else gives (0, 0) and `INF = 1`; BMUL changes nothing else. That the pair is `k' * G` is not stated (log 22). -/
def Obligations.BmulRunsTheFixedBaseLoop : Prop :=
  ∀ (rd ra : Reg) (s : State), rd.val ≤ 14 → s.trdy = true →
    let e := Config.sm2.field
    let k' := s.val ra % Config.sm2.order.m
    let p := baseMulJac Config.sm2 s.tab (s.val ra)
    FixedBaseLoop Config.sm2 s.tab k' p ∧
    (p.2 = false ↔ k' = 0) ∧ (k' = 0 → p.1 = ⟨0, 0, e.one⟩) ∧
    ∃ t, exec (.bmul rd ra) s = .next t ∧
      t.pair rd = (toAffine e p.1).1 ∧ t.inf = ((toAffine e p.1).2 || !p.2) ∧
      (k' = 0 → t.reg rd = 0 ∧ t.reg (rd.val + 1) = 0 ∧ t.inf = true) ∧
      t.eq = s.eq ∧ t.zr = s.zr ∧ FrameButFlags rd 2 s t

/-- R115, R116: the variable-base loop, its start from the top digit and its 51 steps from 50 down to 0, each five doublings,
the selected and conditionally negated addend, the doubling in place of the sum where `Add` reports equal operands, the
accumulator kept for a zero digit, the addend taken while nothing has been added; on groups that fit SMUL completes, whether
the table is built or not, with the pair of `ToAffine` of the loop's triple and `INF = inf or (not nz)`; the loop adds
something exactly for a scalar not congruent to 0 modulo N, and else gives (0, 0) and `INF = 1`; SMUL changes nothing else.
That the pair is `k' * (x, y)` is not stated (log 22). -/
def Obligations.SmulRunsTheVariableBaseLoop : Prop :=
  ∀ (rd ra rb : Reg) (s : State), rd.val ≤ 14 → rb.val ≤ 14 →
    let e := Config.sm2.field
    let k' := s.val ra % Config.sm2.order.m
    let p := varMulJac Config.sm2 (s.val ra) (s.val rb) (s.val (rb.val + 1))
    VariableBaseLoop Config.sm2 k' (s.val rb) (s.val (rb.val + 1)) p ∧
    (p.2 = false ↔ k' = 0) ∧ (k' = 0 → p.1 = ⟨0, 0, 0⟩) ∧
    ∃ t, exec (.smul rd ra rb) s = .next t ∧
      t.pair rd = (toAffine e p.1).1 ∧ t.inf = ((toAffine e p.1).2 || !p.2) ∧
      (k' = 0 → t.reg rd = 0 ∧ t.reg (rd.val + 1) = 0 ∧ t.inf = true) ∧
      t.eq = s.eq ∧ t.zr = s.zr ∧ FrameButFlags rd 2 s t

/-- R117, R118: with the table built and groups that fit CMUL completes with the pair of `ToAffine` of the combined partial
results and `INF = inf`; two scalars congruent to 0 modulo N give (0, 0) and `INF = 1`; it changes nothing else. -/
def Obligations.CmulLeavesTheCombination : Prop :=
  ∀ (rd ra rb rc : Reg) (s : State), rd.val ≤ 14 → rc.val ≤ 14 → s.trdy = true →
    let p1 := baseMulJac Config.sm2 s.tab (s.val ra)
    let p2 := varMulJac Config.sm2 (s.val rb) (s.val rc) (s.val (rc.val + 1))
    let r := toAffine Config.sm2.field (combine Config.sm2.field p1 p2)
    ∃ t, exec (.cmul rd ra rb rc) s = .next t ∧
      t.pair rd = r.1 ∧ t.inf = r.2 ∧
      (s.val ra % Config.sm2.order.m = 0 → s.val rb % Config.sm2.order.m = 0 →
        t.reg rd = 0 ∧ t.reg (rd.val + 1) = 0 ∧ t.inf = true) ∧
      t.eq = s.eq ∧ t.zr = s.zr ∧ FrameButFlags rd 2 s t

/-- R117: with one term absent `Combine` is the other term; with both present it is `Add`, or `Dbl` where `Add` reports equal
operands. -/
def Obligations.CombineFoldsTheSpecialCases : Prop :=
  ∀ (e : Config.Engine) (p q : Jac) (nz : Bool),
    combine e (p, false) (q, nz) = q ∧ combine e (p, true) (q, false) = p ∧
    combine e (p, true) (q, true) = if (add e p q).2 then dbl e p else (add e p q).1

/-- R134 by the construction of R136 (log 9): with TRDY = 0 TINIT completes; it sets TRDY, each entry is the normalised
triple of its row doubled 7 times per column, the rows built from the generator; no register and no flag changes. -/
def Obligations.TinitBuildsTheTable : Prop :=
  ∀ s : State, s.trdy = false →
    ∃ t, exec .tinit s = .next t ∧ t.trdy = true ∧ BuiltFromRows Config.sm2 t.tab ∧
      t.regs = s.regs ∧ FlagsSame s t ∧ t.err = s.err ∧ t.ecmd = s.ecmd ∧
      t.host = s.host ∧ t.replies = s.replies ∧ t.resets = s.resets ∧ BytesExceptStatus 0 0 s t

/-- R114, R115: the per-call table holds the input point in Montgomery form, and its entries follow R114's order of doublings
and additions; a magnitude of 0 or above 16 selects `(0, 0, 0)`. -/
def Obligations.VarTableFollowsItsOrder : Prop :=
  ∀ (c : Config.Params) (x y : Nat),
    let vt := varTable c x y
    vt.length = 16 ∧
    varSelect vt 1 = ⟨montMul c.field x c.field.rr, montMul c.field y c.field.rr, c.field.one⟩ ∧
    (∀ m, 1 ≤ m → m ≤ 8 → varSelect vt (2 * m) = dbl c.field (varSelect vt m)) ∧
    (∀ m, 1 ≤ m → m ≤ 7 → varSelect vt (2 * m + 1) = (add c.field (varSelect vt (2 * m)) (varSelect vt 1)).1) ∧
    (∀ m, m = 0 ∨ 16 < m → varSelect vt m = ⟨0, 0, 0⟩)

/-! The configuration. -/

/-- R1 (`CURVE` is a parameter): the machine executes the rules on its own record, and for an arbitrary record with R1's
arithmetic conditions and R2's constants the rule of every command has its result, its flags and its frame: the two commands
that no constant enters first, then the others in the order of the opcode table. KINV's power is R132's where the radix
satisfies Fermat's congruence modulo `N`, as it does for a prime `N` (log 22). -/
def Obligations.RulesHoldForEveryCurve : Prop :=
  (∀ (i : Instr) (s : State), faultOf i s = none → exec i s = .next (commandRule Config.sm2 i s)) ∧
  ∀ (c : Config.Params) (s : State), c.Consistent →
    let out := fun i => commandRule c i s
    let f := c.field
    let order := c.order.m
    (∀ cs rd ra rb, out (.cmov cs rd ra rb) = commandRule Config.sm2 (.cmov cs rd ra rb) s) ∧
    (∀ rd ra col, out (.tsel rd ra col) = commandRule Config.sm2 (.tsel rd ra col) s) ∧
    (∀ m rd ra rb,
      let md := (engineOf c m).m
      let t := out (.mmul m rd ra rb)
      t.val rd < md ∧ t.val rd * 2 ^ 256 % md = s.val ra * s.val rb % md ∧ Frame rd 1 s t) ∧
    (∀ m rd ra,
      let md := (engineOf c m).m
      let t := out (.msqr m rd ra)
      t.val rd < md ∧ t.val rd * 2 ^ 256 % md = s.val ra * s.val ra % md ∧ Frame rd 1 s t) ∧
    (∀ m rd ra,
      let md := (engineOf c m).m
      let t := out (.mred m rd ra)
      t.val rd < md ∧ t.val rd * 2 ^ 256 % md = s.val ra % md ∧ Frame rd 1 s t) ∧
    (∀ m rd ra,
      let t := out (.menc m rd ra)
      t.val rd = s.val ra * 2 ^ 256 % (engineOf c m).m ∧ Frame rd 1 s t) ∧
    (∀ m rd ra,
      let e := engineOf c m
      let t := out (.minv m rd ra)
      t.val rd = e.rr * (s.val ra % e.m) ^ (e.m - 2) % e.m ∧
      (t.zr = true ↔ s.val ra % e.m = 0) ∧ (s.val ra % e.m = 0 → t.val rd = 0) ∧
      t.eq = s.eq ∧ t.inf = s.inf ∧ FrameButFlags rd 1 s t) ∧
    (∀ rd ra,
      let t := out (.kinv rd ra)
      ((2 ^ 256) ^ (order - 1) % order = 1 → t.val rd = s.val ra ^ (order - 2) % order) ∧
      (t.zr = true ↔ s.val ra % order = 0) ∧ (s.val ra % order = 0 → t.val rd = 0) ∧
      t.eq = s.eq ∧ t.inf = s.inf ∧ FrameButFlags rd 1 s t) ∧
    (∀ (cs : Cond) m rd ra,
      let md := (engineOf c m).m
      let cond := match cs with
        | .f => false
        | .t => true
        | .eq => s.eq
        | .inf => s.inf
      let t := out (.cneg cs m rd ra)
      (cond = true → t.val rd < md ∧ (t.val rd + s.val ra) % md = 0) ∧
      (cond = false → t.reg rd = s.reg ra) ∧ Frame rd 1 s t) ∧
    (∀ rd ra : Reg, rd.val ≤ 13 →
      let t := out (.pdbl rd ra)
      t.triple rd = dbl f (s.triple ra) ∧ Frame rd 3 s t) ∧
    (∀ rd ra rb : Reg, rd.val ≤ 13 →
      let t := out (.padd rd ra rb)
      (t.triple rd, t.eq) = add f (s.triple ra) (s.triple rb) ∧
      t.inf = s.inf ∧ t.zr = s.zr ∧ FrameButFlags rd 3 s t) ∧
    (∀ (pnz qnz sg : Bool) (rd ra rb : Reg), rd.val ≤ 13 →
      let y2 := if sg then (f.m - s.val (rb.val + 1) % f.m) % f.m else s.val (rb.val + 1)
      let t := out (.paddm pnz qnz sg rd ra rb)
      (pnz = false → t.triple rd = ⟨s.val rb, y2, f.one⟩) ∧
      (pnz = true → qnz = false → t.triple rd = s.triple ra) ∧
      (pnz = true → qnz = true → t.triple rd = addMixedSum f (s.triple ra) ⟨s.val rb, y2⟩) ∧ Frame rd 3 s t) ∧
    (∀ rd ra : Reg, rd.val ≤ 14 →
      let t := out (.paff rd ra)
      (t.pair rd, t.inf) = toAffine f (s.triple ra) ∧ (t.inf = true ↔ s.val (ra.val + 2) % f.m = 0) ∧
      t.eq = s.eq ∧ t.zr = s.zr ∧ FrameButFlags rd 2 s t) ∧
    (∀ rd ra : Reg, rd.val ≤ 14 →
      let p := baseMulJac c s.tab (s.val ra)
      let t := out (.bmul rd ra)
      FixedBaseLoop c s.tab (s.val ra % order) p ∧ (p.2 = false ↔ s.val ra % order = 0) ∧
      t.pair rd = (toAffine f p.1).1 ∧ t.inf = ((toAffine f p.1).2 || !p.2) ∧
      (s.val ra % order = 0 → t.pair rd = ⟨0, 0⟩ ∧ t.inf = true) ∧
      t.eq = s.eq ∧ t.zr = s.zr ∧ FrameButFlags rd 2 s t) ∧
    (∀ rd ra rb : Reg, rd.val ≤ 14 →
      let p := varMulJac c (s.val ra) (s.val rb) (s.val (rb.val + 1))
      let t := out (.smul rd ra rb)
      VariableBaseLoop c (s.val ra % order) (s.val rb) (s.val (rb.val + 1)) p ∧ (p.2 = false ↔ s.val ra % order = 0) ∧
      t.pair rd = (toAffine f p.1).1 ∧ t.inf = ((toAffine f p.1).2 || !p.2) ∧
      (s.val ra % order = 0 → t.pair rd = ⟨0, 0⟩ ∧ t.inf = true) ∧
      t.eq = s.eq ∧ t.zr = s.zr ∧ FrameButFlags rd 2 s t) ∧
    (∀ rd ra rb rc : Reg, rd.val ≤ 14 →
      let p1 := baseMulJac c s.tab (s.val ra)
      let p2 := varMulJac c (s.val rb) (s.val rc) (s.val (rc.val + 1))
      let t := out (.cmul rd ra rb rc)
      (t.pair rd, t.inf) = toAffine f (combine f p1 p2) ∧
      (s.val ra % order = 0 → s.val rb % order = 0 → t.pair rd = ⟨0, 0⟩ ∧ t.inf = true) ∧
      t.eq = s.eq ∧ t.zr = s.zr ∧ FrameButFlags rd 2 s t) ∧
    let t := out .tinit
    BuiltFromRows c t.tab ∧ t.trdy = true ∧ t.regs = s.regs ∧ FlagsSame s t ∧ t.err = s.err ∧ t.ecmd = s.ecmd ∧
      t.host = s.host ∧ t.replies = s.replies ∧ t.resets = s.resets ∧ BytesExceptStatus 0 0 s t
end

