-- ==== Sys2Proof/Laws/Aperture.lean ====
section
/-! SUPPORT. What the aperture shows, said once: which region an access falls in, each byte as a field of its item, and what a
write of bytes leaves. -/

namespace Sys2Proof.Machine

/-! The map. -/

/-- The lines of R30's map do not overlap. -/
theorem apertureMap_disjoint : apertureMap.Pairwise fun r q => r.base + r.size ≤ q.base := by
  decide +kernel

/-- Every item of R30's map is not empty and ends by `0x3C4`. -/
theorem apertureMap_bounds : ∀ r ∈ apertureMap, 0 < r.size ∧ r.base + r.size ≤ 0x3C4 := by
  decide +kernel

/-- Two lines of R30's map that share an offset are one line. -/
theorem apertureMap_unique {r q : Region} (hr : r ∈ apertureMap) (hq : q ∈ apertureMap) (a : Nat)
    (h1 : r.base ≤ a) (h2 : a < r.base + r.size) (h3 : q.base ≤ a) (h4 : a < q.base + q.size) : r = q := by
  by_contra hne
  have hp := List.Pairwise.forall_of_forall_of_flip (R := fun r q : Region => r ≠ q → r.base + r.size ≤ q.base ∨ q.base + q.size ≤ r.base)
    (fun x _ h => absurd rfl h) (apertureMap_disjoint.imp fun h _ => .inl h) (apertureMap_disjoint.imp fun h _ => .inr h)
  rcases hp hr hq hne with h | h <;> omega

/-- An access falls in a region exactly when the region is a line of the map and holds all the bytes (R31). -/
theorem locate_eq_some_iff (a n : Nat) (r : Region) (hn : 0 < n) :
    locate a n = some r ↔ r ∈ apertureMap ∧ r.base ≤ a ∧ a + n ≤ r.base + r.size := by
  unfold locate
  constructor
  · intro h
    have h1 := List.mem_of_find?_eq_some h
    have h2 := List.find?_some h
    simp at h2
    exact ⟨h1, h2⟩
  · rintro ⟨h1, h2, h3⟩
    cases hf : apertureMap.find? (fun r => decide (r.base ≤ a) && decide (a + n ≤ r.base + r.size)) with
    | none =>
      have := List.find?_eq_none.1 hf r h1
      simp at this; omega
    | some q =>
      have h4 := List.mem_of_find?_eq_some hf
      have h5 := List.find?_some hf
      simp at h5
      rw [apertureMap_unique h1 h4 a h2 (by omega) h5.1 (by omega)]

/-! Bytes. -/

/-- The byte at offset `t` of an item (R33, R34). -/
theorem State.byteAt_of_mem (s : State) (r : Region) (t : Nat) (hr : r ∈ apertureMap) (ht : t < r.size) :
    s.byteAt (r.base + t) = some (BitVec.ofNat 8 (imageByte r.size (itemValue s r.item) t)) := by
  have : locate (r.base + t) 1 = some r := (locate_eq_some_iff _ _ _ one_pos).2 ⟨hr, by omega, by omega⟩
  rw [State.byteAt, this, Option.map_some, Nat.add_sub_cancel_left]

/-- An offset that no item covers has no byte. -/
theorem State.byteAt_eq_none (s t : State) (a : Nat) (h : s.byteAt a = none) : t.byteAt a = none := by
  simpa [State.byteAt] using h

/-- A byte of the aperture depends only on the value of the item that holds it. -/
theorem State.byteAt_congr (s t : State) (a : Nat)
    (h : ∀ r ∈ apertureMap, r.base ≤ a → a < r.base + r.size → itemValue t r.item = itemValue s r.item) :
    t.byteAt a = s.byteAt a := by
  unfold State.byteAt
  cases hl : locate a 1 with
  | none => rfl
  | some r =>
    obtain ⟨h1, h2, h3⟩ := (locate_eq_some_iff _ _ _ one_pos).1 hl
    simp [h r h1 h2 (by omega)]

/-- Byte `t` of a register's image is a bit field of the register (R33). -/
theorem imageByte_word (w : Word) (t : Nat) (ht : t < 32) :
    imageByte 32 w.toNat t = (w.extractLsb' (248 - 8 * t) 8).toNat := by
  have h : (256 : Nat) ^ (32 - 1 - t) = 2 ^ (248 - 8 * t) := by
    rw [show 248 - 8 * t = 8 * (32 - 1 - t) by omega, pow_mul]; rfl
  rw [imageByte, h, BitVec.extractLsb'_toNat, Nat.shiftRight_eq_div_pow]

/-- Replacing byte `t` of a register's image leaves every other byte alone. -/
theorem imageByte_putByte (w : Word) (t u b : Nat) (ht : t < 32) (hu : u < 32) :
    imageByte 32 (putByte w t b).toNat u = if u = t then b % 256 else imageByte 32 w.toNat u := by
  have hff : ∀ i, (255#256).getLsbD i = decide (i < 8) := fun i => by
    rw [BitVec.getLsbD_ofNat, show 255 = 2 ^ 8 - 1 from rfl, Nat.testBit_two_pow_sub_one]
    by_cases h : i < 8 <;> simp [h]; omega
  have hb : ∀ i, 8 ≤ i → (b % 256).testBit i = false := fun i hi =>
    Nat.testBit_lt_two_pow (lt_of_lt_of_le (by omega : b % 256 < 2 ^ 8) (Nat.pow_le_pow_right (by norm_num) hi))
  rw [imageByte_word _ _ hu, imageByte_word _ _ hu]
  split
  · subst u
    rw [show b % 256 = (BitVec.ofNat 8 (b % 256)).toNat by simp]
    congr 1
    apply BitVec.eq_of_getLsbD_eq
    intro i hi
    have h1 : 248 - 8 * t + i < 256 := by omega
    have h2 : ¬ 248 - 8 * t + i < 248 - 8 * t := by omega
    have h3 : i < 256 := by omega
    simp only [putByte, BitVec.getLsbD_extractLsb', BitVec.getLsbD_or, BitVec.getLsbD_and, BitVec.getLsbD_not,
      BitVec.getLsbD_shiftLeft, BitVec.getLsbD_ofNat, hi, h1, h2, Nat.add_sub_cancel_left, h3]
    simp [hff, hi]
  · congr 1
    apply BitVec.eq_of_getLsbD_eq
    intro i hi
    have h1 : 248 - 8 * u + i < 256 := by omega
    simp only [putByte, BitVec.getLsbD_extractLsb', BitVec.getLsbD_or, BitVec.getLsbD_and, BitVec.getLsbD_not,
      BitVec.getLsbD_shiftLeft, BitVec.getLsbD_ofNat, hi, h1]
    by_cases hlt : 248 - 8 * u + i < 248 - 8 * t
    · simp [hlt]
    · have h3 : 8 ≤ 248 - 8 * u + i - (248 - 8 * t) := by omega
      simp [hlt, hff, hb _ h3, Nat.not_lt.2 h3]

/-- Replacing `n` consecutive bytes of a register's image replaces those bytes only (R32, R33). -/
theorem imageByte_putBytes (w : Word) (t n v u : Nat) (h : t + n ≤ 32) (hu : u < 32) :
    imageByte 32 (putBytes w t n v).toNat u =
      if t ≤ u ∧ u < t + n then imageByte n v (u - t) else imageByte 32 w.toNat u := by
  have key : ∀ m, m ≤ n → imageByte 32 ((List.range m).foldl (fun w k => putByte w (t + k) (imageByte n v k)) w).toNat u =
      if t ≤ u ∧ u < t + m then imageByte n v (u - t) else imageByte 32 w.toNat u := by
    intro m
    induction m with
    | zero => intro _; simp
    | succ m ih =>
      intro hm
      rw [List.range_succ, List.foldl_append, List.foldl_cons, List.foldl_nil,
        imageByte_putByte _ _ _ _ (by omega) hu, ih (by omega)]
      by_cases hum : u = t + m
      · subst hum; simp [imageByte]
      · have : (t ≤ u ∧ u < t + (m + 1)) ↔ (t ≤ u ∧ u < t + m) := by omega
        simp [hum, this]
  exact key n le_rfl

/-- The big-endian integer of a longer list (R31). -/
theorem bigEndian_concat (bs : List Byte) (b : Byte) : bigEndian (bs ++ [b]) = 256 * bigEndian bs + b.toNat := by
  simp [bigEndian]

/-- The big-endian integer of `n` bytes is below `256^n`. -/
theorem bigEndian_lt (bs : List Byte) : bigEndian bs < 256 ^ bs.length := by
  induction bs using List.reverseRecOn with
  | nil => simp [bigEndian]
  | append_singleton bs b ih =>
    rw [bigEndian_concat, List.length_append, List.length_singleton, pow_succ]
    have := b.isLt
    omega

/-- The big-endian integer of the `n` bytes of an image from byte `t` on is the field of the image that they cover. -/
theorem bigEndian_image (size v t : Nat) : ∀ n, t + n ≤ size →
    bigEndian ((List.range n).map fun k => BitVec.ofNat 8 (imageByte size v (t + k))) =
      v / 256 ^ (size - (t + n)) % 256 ^ n := by
  intro n
  induction n with
  | zero => intro _; simp [bigEndian, Nat.mod_one]
  | succ n ih =>
    intro h
    rw [List.range_succ, List.map_append, List.map_singleton, bigEndian_concat, ih (by omega)]
    have e1 : size - (t + n) = size - (t + (n + 1)) + 1 := by omega
    have e2 : size - 1 - (t + n) = size - (t + (n + 1)) := by omega
    have hb : imageByte size v (t + n) % 2 ^ 8 = imageByte size v (t + n) := Nat.mod_eq_of_lt (by unfold imageByte; omega)
    rw [BitVec.toNat_ofNat, hb, imageByte, e1, e2, pow_succ, ← Nat.div_div_eq_div_mul, pow_succ 256 n, Nat.mul_comm (256 ^ n) 256,
      Nat.mod_mul]
    omega

/-- What an admitted read returns (R31, R34): the field of the item that the bytes cover. -/
theorem memRead_of_mem (s : State) (r : Region) (t n : Nat) (hr : r ∈ apertureMap) (ha : admitted (r.base + t) n = some r)
    (h : t + n ≤ r.size) :
    memRead s (r.base + t) n = some (BitVec.ofNat 64 (itemValue s r.item / 256 ^ (r.size - (t + n)) % 256 ^ n)) := by
  have hb : s.bytesAt (r.base + t) n =
      (List.range n).map fun k => BitVec.ofNat 8 (imageByte r.size (itemValue s r.item) (t + k)) := by
    unfold State.bytesAt
    rw [← List.filterMap_eq_map]
    apply List.filterMap_congr
    intro k hk
    have := List.mem_range.1 hk
    rw [Nat.add_assoc, State.byteAt_of_mem s r (t + k) hr (by omega)]
    rfl
  rw [memRead, ha, Option.map_some, hb, bigEndian_image _ _ _ _ h]

end Sys2Proof.Machine
end

