-- ==== Sys2Proof/Laws/Decode.lean ====
section
/-! SUPPORT. Reading back the fields of an assembled word (R50, R59): each field holds what was put there. -/

namespace Sys2Proof

/-- An assembled word is the sum of its fields: no carry crosses a field. -/
theorem assemble_toNat (op : Nat) (rd ra rb rc : Reg) (imm : Nat) (ho : op < 256) (hi : imm < 256) :
    (assemble op rd ra rb rc imm).toNat =
      op * 2 ^ 24 + rd.val * 2 ^ 20 + ra.val * 2 ^ 16 + rb.val * 2 ^ 12 + rc.val * 2 ^ 8 + imm := by
  unfold assemble
  rw [BitVec.toNat_ofNat, Nat.mod_eq_of_lt]
  omega

/-- The operation code of an assembled word. -/
theorem assemble_op (op : Nat) (rd ra rb rc : Reg) (imm : Nat) (ho : op < 256) (hi : imm < 256) :
    bits (assemble op rd ra rb rc imm).toNat 31 24 = op := by
  rw [assemble_toNat _ _ _ _ _ _ ho hi]; unfold bits; norm_num; omega

/-- The `rd` field of an assembled word. -/
theorem assemble_rd (op : Nat) (rd ra rb rc : Reg) (imm : Nat) (ho : op < 256) (hi : imm < 256) :
    regField (assemble op rd ra rb rc imm).toNat 20 = rd := by
  rw [assemble_toNat _ _ _ _ _ _ ho hi]; ext; simp [regField]; omega

/-- The `ra` field of an assembled word. -/
theorem assemble_ra (op : Nat) (rd ra rb rc : Reg) (imm : Nat) (ho : op < 256) (hi : imm < 256) :
    regField (assemble op rd ra rb rc imm).toNat 16 = ra := by
  rw [assemble_toNat _ _ _ _ _ _ ho hi]; ext; simp [regField]; omega

/-- The `rb` field of an assembled word. -/
theorem assemble_rb (op : Nat) (rd ra rb rc : Reg) (imm : Nat) (ho : op < 256) (hi : imm < 256) :
    regField (assemble op rd ra rb rc imm).toNat 12 = rb := by
  rw [assemble_toNat _ _ _ _ _ _ ho hi]; ext; simp [regField]; omega

/-- The `rc` field of an assembled word. -/
theorem assemble_rc (op : Nat) (rd ra rb rc : Reg) (imm : Nat) (ho : op < 256) (hi : imm < 256) :
    regField (assemble op rd ra rb rc imm).toNat 8 = rc := by
  rw [assemble_toNat _ _ _ _ _ _ ho hi]; ext; simp [regField]; omega

/-- The immediate of an assembled word. -/
theorem assemble_imm (op : Nat) (rd ra rb rc : Reg) (imm : Nat) (ho : op < 256) (hi : imm < 256) :
    bits (assemble op rd ra rb rc imm).toNat 7 0 = imm := by
  rw [assemble_toNat _ _ _ _ _ _ ho hi]; unfold bits; norm_num; omega

/-- The modulus bit is 0 or 1. -/
theorem ModSel.bit_lt (m : ModSel) : m.bit < 2 := by
  cases m <;> decide

/-- The condition selector is 0 to 3. -/
theorem Cond.code_lt (c : Cond) : c.code < 4 := by
  cases c <;> decide

end Sys2Proof
end

