-- ==== Sys2Proof/Laws/State.lean ====
section
/-! SUPPORT. One lemma per field per update of State: no later proof unfolds a record update. -/

namespace Sys2Proof.Machine

/-! Writing a register changes the register file only. -/

/-- The register file after a write of a register that exists. -/
theorem State.setReg_regs (s : State) (i : Nat) (v : Word) (h : i < 16) : (s.setReg i v).regs = s.regs.set i v := by
  simp [State.setReg, h]

@[simp] theorem State.setReg_trdy (s : State) (i : Nat) (v : Word) : (s.setReg i v).trdy = s.trdy := by
  unfold State.setReg; split <;> rfl

@[simp] theorem State.setReg_eq (s : State) (i : Nat) (v : Word) : (s.setReg i v).eq = s.eq := by
  unfold State.setReg; split <;> rfl

@[simp] theorem State.setReg_inf (s : State) (i : Nat) (v : Word) : (s.setReg i v).inf = s.inf := by
  unfold State.setReg; split <;> rfl

@[simp] theorem State.setReg_zr (s : State) (i : Nat) (v : Word) : (s.setReg i v).zr = s.zr := by
  unfold State.setReg; split <;> rfl

@[simp] theorem State.setReg_err (s : State) (i : Nat) (v : Word) : (s.setReg i v).err = s.err := by
  unfold State.setReg; split <;> rfl

@[simp] theorem State.setReg_ecmd (s : State) (i : Nat) (v : Word) : (s.setReg i v).ecmd = s.ecmd := by
  unfold State.setReg; split <;> rfl

@[simp] theorem State.setReg_tab (s : State) (i : Nat) (v : Word) : (s.setReg i v).tab = s.tab := by
  unfold State.setReg; split <;> rfl

@[simp] theorem State.setReg_host (s : State) (i : Nat) (v : Word) : (s.setReg i v).host = s.host := by
  unfold State.setReg; split <;> rfl

@[simp] theorem State.setReg_replies (s : State) (i : Nat) (v : Word) : (s.setReg i v).replies = s.replies := by
  unfold State.setReg; split <;> rfl

@[simp] theorem State.setReg_resets (s : State) (i : Nat) (v : Word) : (s.setReg i v).resets = s.resets := by
  unfold State.setReg; split <;> rfl

/-! Writing an integer, a pair or a triple is writing registers. -/

@[simp] theorem State.setVal_trdy (s : State) (i : Nat) (v : Nat) : (s.setVal i v).trdy = s.trdy := by
  simp [State.setVal]

@[simp] theorem State.setVal_eq (s : State) (i : Nat) (v : Nat) : (s.setVal i v).eq = s.eq := by
  simp [State.setVal]

@[simp] theorem State.setVal_inf (s : State) (i : Nat) (v : Nat) : (s.setVal i v).inf = s.inf := by
  simp [State.setVal]

@[simp] theorem State.setVal_zr (s : State) (i : Nat) (v : Nat) : (s.setVal i v).zr = s.zr := by
  simp [State.setVal]

@[simp] theorem State.setVal_err (s : State) (i : Nat) (v : Nat) : (s.setVal i v).err = s.err := by
  simp [State.setVal]

@[simp] theorem State.setVal_ecmd (s : State) (i : Nat) (v : Nat) : (s.setVal i v).ecmd = s.ecmd := by
  simp [State.setVal]

@[simp] theorem State.setVal_tab (s : State) (i : Nat) (v : Nat) : (s.setVal i v).tab = s.tab := by
  simp [State.setVal]

@[simp] theorem State.setVal_host (s : State) (i : Nat) (v : Nat) : (s.setVal i v).host = s.host := by
  simp [State.setVal]

@[simp] theorem State.setVal_replies (s : State) (i : Nat) (v : Nat) : (s.setVal i v).replies = s.replies := by
  simp [State.setVal]

@[simp] theorem State.setVal_resets (s : State) (i : Nat) (v : Nat) : (s.setVal i v).resets = s.resets := by
  simp [State.setVal]

@[simp] theorem State.setPair_trdy (s : State) (i : Nat) (a : Affine) : (s.setPair i a).trdy = s.trdy := by
  simp [State.setPair]

@[simp] theorem State.setPair_eq (s : State) (i : Nat) (a : Affine) : (s.setPair i a).eq = s.eq := by
  simp [State.setPair]

@[simp] theorem State.setPair_inf (s : State) (i : Nat) (a : Affine) : (s.setPair i a).inf = s.inf := by
  simp [State.setPair]

@[simp] theorem State.setPair_zr (s : State) (i : Nat) (a : Affine) : (s.setPair i a).zr = s.zr := by
  simp [State.setPair]

@[simp] theorem State.setPair_err (s : State) (i : Nat) (a : Affine) : (s.setPair i a).err = s.err := by
  simp [State.setPair]

@[simp] theorem State.setPair_ecmd (s : State) (i : Nat) (a : Affine) : (s.setPair i a).ecmd = s.ecmd := by
  simp [State.setPair]

@[simp] theorem State.setPair_tab (s : State) (i : Nat) (a : Affine) : (s.setPair i a).tab = s.tab := by
  simp [State.setPair]

@[simp] theorem State.setPair_host (s : State) (i : Nat) (a : Affine) : (s.setPair i a).host = s.host := by
  simp [State.setPair]

@[simp] theorem State.setPair_replies (s : State) (i : Nat) (a : Affine) : (s.setPair i a).replies = s.replies := by
  simp [State.setPair]

@[simp] theorem State.setPair_resets (s : State) (i : Nat) (a : Affine) : (s.setPair i a).resets = s.resets := by
  simp [State.setPair]

@[simp] theorem State.setTriple_trdy (s : State) (i : Nat) (p : Jac) : (s.setTriple i p).trdy = s.trdy := by
  simp [State.setTriple]

@[simp] theorem State.setTriple_eq (s : State) (i : Nat) (p : Jac) : (s.setTriple i p).eq = s.eq := by
  simp [State.setTriple]

@[simp] theorem State.setTriple_inf (s : State) (i : Nat) (p : Jac) : (s.setTriple i p).inf = s.inf := by
  simp [State.setTriple]

@[simp] theorem State.setTriple_zr (s : State) (i : Nat) (p : Jac) : (s.setTriple i p).zr = s.zr := by
  simp [State.setTriple]

@[simp] theorem State.setTriple_err (s : State) (i : Nat) (p : Jac) : (s.setTriple i p).err = s.err := by
  simp [State.setTriple]

@[simp] theorem State.setTriple_ecmd (s : State) (i : Nat) (p : Jac) : (s.setTriple i p).ecmd = s.ecmd := by
  simp [State.setTriple]

@[simp] theorem State.setTriple_tab (s : State) (i : Nat) (p : Jac) : (s.setTriple i p).tab = s.tab := by
  simp [State.setTriple]

@[simp] theorem State.setTriple_host (s : State) (i : Nat) (p : Jac) : (s.setTriple i p).host = s.host := by
  simp [State.setTriple]

@[simp] theorem State.setTriple_replies (s : State) (i : Nat) (p : Jac) : (s.setTriple i p).replies = s.replies := by
  simp [State.setTriple]

@[simp] theorem State.setTriple_resets (s : State) (i : Nat) (p : Jac) : (s.setTriple i p).resets = s.resets := by
  simp [State.setTriple]

/-! Writing a flag changes that flag only. -/

@[simp] theorem State.setEq_regs (s : State) (b : Bool) : (s.setEq b).regs = s.regs := rfl

@[simp] theorem State.setEq_trdy (s : State) (b : Bool) : (s.setEq b).trdy = s.trdy := rfl

@[simp] theorem State.setEq_eq (s : State) (b : Bool) : (s.setEq b).eq = b := rfl

@[simp] theorem State.setEq_inf (s : State) (b : Bool) : (s.setEq b).inf = s.inf := rfl

@[simp] theorem State.setEq_zr (s : State) (b : Bool) : (s.setEq b).zr = s.zr := rfl

@[simp] theorem State.setEq_err (s : State) (b : Bool) : (s.setEq b).err = s.err := rfl

@[simp] theorem State.setEq_ecmd (s : State) (b : Bool) : (s.setEq b).ecmd = s.ecmd := rfl

@[simp] theorem State.setEq_tab (s : State) (b : Bool) : (s.setEq b).tab = s.tab := rfl

@[simp] theorem State.setEq_host (s : State) (b : Bool) : (s.setEq b).host = s.host := rfl

@[simp] theorem State.setEq_replies (s : State) (b : Bool) : (s.setEq b).replies = s.replies := rfl

@[simp] theorem State.setEq_resets (s : State) (b : Bool) : (s.setEq b).resets = s.resets := rfl

@[simp] theorem State.setInf_regs (s : State) (b : Bool) : (s.setInf b).regs = s.regs := rfl

@[simp] theorem State.setInf_trdy (s : State) (b : Bool) : (s.setInf b).trdy = s.trdy := rfl

@[simp] theorem State.setInf_eq (s : State) (b : Bool) : (s.setInf b).eq = s.eq := rfl

@[simp] theorem State.setInf_inf (s : State) (b : Bool) : (s.setInf b).inf = b := rfl

@[simp] theorem State.setInf_zr (s : State) (b : Bool) : (s.setInf b).zr = s.zr := rfl

@[simp] theorem State.setInf_err (s : State) (b : Bool) : (s.setInf b).err = s.err := rfl

@[simp] theorem State.setInf_ecmd (s : State) (b : Bool) : (s.setInf b).ecmd = s.ecmd := rfl

@[simp] theorem State.setInf_tab (s : State) (b : Bool) : (s.setInf b).tab = s.tab := rfl

@[simp] theorem State.setInf_host (s : State) (b : Bool) : (s.setInf b).host = s.host := rfl

@[simp] theorem State.setInf_replies (s : State) (b : Bool) : (s.setInf b).replies = s.replies := rfl

@[simp] theorem State.setInf_resets (s : State) (b : Bool) : (s.setInf b).resets = s.resets := rfl

@[simp] theorem State.setZr_regs (s : State) (b : Bool) : (s.setZr b).regs = s.regs := rfl

@[simp] theorem State.setZr_trdy (s : State) (b : Bool) : (s.setZr b).trdy = s.trdy := rfl

@[simp] theorem State.setZr_eq (s : State) (b : Bool) : (s.setZr b).eq = s.eq := rfl

@[simp] theorem State.setZr_inf (s : State) (b : Bool) : (s.setZr b).inf = s.inf := rfl

@[simp] theorem State.setZr_zr (s : State) (b : Bool) : (s.setZr b).zr = b := rfl

@[simp] theorem State.setZr_err (s : State) (b : Bool) : (s.setZr b).err = s.err := rfl

@[simp] theorem State.setZr_ecmd (s : State) (b : Bool) : (s.setZr b).ecmd = s.ecmd := rfl

@[simp] theorem State.setZr_tab (s : State) (b : Bool) : (s.setZr b).tab = s.tab := rfl

@[simp] theorem State.setZr_host (s : State) (b : Bool) : (s.setZr b).host = s.host := rfl

@[simp] theorem State.setZr_replies (s : State) (b : Bool) : (s.setZr b).replies = s.replies := rfl

@[simp] theorem State.setZr_resets (s : State) (b : Bool) : (s.setZr b).resets = s.resets := rfl

/-! Writing a result with its flag. -/

@[simp] theorem State.putSum_trdy (s : State) (i : Nat) (r : Jac × Bool) : (s.putSum i r).trdy = s.trdy := by
  simp [State.putSum]

@[simp] theorem State.putSum_eq (s : State) (i : Nat) (r : Jac × Bool) : (s.putSum i r).eq = r.2 := by
  simp [State.putSum]

@[simp] theorem State.putSum_inf (s : State) (i : Nat) (r : Jac × Bool) : (s.putSum i r).inf = s.inf := by
  simp [State.putSum]

@[simp] theorem State.putSum_zr (s : State) (i : Nat) (r : Jac × Bool) : (s.putSum i r).zr = s.zr := by
  simp [State.putSum]

@[simp] theorem State.putSum_err (s : State) (i : Nat) (r : Jac × Bool) : (s.putSum i r).err = s.err := by
  simp [State.putSum]

@[simp] theorem State.putSum_ecmd (s : State) (i : Nat) (r : Jac × Bool) : (s.putSum i r).ecmd = s.ecmd := by
  simp [State.putSum]

@[simp] theorem State.putSum_tab (s : State) (i : Nat) (r : Jac × Bool) : (s.putSum i r).tab = s.tab := by
  simp [State.putSum]

@[simp] theorem State.putSum_host (s : State) (i : Nat) (r : Jac × Bool) : (s.putSum i r).host = s.host := by
  simp [State.putSum]

@[simp] theorem State.putSum_replies (s : State) (i : Nat) (r : Jac × Bool) : (s.putSum i r).replies = s.replies := by
  simp [State.putSum]

@[simp] theorem State.putSum_resets (s : State) (i : Nat) (r : Jac × Bool) : (s.putSum i r).resets = s.resets := by
  simp [State.putSum]

@[simp] theorem State.putAffine_trdy (s : State) (i : Nat) (r : Affine × Bool) : (s.putAffine i r).trdy = s.trdy := by
  simp [State.putAffine]

@[simp] theorem State.putAffine_eq (s : State) (i : Nat) (r : Affine × Bool) : (s.putAffine i r).eq = s.eq := by
  simp [State.putAffine]

@[simp] theorem State.putAffine_inf (s : State) (i : Nat) (r : Affine × Bool) : (s.putAffine i r).inf = r.2 := by
  simp [State.putAffine]

@[simp] theorem State.putAffine_zr (s : State) (i : Nat) (r : Affine × Bool) : (s.putAffine i r).zr = s.zr := by
  simp [State.putAffine]

@[simp] theorem State.putAffine_err (s : State) (i : Nat) (r : Affine × Bool) : (s.putAffine i r).err = s.err := by
  simp [State.putAffine]

@[simp] theorem State.putAffine_ecmd (s : State) (i : Nat) (r : Affine × Bool) : (s.putAffine i r).ecmd = s.ecmd := by
  simp [State.putAffine]

@[simp] theorem State.putAffine_tab (s : State) (i : Nat) (r : Affine × Bool) : (s.putAffine i r).tab = s.tab := by
  simp [State.putAffine]

@[simp] theorem State.putAffine_host (s : State) (i : Nat) (r : Affine × Bool) : (s.putAffine i r).host = s.host := by
  simp [State.putAffine]

@[simp] theorem State.putAffine_replies (s : State) (i : Nat) (r : Affine × Bool) : (s.putAffine i r).replies = s.replies := by
  simp [State.putAffine]

@[simp] theorem State.putAffine_resets (s : State) (i : Nat) (r : Affine × Bool) : (s.putAffine i r).resets = s.resets := by
  simp [State.putAffine]

@[simp] theorem State.putInverse_trdy (s : State) (i : Nat) (v : Nat) (b : Bool) : (s.putInverse i v b).trdy = s.trdy := by
  simp [State.putInverse]

@[simp] theorem State.putInverse_eq (s : State) (i : Nat) (v : Nat) (b : Bool) : (s.putInverse i v b).eq = s.eq := by
  simp [State.putInverse]

@[simp] theorem State.putInverse_inf (s : State) (i : Nat) (v : Nat) (b : Bool) : (s.putInverse i v b).inf = s.inf := by
  simp [State.putInverse]

@[simp] theorem State.putInverse_zr (s : State) (i : Nat) (v : Nat) (b : Bool) : (s.putInverse i v b).zr = b := by
  simp [State.putInverse]

@[simp] theorem State.putInverse_err (s : State) (i : Nat) (v : Nat) (b : Bool) : (s.putInverse i v b).err = s.err := by
  simp [State.putInverse]

@[simp] theorem State.putInverse_ecmd (s : State) (i : Nat) (v : Nat) (b : Bool) : (s.putInverse i v b).ecmd = s.ecmd := by
  simp [State.putInverse]

@[simp] theorem State.putInverse_tab (s : State) (i : Nat) (v : Nat) (b : Bool) : (s.putInverse i v b).tab = s.tab := by
  simp [State.putInverse]

@[simp] theorem State.putInverse_host (s : State) (i : Nat) (v : Nat) (b : Bool) : (s.putInverse i v b).host = s.host := by
  simp [State.putInverse]

@[simp] theorem State.putInverse_replies (s : State) (i : Nat) (v : Nat) (b : Bool) : (s.putInverse i v b).replies = s.replies := by
  simp [State.putInverse]

@[simp] theorem State.putInverse_resets (s : State) (i : Nat) (v : Nat) (b : Bool) : (s.putInverse i v b).resets = s.resets := by
  simp [State.putInverse]

/-! Raising a fault writes ERR and ECMD only (R147). -/

@[simp] theorem raiseFault_regs (c : FaultCode) (cw : CmdWord) (s : State) : (raiseFault c cw s).regs = s.regs := rfl

@[simp] theorem raiseFault_trdy (c : FaultCode) (cw : CmdWord) (s : State) : (raiseFault c cw s).trdy = s.trdy := rfl

@[simp] theorem raiseFault_eq (c : FaultCode) (cw : CmdWord) (s : State) : (raiseFault c cw s).eq = s.eq := rfl

@[simp] theorem raiseFault_inf (c : FaultCode) (cw : CmdWord) (s : State) : (raiseFault c cw s).inf = s.inf := rfl

@[simp] theorem raiseFault_zr (c : FaultCode) (cw : CmdWord) (s : State) : (raiseFault c cw s).zr = s.zr := rfl

@[simp] theorem raiseFault_err (c : FaultCode) (cw : CmdWord) (s : State) : (raiseFault c cw s).err = c.code := rfl

@[simp] theorem raiseFault_ecmd (c : FaultCode) (cw : CmdWord) (s : State) : (raiseFault c cw s).ecmd = cw := rfl

@[simp] theorem raiseFault_tab (c : FaultCode) (cw : CmdWord) (s : State) : (raiseFault c cw s).tab = s.tab := rfl

@[simp] theorem raiseFault_host (c : FaultCode) (cw : CmdWord) (s : State) : (raiseFault c cw s).host = s.host := rfl

@[simp] theorem raiseFault_replies (c : FaultCode) (cw : CmdWord) (s : State) : (raiseFault c cw s).replies = s.replies := rfl

@[simp] theorem raiseFault_resets (c : FaultCode) (cw : CmdWord) (s : State) : (raiseFault c cw s).resets = s.resets := rfl

/-! The reset signal (R165 to R167). -/

@[simp] theorem takeReset_regs (s : State) : (takeReset s).regs = drawnRegs (s.resets + 1) := rfl

@[simp] theorem takeReset_trdy (s : State) : (takeReset s).trdy = false := rfl

@[simp] theorem takeReset_eq (s : State) : (takeReset s).eq = false := rfl

@[simp] theorem takeReset_inf (s : State) : (takeReset s).inf = false := rfl

@[simp] theorem takeReset_zr (s : State) : (takeReset s).zr = false := rfl

@[simp] theorem takeReset_err (s : State) : (takeReset s).err = 0 := rfl

@[simp] theorem takeReset_ecmd (s : State) : (takeReset s).ecmd = 0 := rfl

@[simp] theorem takeReset_tab (s : State) : (takeReset s).tab = drawnTable (s.resets + 1) := rfl

@[simp] theorem takeReset_host (s : State) : (takeReset s).host = s.host := rfl

@[simp] theorem takeReset_replies (s : State) : (takeReset s).replies = s.replies := rfl

@[simp] theorem takeReset_resets (s : State) : (takeReset s).resets = s.resets + 1 := rfl

end Sys2Proof.Machine
end

