-- ==== Sys2Proof/Laws/Ops.lean ====
section
/-! SUPPORT. What the register operations do, said once: reading a register after a write of a register, a pair or a
triple. -/

namespace Sys2Proof.Machine

/-- Reading after writing one register: the written value there, the old value everywhere else. -/
theorem State.reg_setReg (s : State) (i j : Nat) (v : Word) :
    (s.setReg i v).reg j = if i = j ∧ i < 16 then v else s.reg j := by
  by_cases hi : i < 16
  · rw [State.setReg, dif_pos hi]
    by_cases hj : j < 16
    · simp [State.reg, hi, hj, Vector.getElem_set]
    · have hij : ¬ i = j := by omega
      simp [State.reg, hj, hij]
  · rw [State.setReg, dif_neg hi, if_neg (fun h => hi h.2)]

/-- Reading back the register just written. -/
@[simp] theorem State.reg_setReg_same (s : State) (i : Nat) (v : Word) (h : i < 16) : (s.setReg i v).reg i = v := by
  simp [State.reg_setReg, h]

/-- Writing a register leaves every other register alone. -/
theorem State.reg_setReg_other (s : State) (i j : Nat) (v : Word) (h : i ≠ j) : (s.setReg i v).reg j = s.reg j := by
  simp [State.reg_setReg, h]

/-- Reading after writing an integer result. -/
theorem State.reg_setVal (s : State) (i j v : Nat) :
    (s.setVal i v).reg j = if i = j ∧ i < 16 then BitVec.ofNat 256 v else s.reg j := by
  simp [State.setVal, State.reg_setReg]

/-- Reading after writing a pair whose group fits. -/
theorem State.reg_setPair (s : State) (i j : Nat) (a : Affine) (h : i + 2 ≤ 16) :
    (s.setPair i a).reg j =
      if j = i then BitVec.ofNat 256 a.x else if j = i + 1 then BitVec.ofNat 256 a.y else s.reg j := by
  simp only [State.setPair, State.reg_setVal]
  by_cases h0 : j = i
  · subst h0; simp; omega
  by_cases h1 : j = i + 1
  · subst h1; simp; omega
  simp [h0, h1, Ne.symm h0, Ne.symm h1]

/-- Reading after writing a triple whose group fits. -/
theorem State.reg_setTriple (s : State) (i j : Nat) (p : Jac) (h : i + 3 ≤ 16) :
    (s.setTriple i p).reg j =
      if j = i then BitVec.ofNat 256 p.x else if j = i + 1 then BitVec.ofNat 256 p.y
      else if j = i + 2 then BitVec.ofNat 256 p.z else s.reg j := by
  simp only [State.setTriple, State.reg_setVal]
  by_cases h0 : j = i
  · subst h0; simp; omega
  by_cases h1 : j = i + 1
  · subst h1; simp; omega
  by_cases h2 : j = i + 2
  · subst h2; simp; omega
  simp [h0, h1, h2, Ne.symm h0, Ne.symm h1, Ne.symm h2]

/-- A register holds an integer below 2^256 (R10). -/
theorem State.val_lt (s : State) (i : Nat) : s.val i < 2 ^ 256 :=
  (s.reg i).isLt

/-- Registers depend on the register file only. -/
theorem State.reg_congr (s t : State) (h : t.regs = s.regs) (i : Nat) : t.reg i = s.reg i := by
  simp [State.reg, h]

@[simp] theorem State.reg_setEq (s : State) (b : Bool) (i : Nat) : (s.setEq b).reg i = s.reg i := rfl

@[simp] theorem State.reg_setInf (s : State) (b : Bool) (i : Nat) : (s.setInf b).reg i = s.reg i := rfl

@[simp] theorem State.reg_setZr (s : State) (b : Bool) (i : Nat) : (s.setZr b).reg i = s.reg i := rfl

@[simp] theorem State.reg_raiseFault (c : FaultCode) (cw : CmdWord) (s : State) (i : Nat) :
    (raiseFault c cw s).reg i = s.reg i := rfl

@[simp] theorem State.reg_putSum (s : State) (rd : Nat) (r : Jac × Bool) (i : Nat) :
    (s.putSum rd r).reg i = (s.setTriple rd r.1).reg i := rfl

@[simp] theorem State.reg_putAffine (s : State) (rd : Nat) (r : Affine × Bool) (i : Nat) :
    (s.putAffine rd r).reg i = (s.setPair rd r.1).reg i := rfl

@[simp] theorem State.reg_putInverse (s : State) (rd v : Nat) (b : Bool) (i : Nat) :
    (s.putInverse rd v b).reg i = (s.setVal rd v).reg i := rfl

end Sys2Proof.Machine
end

