-- ==== Sys2Proof/Laws/Operands.lean ====
section
/-! SUPPORT. What the fault checks of R148 can answer, said once. -/

namespace Sys2Proof.Machine

/-- The machine's span table and the well-formedness check of WellFormed.lean name the same groups (R54, R56). -/
theorem spans_any_pastEnd (i : Instr) : (spans i).any pastEnd = !i.groupsOk := by
  cases i <;> (simp [spans, pastEnd, Instr.groupsOk, groupOk]; try grind)

/-- The machine's column check and the well-formedness check agree (R146). -/
theorem badColumn_eq (i : Instr) : badColumn i = !i.columnOk := by
  cases i <;> simp [badColumn, Instr.columnOk, Config.baseDigits]
  grind

/-- No fault for a well-formed command that neither reads an absent table nor builds a present one. -/
theorem faultOf_eq_none_iff (i : Instr) (s : State) :
    faultOf i s = none ↔ i.wf = true ∧ (readsTable i = true → s.trdy = true) ∧ (buildsTable i = true → s.trdy = false) := by
  unfold faultOf
  rw [spans_any_pastEnd, badColumn_eq]
  cases hg : i.groupsOk <;> cases hc : i.columnOk <;> cases hr : readsTable i <;> cases hb : buildsTable i <;>
    cases ht : s.trdy <;> simp [Instr.wf, hg, hc]

/-- A command that raises no fault executes its rule. -/
theorem guarded_of_none {i : Instr} {s : State} (rule : State → State) (h : faultOf i s = none) :
    guarded i s rule = .next (rule s) := by
  simp [guarded, h]

/-- A command that raises a fault does that and nothing else. -/
theorem guarded_of_some {i : Instr} {s : State} {c : FaultCode} (rule : State → State) (h : faultOf i s = some c) :
    guarded i s rule = .next (raiseFault c (encode i) s) := by
  simp [guarded, h]

/-- Everything that a guarded command can answer. -/
theorem guarded_cases {i : Instr} {s : State} {rule : State → State} {o : Host.Outcome State Fault Refusal}
    (h : guarded i s rule = o) :
    (∃ c, faultOf i s = some c ∧ o = .next (raiseFault c (encode i) s)) ∨ (faultOf i s = none ∧ o = .next (rule s)) := by
  unfold guarded at h
  split at h
  · exact .inl ⟨_, ‹_›, h.symm⟩
  · exact .inr ⟨‹_›, h.symm⟩

/-- The code of a fault is 1 to 6 (R146). -/
theorem FaultCode.code_range (c : FaultCode) : 1 ≤ c.code.toNat ∧ c.code.toNat ≤ 6 := by
  cases c <;> decide

/-- The code of a fault is not 0, the code of "none" (R146). -/
theorem FaultCode.code_ne_zero (c : FaultCode) : c.code ≠ 0 := by
  cases c <;> decide

end Sys2Proof.Machine
end

