-- ==== Sys2Proof/Laws/Exec.lean ====
section
/-! SUPPORT. What exec can answer, said once: it always answers a next state, and every command either raises the fault of
R148 or leaves the model's own fields, ERR and ECMD alone. -/

namespace Sys2Proof.Machine

/-- Every command's meaning is its rule on this hardware's curve, behind the fault checks of R148. -/
theorem exec_guarded (i : Instr) (s : State) : exec i s = guarded i s (commandRule Config.sm2 i) := by
  cases i <;> rfl

/-- A command that the checks of R148 let pass executes its rule. -/
theorem exec_of_none {i : Instr} {s : State} (h : faultOf i s = none) : exec i s = .next (commandRule Config.sm2 i s) := by
  rw [exec_guarded, guarded_of_none _ h]

/-- No command stops the machine. -/
theorem exec_next (i : Instr) (s : State) : ∃ t, exec i s = .next t := by
  rw [exec_guarded]
  unfold guarded
  split <;> exact ⟨_, rfl⟩

/-- A command that the checks of R148 refuse raises that fault and does nothing else (R147). -/
theorem exec_of_fault {i : Instr} {s : State} {c : FaultCode} (h : faultOf i s = some c) :
    exec i s = .next (raiseFault c (encode i) s) := by
  rw [exec_guarded, guarded_of_some _ h]

/-- A rule writes at most registers, EQ, INF, ZR, the table and TRDY: the rest of the state is unchanged. -/
theorem exec_system {i : Instr} {s t : State} (h : exec i s = .next t) (hf : faultOf i s = none) :
    t.err = s.err ∧ t.ecmd = s.ecmd ∧ t.host = s.host ∧ t.replies = s.replies ∧ t.resets = s.resets := by
  cases i <;> simp only [exec, execMmul, execMsqr, execMred, execMenc, execMinv, execKinv, execCmov, execCneg, execTsel,
    execPdbl, execPadd, execPaddm, execPaff, execBmul, execSmul, execCmul, execTinit, guarded_of_none _ hf, ruleMmul, ruleMsqr, ruleMred,
    ruleMenc, ruleMinv, ruleKinv, ruleCmov, ruleCneg, ruleTsel, rulePdbl, rulePadd, rulePaddm, rulePaff, ruleBmul, ruleSmul,
    ruleCmul, ruleTinit,
    Host.Outcome.next.injEq] at h <;> subst h <;> simp

/-- Only TINIT writes the table and TRDY (R22, R38). -/
theorem exec_table {i : Instr} {s t : State} (h : exec i s = .next t) (hi : i ≠ .tinit) :
    t.tab = s.tab ∧ t.trdy = s.trdy := by
  rcases hf : faultOf i s with _ | c
  · cases i <;> simp only [exec, execMmul, execMsqr, execMred, execMenc, execMinv, execKinv, execCmov, execCneg, execTsel,
      execPdbl, execPadd, execPaddm, execPaff, execBmul, execSmul, execCmul, guarded_of_none _ hf, ruleMmul, ruleMsqr, ruleMred,
      ruleMenc, ruleMinv, ruleKinv, ruleCmov, ruleCneg, ruleTsel, rulePdbl, rulePadd, rulePaddm, rulePaff, ruleBmul, ruleSmul,
      ruleCmul,
      Host.Outcome.next.injEq] at h <;> first | exact absurd rfl hi | (subst h; simp)
  · rw [exec_of_fault hf, Host.Outcome.next.injEq] at h
    subst h; simp

end Sys2Proof.Machine
end

