-- ==== Sys2Proof/Laws/Field.lean ====
section
/-! SUPPORT. The modular primitives: ranges, and the value of the square-and-multiply loop. -/

namespace Sys2Proof.Machine

open Sys2Proof.Config (Engine)

/-- The multiplier's result is canonical (R70). -/
theorem montMul_lt (e : Engine) (a b : Nat) (h : 0 < e.m) : montMul e a b < e.m :=
  Nat.mod_lt _ h

/-- The multiplier sees its first operand modulo `M`. -/
theorem montMul_mod_left (e : Engine) (a b : Nat) : montMul e (a % e.m) b = montMul e a b := by
  simp [montMul, Nat.mul_mod]

/-- The sum is canonical (R95). -/
theorem fAdd_lt (e : Engine) (a b : Nat) (h : 0 < e.m) : fAdd e a b < e.m :=
  Nat.mod_lt _ h

/-- The difference is canonical (R95). -/
theorem fSub_lt (e : Engine) (a b : Nat) (h : 0 < e.m) : fSub e a b < e.m :=
  Nat.mod_lt _ h

/-- `FSub` is the integer difference modulo `M` (R95), the form in which the rule states it. -/
theorem fSub_eq_int (e : Engine) (a b : Nat) (h : 0 < e.m) : (fSub e a b : Int) = ((a : Int) - b) % e.m := by
  have hb : b % e.m < e.m := Nat.mod_lt _ h
  unfold fSub
  rw [Int.natCast_mod, Nat.cast_add, Nat.cast_sub hb.le, Int.natCast_mod]
  have : (a : Int) + ((e.m : Int) - (b : Int) % e.m) = (a - b) + e.m * (1 + (b : Int) / e.m) := by
    have := Int.mul_ediv_add_emod (b : Int) e.m
    linarith
  rw [this, Int.add_mul_emod_self_left]

/-- In the residue ring `FSub` is subtraction. -/
theorem fSub_cast (e : Engine) (a b : Nat) (h : 0 < e.m) : ((fSub e a b : Nat) : ZMod e.m) = (a : ZMod e.m) - b := by
  have := fSub_eq_int e a b h
  have h2 : ((fSub e a b : Int) : ZMod e.m) = (((a : Int) - b : Int) : ZMod e.m) := by
    rw [this, ZMod.intCast_eq_intCast_iff]; exact Int.mod_modEq _ _
  simpa using h2

/-- In the residue ring `FAdd` is addition. -/
theorem fAdd_cast (e : Engine) (a b : Nat) : ((fAdd e a b : Nat) : ZMod e.m) = (a : ZMod e.m) + b := by
  simp [fAdd]

/-- In the residue ring the Montgomery product is the product with one factor `RINV`. -/
theorem montMul_cast (e : Engine) (a b : Nat) : ((montMul e a b : Nat) : ZMod e.m) = (a : ZMod e.m) * b * e.rinv := by
  simp [montMul]

/-- In the residue ring the canonical negation is negation. -/
theorem negMod_cast (e : Engine) (a : Nat) (h : 0 < e.m) : ((negMod e a : Nat) : ZMod e.m) = -(a : ZMod e.m) := by
  have hb : a % e.m < e.m := Nat.mod_lt _ h
  unfold negMod
  rw [ZMod.natCast_mod, Nat.cast_sub hb.le]
  simp

/-- The loop multiplies the accumulator by a power of the base. -/
theorem powModLoop_mod (m : Nat) : ∀ (fuel b k acc : Nat), k < 2 ^ fuel →
    powModLoop m fuel b k acc % m = acc * b ^ k % m
  | 0, b, k, acc, h => by
    have : k = 0 := by simpa using h
    simp [powModLoop, this]
  | fuel + 1, b, k, acc, h => by
    have hk : k / 2 < 2 ^ fuel := by rw [Nat.div_lt_iff_lt_mul (by norm_num)]; rw [pow_succ] at h; exact h
    have hsplit := Nat.div_add_mod k 2
    rw [powModLoop, powModLoop_mod m fuel _ _ _ hk]
    have hpow : ∀ x : Nat, x * (b * b % m) ^ (k / 2) % m = x * (b * b) ^ (k / 2) % m := fun x => by
      rw [Nat.mul_mod, Nat.pow_mod, Nat.mod_mod, ← Nat.pow_mod, ← Nat.mul_mod]
    by_cases ho : k % 2 = 1
    · rw [if_pos ho, hpow, Nat.mul_mod, Nat.mod_mod, ← Nat.mul_mod]
      congr 1
      conv_rhs => rw [← hsplit, ho, pow_succ, pow_mul, pow_two]
      ring
    · have h0 : k % 2 = 0 := by omega
      rw [if_neg ho, hpow]
      congr 1
      conv_rhs => rw [← hsplit, h0, add_zero, pow_mul, pow_two]

/-- The loop's result is reduced when the accumulator is. -/
theorem powModLoop_lt (m : Nat) (hm : 0 < m) : ∀ (fuel b k acc : Nat), acc < m → powModLoop m fuel b k acc < m
  | 0, _, _, acc, h => h
  | fuel + 1, b, k, acc, h => by
    rw [powModLoop]
    apply powModLoop_lt m hm fuel
    split
    · exact Nat.mod_lt _ hm
    · exact h

/-- `powMod` is the modular power (R8), for an exponent of at most 256 bits. -/
theorem powMod_eq_pow (a k m : Nat) (hm : 0 < m) (hk : k < 2 ^ 256) : powMod a k m = a ^ k % m := by
  have h1 := powModLoop_mod m 256 (a % m) k (1 % m) hk
  have h2 := powModLoop_lt m hm 256 (a % m) k (1 % m) (Nat.mod_lt _ hm)
  rw [Nat.mod_eq_of_lt h2] at h1
  rw [powMod, h1, Nat.mul_mod, Nat.pow_mod, Nat.mod_mod, Nat.mod_mod, ← Nat.pow_mod, ← Nat.mul_mod, one_mul]

/-- The masked form of the conditional move (R86) has the value of the choice. -/
theorem select_mask (c : Bool) (a b : Word) :
    (a &&& (if c then BitVec.allOnes 256 else 0)) ||| (b &&& ~~~(if c then BitVec.allOnes 256 else 0)) =
      if c then a else b := by
  cases c <;> simp only [Bool.false_eq_true, if_false, if_true]
  · rw [show (~~~(0 : Word)) = BitVec.allOnes 256 from rfl, BitVec.and_allOnes]; simp
  · rw [BitVec.and_allOnes, BitVec.not_allOnes]; simp

end Sys2Proof.Machine
end

