-- ==== Sys2Proof/Laws/PerInstr.lean ====
section
/-! SUPPORT. A statement about every command as syntax, proved per constructor: the encoder keeps to the command's row of
spec/opcode_table.json, its operation code and its must-be-zero bits (R56, R57). -/

namespace Sys2Proof.Laws.EncodeRow

/-- The operation code of the command's row (R56). -/
def opcode : Instr → Nat
  | .mmul _ _ _ _ => 0x01
  | .msqr _ _ _ => 0x02
  | .mred _ _ _ => 0x03
  | .menc _ _ _ => 0x04
  | .minv _ _ _ => 0x05
  | .kinv _ _ => 0x06
  | .cmov _ _ _ _ => 0x10
  | .cneg _ _ _ _ => 0x11
  | .tsel _ _ _ => 0x12
  | .pdbl _ _ => 0x20
  | .padd _ _ _ => 0x21
  | .paddm _ _ _ _ _ _ => 0x22
  | .paff _ _ => 0x23
  | .bmul _ _ => 0x30
  | .smul _ _ _ => 0x31
  | .cmul _ _ _ _ => 0x32
  | .tinit => 0x40

/-- The must-be-zero ranges `(hi, lo)` of the command's row: the entries "fixed" with value 0. -/
def fixedZero : Instr → List (Nat × Nat)
  | .mmul _ _ _ _ => [(11, 1)]
  | .msqr _ _ _ | .mred _ _ _ | .menc _ _ _ | .minv _ _ _ => [(15, 1)]
  | .kinv _ _ => [(15, 0)]
  | .cmov _ _ _ _ => [(0, 0), (11, 3)]
  | .cneg _ _ _ _ => [(15, 3)]
  | .tsel _ _ _ => [(15, 6)]
  | .pdbl _ _ => [(15, 0)]
  | .padd _ _ _ => [(11, 0)]
  | .paddm _ _ _ _ _ _ => [(11, 3)]
  | .paff _ _ => [(15, 0)]
  | .bmul _ _ => [(15, 0)]
  | .smul _ _ _ => [(11, 0)]
  | .cmul _ _ _ _ => [(7, 0)]
  | .tinit => [(23, 0)]

/-- R57: the command's word has its row's operation code, and zero in its row's must-be-zero ranges. -/
def Statement (i : Instr) : Prop :=
  bits (encode i).toNat 31 24 = opcode i ∧ ∀ r ∈ fixedZero i, bits (encode i).toNat r.1 r.2 = 0

/-- The form all the cases share: an assembled word. -/
theorem of_assemble {op : Nat} {rd ra rb rc : Reg} {imm : Nat} {rs : List (Nat × Nat)} (ho : op < 256) (hi : imm < 256)
    (hz : ∀ r ∈ rs, bits (op * 2 ^ 24 + rd.val * 2 ^ 20 + ra.val * 2 ^ 16 + rb.val * 2 ^ 12 + rc.val * 2 ^ 8 + imm) r.1 r.2 = 0) :
    bits (assemble op rd ra rb rc imm).toNat 31 24 = op ∧ ∀ r ∈ rs, bits (assemble op rd ra rb rc imm).toNat r.1 r.2 = 0 := by
  refine ⟨assemble_op _ _ _ _ _ _ ho hi, ?_⟩
  rwa [assemble_toNat _ _ _ _ _ _ ho hi]

theorem mmul (m : ModSel) (rd ra rb : Reg) : Statement (.mmul m rd ra rb) := by
  have := m.bit_lt
  exact of_assemble (by decide) (by omega) (by simp [fixedZero, bits]; omega)

theorem msqr (m : ModSel) (rd ra : Reg) : Statement (.msqr m rd ra) := by
  have := m.bit_lt
  exact of_assemble (by decide) (by omega) (by simp [fixedZero, bits]; omega)

theorem mred (m : ModSel) (rd ra : Reg) : Statement (.mred m rd ra) := by
  have := m.bit_lt
  exact of_assemble (by decide) (by omega) (by simp [fixedZero, bits]; omega)

theorem menc (m : ModSel) (rd ra : Reg) : Statement (.menc m rd ra) := by
  have := m.bit_lt
  exact of_assemble (by decide) (by omega) (by simp [fixedZero, bits]; omega)

theorem minv (m : ModSel) (rd ra : Reg) : Statement (.minv m rd ra) := by
  have := m.bit_lt
  exact of_assemble (by decide) (by omega) (by simp [fixedZero, bits]; omega)

theorem kinv (rd ra : Reg) : Statement (.kinv rd ra) := by
  exact of_assemble (by decide) (by omega) (by simp [fixedZero, bits]; omega)

theorem cmov (cs : Cond) (rd ra rb : Reg) : Statement (.cmov cs rd ra rb) := by
  have := cs.code_lt
  exact of_assemble (by decide) (by omega) (by simp [fixedZero, bits]; omega)

theorem cneg (cs : Cond) (m : ModSel) (rd ra : Reg) : Statement (.cneg cs m rd ra) := by
  have := m.bit_lt
  have := cs.code_lt
  exact of_assemble (by decide) (by omega) (by simp [fixedZero, bits]; omega)

theorem tsel (rd ra : Reg) (col : Fin 64) : Statement (.tsel rd ra col) := by
  exact of_assemble (by decide) (by omega) (by simp [fixedZero, bits]; omega)

theorem pdbl (rd ra : Reg) : Statement (.pdbl rd ra) := by
  exact of_assemble (by decide) (by omega) (by simp [fixedZero, bits]; omega)

theorem padd (rd ra rb : Reg) : Statement (.padd rd ra rb) := by
  exact of_assemble (by decide) (by omega) (by simp [fixedZero, bits]; omega)

theorem paddm (pnz qnz sg : Bool) (rd ra rb : Reg) : Statement (.paddm pnz qnz sg rd ra rb) := by
  have := pnz.toNat_lt
  have := qnz.toNat_lt
  have := sg.toNat_lt
  exact of_assemble (by decide) (by omega) (by simp [fixedZero, bits]; omega)

theorem paff (rd ra : Reg) : Statement (.paff rd ra) := by
  exact of_assemble (by decide) (by omega) (by simp [fixedZero, bits]; omega)

theorem bmul (rd ra : Reg) : Statement (.bmul rd ra) := by
  exact of_assemble (by decide) (by omega) (by simp [fixedZero, bits]; omega)

theorem smul (rd ra rb : Reg) : Statement (.smul rd ra rb) := by
  exact of_assemble (by decide) (by omega) (by simp [fixedZero, bits]; omega)

theorem cmul (rd ra rb rc : Reg) : Statement (.cmul rd ra rb rc) := by
  exact of_assemble (by decide) (by omega) (by simp [fixedZero, bits]; omega)

theorem tinit : Statement .tinit := by
  exact of_assemble (by decide) (by decide) (by simp [fixedZero, bits])

end Sys2Proof.Laws.EncodeRow
end

