-- ==== Sys2Proof/Laws/Table.lean ====
section
/-! SUPPORT. What the masked scan gives, and the recurrence by which R136 builds its rows. -/

namespace Sys2Proof.Machine

/-- The scan over values numbered from `v`. -/
theorem scanFrom_eq (idx : Nat) : ∀ (es : List Nat) (v : Nat),
    scanFrom idx v es = if v ≤ idx then es.getD (idx - v) 0 else 0
  | [], v => by simp [scanFrom]
  | e :: es, v => by
    rw [scanFrom, scanFrom_eq idx es (v + 1)]
    by_cases h : idx = v
    · subst h; simp
    by_cases h2 : v ≤ idx
    · obtain ⟨d, rfl⟩ : ∃ d, idx = v + 1 + d := ⟨idx - (v + 1), by omega⟩
      have : v + 1 + d - v = d + 1 := by omega
      simp [h, h2, this]
    · have : ¬ v + 1 ≤ idx := by omega
      simp [h, h2, this]

/-- The masked scan (R88): the value numbered `idx`, counted from 1, and 0 for any other index. -/
theorem scan_eq (idx : Nat) (es : List Nat) : scan idx es = if 1 ≤ idx then es.getD (idx - 1) 0 else 0 :=
  scanFrom_eq idx es 1

/-- A row needs no more recursion than its number. -/
theorem rowWithin_stable (c : Config.Params) : ∀ (v f : Nat), v ≤ f → rowWithin c f v = rowWithin c v v := by
  intro v
  induction v using Nat.strong_induction_on with
  | _ v ih =>
    intro f hf
    match f, v, hf with
    | 0, 0, _ => rfl
    | f + 1, 0, _ => simp [rowWithin]
    | f + 1, v + 1, hf =>
      by_cases h1 : v = 0
      · subst h1; simp [rowWithin]
      have hd : (v + 1) / 2 < v + 1 := by omega
      have hd' : (v + 1) / 2 ≤ v := by omega
      rw [rowWithin, rowWithin]
      rw [ih _ hd f (by omega), ih _ hd v hd']
      rw [Nat.add_sub_cancel, ih v (by omega) f (by omega)]

/-- R136: `row[1]` is the generator. -/
theorem rowPoint_one (c : Config.Params) : rowPoint c 1 = genJac c := by
  simp [rowPoint, rowWithin]

/-- R136: an even row is the doubling of the row of half its number. -/
theorem rowPoint_even (c : Config.Params) (v : Nat) (h : 1 ≤ v) : rowPoint c (2 * v) = dbl c.field (rowPoint c v) := by
  obtain ⟨w, rfl⟩ : ∃ w, v = w + 1 := ⟨v - 1, by omega⟩
  have h1 : ¬ 2 * w + 2 ≤ 1 := by omega
  have h2 : (2 * w + 2) % 2 = 0 := by omega
  have h3 : (2 * w + 2) / 2 = w + 1 := by omega
  rw [rowPoint, show 2 * (w + 1) = (2 * w + 1) + 1 from rfl, rowWithin, if_neg h1, if_pos h2, h3,
    rowWithin_stable c (w + 1) (2 * w + 1) (by omega), rowPoint]

/-- R136: an odd row adds `row[1]` to the row before it. -/
theorem rowPoint_odd (c : Config.Params) (v : Nat) (h : 1 ≤ v) :
    rowPoint c (2 * v + 1) = (add c.field (rowPoint c (2 * v)) (rowPoint c 1)).1 := by
  have h1 : ¬ 2 * v + 1 ≤ 1 := by omega
  have h2 : ¬ (2 * v + 1) % 2 = 0 := by omega
  rw [rowPoint_one, rowPoint, rowWithin, if_neg h1, if_neg h2]
  rfl

/-- Entry `v` of column `j` of the built table (R17, R136). -/
theorem baseTable_entry (c : Config.Params) (j v : Nat) (hj : j < 37) (hv : v < 64) :
    (baseTable c)[j][v] = baseEntry c j (v + 1) := by
  simp [baseTable]

end Sys2Proof.Machine
end

