-- ==== Sys2Proof/Laws/Point.lean ====
section
/-! SUPPORT. The standard-form residue `std` of each field primitive's result, what "invertible" means in R20 for a prime
modulus, and the scan `Sel(j, idx)` as a look-up. -/

namespace Sys2Proof.Safety

open Sys2Proof.Machine

variable {e : Config.Engine}

/-- `std` is the multiplier's own exit from the Montgomery domain, `MontMul(a, 1)` (R20). -/
theorem std_eq_montMul_one (a : Nat) : std e a = (montMul e a 1 : Nat) := by
  simp [std, montMul_cast]

theorem std_fMul (a b : Nat) : std e (fMul e a b) = std e a * std e b := by
  simp only [std, fMul, montMul_cast]; ring

theorem std_fSqr (a : Nat) : std e (fSqr e a) = std e a ^ 2 := by
  simp only [std, fSqr, montMul_cast]; ring

theorem std_fAdd (a b : Nat) : std e (fAdd e a b) = std e a + std e b := by
  simp only [std, fAdd_cast]; ring

theorem std_fDouble (a : Nat) : std e (fDouble e a) = 2 * std e a := by
  rw [fDouble, std_fAdd]; ring

theorem std_fSub (h : 0 < e.m) (a b : Nat) : std e (fSub e a b) = std e a - std e b := by
  simp only [std, fSub_cast _ _ _ h]; ring

theorem std_negMod (h : 0 < e.m) (a : Nat) : std e (negMod e a) = -std e a := by
  simp only [std, negMod_cast _ _ h]; ring

/-- `RINV` is invertible (R2). -/
theorem isUnit_rinv (h1 : 1 < e.m) (h : e.rinv * Config.radix % e.m = 1) : IsUnit (e.rinv : ZMod e.m) := by
  refine IsUnit.of_mul_eq_one (Config.radix : ZMod e.m) ?_
  rw [← Nat.cast_mul, ← Nat.cast_one, ZMod.natCast_eq_natCast_iff, Nat.ModEq, h, Nat.mod_eq_of_lt h1]

/-- R20's side condition: for a prime modulus `Z` is invertible exactly if `Z mod P != 0`. -/
theorem isUnit_std_iff (hp : Nat.Prime e.m) (h : e.rinv * Config.radix % e.m = 1) (a : Nat) :
    IsUnit (std e a) ↔ a % e.m ≠ 0 := by
  have : Fact (Nat.Prime e.m) := ⟨hp⟩
  rw [std, IsUnit.mul_iff, and_iff_left (isUnit_rinv hp.one_lt h), isUnit_iff_ne_zero, Ne, ZMod.natCast_eq_zero_iff,
    Nat.dvd_iff_mod_eq_zero]

/-- The machine's scan of a column is the look-up `Sel(j, idx)` (R88, R112). -/
theorem tableSelect_eq_entryOf (t : Table) (j idx : Nat) (hj : j < 37) : tableSelect t j idx = entryOf t j idx := by
  unfold tableSelect entryOf columnEntries
  rw [dif_pos hj]
  simp only [scan_eq]
  by_cases h1 : 1 ≤ idx
  · by_cases h2 : idx - 1 < 64
    · have : idx ≤ 64 := by omega
      simp [h1, h2, hj, this]
    · have : ¬ idx ≤ 64 := by omega
      simp [h1, h2, hj, this]
  · simp [h1]

end Sys2Proof.Safety
end

