-- ==== Sys2Proof/Laws/Step.lean ====
section
/-! SUPPORT. What issuing a word, an aperture access and a step can answer, said once. -/

namespace Sys2Proof.Machine

/-- Everything that issuing a word can do (R148): it always answers a next state, which is the old one (sticky fault), the
old one with a fault raised, or the decoded command's. -/
theorem issue_cases {cw : CmdWord} {s : State} {o : Host.Outcome State Fault Refusal} (h : issue cw s = o) :
    (s.faulted = true ∧ o = .next s) ∨
    (s.faulted = false ∧ ∃ c, (c = .illop ∨ c = .rsvd) ∧ o = .next (raiseFault c cw s)) ∨
    (s.faulted = false ∧ ∃ i, decode cw = .ok i ∧ o = exec i s) := by
  unfold issue at h
  cases hf : s.faulted
  · rw [hf] at h
    simp only [Bool.false_eq_true, if_false] at h
    cases hd : decode cw with
    | error e => cases e <;> rw [hd] at h <;> exact .inr (.inl ⟨rfl, _, by simp, h.symm⟩)
    | ok i => rw [hd] at h; exact .inr (.inr ⟨rfl, i, rfl, h.symm⟩)
  · rw [hf] at h
    exact .inl ⟨rfl, by simpa using h.symm⟩

/-- Everything that a host write can answer (R32): a bus error, bytes into one register, an issued word, or nothing. -/
theorem memWrite_cases {s : State} {addr n : Nat} {v : BusWord} {o : Host.Outcome State Fault Refusal}
    (h : memWrite s addr n v = o) :
    (admitted addr n = none ∧ o = .refused (.busError addr n)) ∨
    (∃ r, admitted addr n = some r ∧
      ((∃ i, r.item = .reg i ∧ o = .next (s.setReg i (putBytes (s.reg i) (addr - r.base) n v.toNat))) ∨
       (r.item = .cmd ∧ o = issue (BitVec.ofNat 32 v.toNat) s) ∨
       (r.item ≠ .cmd ∧ (∀ i, r.item ≠ .reg i) ∧ o = .next s))) := by
  unfold memWrite at h
  cases ha : admitted addr n with
  | none => rw [ha] at h; exact .inl ⟨rfl, h.symm⟩
  | some r =>
    rw [ha] at h
    refine .inr ⟨r, rfl, ?_⟩
    cases hi : r.item <;> simp only [hi] at h <;> subst h <;> simp

/-- Everything that one step can be: idle, a host read, a host write, or the reset signal. -/
theorem step_cases (s : State) :
    (s.host = [] ∧ step s = .next s) ∨
    (∃ addr n rest, s.host = .read addr n :: rest ∧ step s = hostRead { s with host := rest } addr n) ∨
    (∃ addr n v rest, s.host = .write addr n v :: rest ∧ step s = memWrite { s with host := rest } addr n v) ∨
    (∃ rest, s.host = .reset :: rest ∧ step s = .next (takeReset { s with host := rest })) := by
  unfold step nextAction
  cases hh : s.host with
  | nil => exact .inl ⟨rfl, rfl⟩
  | cons a rest =>
    refine .inr ?_
    cases a with
    | read addr n => exact .inl ⟨addr, n, rest, rfl, rfl⟩
    | write addr n v => exact .inr (.inl ⟨addr, n, v, rest, rfl, rfl⟩)
    | reset => exact .inr (.inr ⟨rest, rfl, rfl⟩)

/-- A host read that answers a next state changes nothing but the record of replies (R31). -/
theorem hostRead_next {s t : State} {addr n : Nat} (h : hostRead s addr n = .next t) :
    ∃ v, memRead s addr n = some v ∧ t = { s with replies := s.replies ++ [v] } := by
  unfold hostRead at h
  cases hm : memRead s addr n with
  | none => rw [hm] at h; simp at h
  | some v => rw [hm] at h; exact ⟨v, rfl, by simpa using h.symm⟩

end Sys2Proof.Machine
end

