-- ==== Sys2Proof/Tests/Slice0.lean ====
section
/-! SUPPORT. The model's own tests. Expected values come from spec/95_test_vectors.md (the section is named at each group) or
from the rule named; the words are written out from the encoding line of each command's rule. The last part shows, for every
statement with hypotheses, a state and operands that meet them all. -/

namespace Sys2Proof.Tests


open Sys2Proof.Machine Sys2Proof.Safety

/-! Helpers. -/

/-- The reset state with the first registers set, in order from `R[0]`. -/
def stateOf (rs : List Nat) : State :=
  { State.reset with regs := Vector.ofFn fun i => BitVec.ofNat 256 (rs.getD i.val 0) }

/-- The same after TINIT (R134). -/
def builtOf (rs : List Nat) : State :=
  { stateOf rs with tab := baseTable Config.sm2, trdy := true }

/-- A view of the next state, if there is one. -/
def after {α : Type} (o : Host.Outcome State Fault Refusal) (f : State → α) : Option α :=
  match o with
  | .next t => some (f t)
  | .fault _ => none
  | .refused _ => none

/-- The registers `i` to `i + n - 1` after a command. -/
def regsAfter (i : Instr) (s : State) (r n : Nat) : Option (List Nat) :=
  after (exec i s) fun t => (List.range n).map fun k => t.val (r + k)

/-- STATUS and ECMD after issuing a word. -/
def statusAfter (cw : CmdWord) (s : State) : Option (CmdWord × CmdWord) :=
  after (issue cw s) fun t => (t.statusWord, t.ecmd)

/-- The fixed operand `a` of 95_test_vectors.md. -/
def opA : Nat := 0x123456789ABCDEF0123456789ABCDEF0123456789ABCDEF0123456789ABCDEF

/-- The fixed operand `b` of 95_test_vectors.md. -/
def opB : Nat := 0xFEDCBA9876543210FEDCBA9876543210FEDCBA9876543210FEDCBA9876543210

/-- `Gj.X` (95_test_vectors.md section 2.3). -/
def gjX : Nat := 0x91167A5EE1C13B05D6A1ED99AC24C3C33E7981EDDCA6C05061328990F418029E

/-- `Gj.Y`. -/
def gjY : Nat := 0x63CD65D481D735BD8D4CFB066E2A48F8C1F5E5788D3295FAC1354E593C2D0DDD

/-- `Gj.Z = ONE_P`. -/
def oneP : Nat := 0x100000000000000000000000000000000FFFFFFFF0000000000000001

/-- `PDBL(Gj).X`. -/
def dblX : Nat := 0x398874C476A3B1F77AEF3E862601440903243D78D5B614A62EDA8381E63C48D6

/-- `PDBL(Gj).Y`. -/
def dblY : Nat := 0x1FBBDFDDDAF4FD475A86A7AE64921D4829F04A88F6CF4DC128385681C1A73E40

/-- `PDBL(Gj).Z`. -/
def dblZ : Nat := 0xC79ACBA903AE6B7B1A99F60CDC5491F183EBCAF11A652BF5826A9CB2785A1BBA

/-- `Q.x`, the sample point (section 2.5). -/
def qX : Nat := 0x344081B80805540A38D71D721BD072D8957EAE15AEB852E72086AB4C5962B89B

/-- `Q.y`. -/
def qY : Nat := 0x5BB8628B9D9C4EDD30F341A5A25886C063CFF46DC04C7E68F2EFB3B58830E0F3

/-- The x coordinate of `2 * G` (section 2.3). -/
def twoGX : Nat := 0x56CEFD60D7C87C000D58EF57FA73BA4D9C0DFA08C08A7331495C2E1DA3F2BD52

/-- The y coordinate of `2 * G`. -/
def twoGY : Nat := 0x31B7E7E6CC8189F668535CE0F8EAF1BD6DE84C182F6C8E716F780D3A970A23C3

/-! Decoding (95_test_vectors.md section 2.7): one word per command, the fields written out as bits `op rd ra rb rc imm`. -/

theorem test_decode_mmul :
    decode 0b00000001001000000001000000000000 = .ok (.mmul .p 2 0 1) ∧
    decode 0b00000001101110011010000000000001 = .ok (.mmul .n 11 9 10) := by
  decide +kernel

theorem test_decode_msqr :
    decode 0b00000010000100000000000000000001 = .ok (.msqr .n 1 0) := by
  decide +kernel

theorem test_decode_mred :
    decode 0b00000011000100000000000000000000 = .ok (.mred .p 1 0) := by
  decide +kernel

theorem test_decode_menc :
    decode 0b00000100000100000000000000000000 = .ok (.menc .p 1 0) := by
  decide +kernel

theorem test_decode_minv :
    decode 0b00000101000100000000000000000001 = .ok (.minv .n 1 0) := by
  decide +kernel

theorem test_decode_kinv :
    decode 0b00000110000100000000000000000000 = .ok (.kinv 1 0) := by
  decide +kernel

theorem test_decode_cmov :
    decode 0b00010000011010010110000000000100 = .ok (.cmov .eq 6 9 6) ∧
    decode 0b00010000001100000000000000000010 = .ok (Instr.mov 3 0) := by
  decide +kernel

theorem test_decode_cneg :
    decode 0b00010001010101010000000000000010 = .ok (Instr.fneg 5 5) ∧
    decode 0b00010001000100000000000000000111 = .ok (.cneg .inf .n 1 0) := by
  decide +kernel

theorem test_decode_tsel :
    decode 0b00010010010000000000000000100100 = .ok (.tsel 4 0 36) := by
  decide +kernel

theorem test_decode_pdbl :
    decode 0b00100000001100000000000000000000 = .ok (.pdbl 3 0) := by
  decide +kernel

theorem test_decode_padd :
    decode 0b00100001011000110000000000000000 = .ok (.padd 6 3 0) := by
  decide +kernel

theorem test_decode_paddm :
    decode 0b00100010011000110000000000000110 = .ok (.paddm true true false 6 3 0) ∧
    decode 0b00100010110100001110000000000110 = .ok (.paddm true true false 13 0 14) := by
  decide +kernel

theorem test_decode_paff :
    decode 0b00100011100100110000000000000000 = .ok (.paff 9 3) := by
  decide +kernel

theorem test_decode_bmul :
    decode 0b00110000001000000000000000000000 = .ok (.bmul 2 0) := by
  decide +kernel

theorem test_decode_smul :
    decode 0b00110001010000000010000000000000 = .ok (.smul 4 0 2) := by
  decide +kernel

theorem test_decode_cmul :
    decode 0b00110010011000000001001000000000 = .ok (.cmul 6 0 1 2) ∧
    decode 0b00110010111011111111111000000000 = .ok (.cmul 14 15 15 14) := by
  decide +kernel

theorem test_decode_tinit :
    decode 0b01000000000000000000000000000000 = .ok (.tinit) := by
  decide +kernel

/-- One modulus bit is the only difference of the two spellings of a multiplication (R55, R60). -/
theorem test_pseudo_commands :
    [Instr.fmul 2 0 1, .nmul 2 0 1, .fsqr 2 0, .nsqr 2 0, .nneg 2 0, .finv 2 0, .ninv 2 0].map encode =
      [0x01201000, 0x01201001, 0x02200000, 0x02200001, 0x11200003, 0x05200000, 0x05200001] := by
  decide +kernel

/-- The encoder writes the words of section 2.7. -/
theorem test_encode :
    [Instr.mmul .n 11 9 10, .cmov .eq 6 9 6, .tsel 4 0 36, .paddm true true false 13 0 14, .cmul 14 15 15 14].map encode =
      [0x01B9A001, 0x10696004, 0x12400024, 0x22D0E006, 0x32EFFE00] := by
  decide +kernel

/-- The assembler column of section 2.7 (R59). -/
theorem test_assembler :
    [Instr.mmul .p 2 0 1, .cmov .eq 6 9 6, .cneg .inf .n 1 0, .tsel 4 0 36, .paddm true true false 6 3 0, .tinit].map asm =
      ["MMUL.P r2, r0, r1", "CMOV r6, r9, r6, EQ", "CNEG.N r1, r0, INF", "TSEL r4, r0, 36", "PADDM r6, r3, r0, 6", "TINIT"] := by
  decide +kernel

/-- Words that are no command (R57): the first five are ILLOP, the others RSVD. -/
theorem test_decode_refuses :
    [0x00000000, 0xFF000000, 0x07100000, 0x13000000, 0x41000000, 0x01201F00, 0x010F0002, 0x06100001, 0x02101000, 0x40000001,
      0x40100000, 0x10000008, 0x10000001, 0x22630008, 0x12400040, 0x20300100].map decode =
      List.replicate 5 (.error .illop) ++ List.replicate 11 (.error .rsvd) := by
  decide +kernel

/-- The table word of the host's numbering is the bus word itself. -/
theorem test_table_word : decodeTableWord 32 0x31402000 = some (.smul 4 0 2) ∧ decodeTableWord 32 0x41000000 = none := by
  decide +kernel

/-! WellFormed: for each check a command that it refuses, and the highest group that it accepts (R54, R146). -/

theorem test_wf_refuses :
    [Instr.tsel 15 0 0, .pdbl 14 0, .pdbl 0 14, .padd 14 0 0, .padd 0 14 0, .padd 0 0 14, .paddm true true true 14 0 0,
      .paddm true true true 0 14 0, .paddm true true true 0 0 15, .paff 15 0, .paff 0 14, .bmul 15 0, .smul 15 0 0,
      .smul 0 0 15, .cmul 15 0 0 0, .cmul 0 0 0 15, .tsel 0 0 37, .tsel 0 0 63].map Instr.wf = List.replicate 18 false := by
  decide +kernel

theorem test_wf_accepts :
    [Instr.mmul .p 15 15 15, .cmov .t 15 15 15, .tsel 14 15 36, .pdbl 13 13, .padd 13 13 13, .paddm true true true 13 13 14,
      .paff 14 13, .bmul 14 15, .smul 14 15 14, .cmul 14 15 15 14, .tinit].all Instr.wf = true := by
  decide +kernel

/-! Faults (section 2.7): STATUS and ECMD after each word, from the reset state, then with the table built. -/

theorem test_faults_decode :
    [0x00000000, 0xFF000000, 0x07100000, 0x13000000, 0x41000000, 0x01201F00, 0x010F0002, 0x06100001, 0x02101000, 0x40000001, 0x40100000].map (fun cw => statusAfter cw State.reset) =
      [some (0x0100, 0x00000000), some (0x0100, 0xFF000000), some (0x0100, 0x07100000), some (0x0100, 0x13000000), some (0x0100, 0x41000000), some (0x0200, 0x01201F00), some (0x0200, 0x010F0002), some (0x0200, 0x06100001), some (0x0200, 0x02101000), some (0x0200, 0x40000001), some (0x0200, 0x40100000)] := by
  decide +kernel

theorem test_faults_register_group :
    [0x10000008, 0x10000001, 0x22630008, 0x12400040, 0x20300100, 0x20E00000, 0x200E0000, 0x23F00000, 0x230E0000, 0x2200F006].map (fun cw => statusAfter cw State.reset) =
      [some (0x0200, 0x10000008), some (0x0200, 0x10000001), some (0x0200, 0x22630008), some (0x0200, 0x12400040), some (0x0200, 0x20300100), some (0x0300, 0x20E00000), some (0x0300, 0x200E0000), some (0x0300, 0x23F00000), some (0x0300, 0x230E0000), some (0x0300, 0x2200F006)] := by
  decide +kernel

theorem test_faults_column_and_table :
    [0x31F00000, 0x3160F000, 0x32601F00, 0x12F00025, 0x30F00000, 0x12E00025, 0x30200000, 0x12400024, 0x32601200].map (fun cw => statusAfter cw State.reset) =
      [some (0x0300, 0x31F00000), some (0x0300, 0x3160F000), some (0x0300, 0x32601F00), some (0x0300, 0x12F00025), some (0x0300, 0x30F00000), some (0x0400, 0x12E00025), some (0x0500, 0x30200000), some (0x0500, 0x12400024), some (0x0500, 0x32601200)] := by
  decide +kernel

theorem test_faults_built :
    [0x12400025, 0x1240003F, 0x40000000].map (fun cw => statusAfter cw (builtOf [])) =
      [some (0x0401, 0x12400025), some (0x0401, 0x1240003F), some (0x0601, 0x40000000)] := by
  decide +kernel

/-- A latched fault discards every later word (R149) and leaves the register window working. -/
theorem test_fault_sticky :
    statusAfter 0x01201000 { State.reset with err := 3, ecmd := 0x20E00000 } = some (0x300, 0x20E00000) ∧
    after (memWrite { State.reset with err := 3 } 0 8 7) (fun t => t.val 0) = some (7 * 2 ^ 192) := by
  decide +kernel

/-! The reset signal (R165 to R167). -/

theorem test_reset_signal :
    after (step { builtOf [] with err := 6, ecmd := 0x40000000, host := [.reset] })
      (fun t => (t.statusWord, t.ecmd, t.host)) = some (0, 0, []) := by
  decide +kernel

/-! The multiplier and reducer (section 2.1). -/

theorem test_mmul_p : regsAfter (.mmul .p 2 0 1) (stateOf [opA, opB]) 2 1 =
    some [0xEF38B8DA2163D60450290553F91A3FEB83BE9B0AC04B681EBBDACD6DFD807F75] := by
  decide +kernel

theorem test_mmul_n_source_is_destination : regsAfter (.mmul .n 1 0 1) (stateOf [opA, opB]) 1 1 =
    some [0x2FB895FC2B2A9AE608F34B37CA97CFFC1F24892F257C8489C17E7F3F24AFFA4C] := by
  decide +kernel

theorem test_msqr_p : regsAfter (.msqr .p 1 0) (stateOf [opB]) 1 1 =
    some [0x51A1BB36BFE3D80A6828E635B2B3B02457D8B8060EC7EF79C5DA1AB547E70A31] := by
  decide +kernel

theorem test_msqr_n : regsAfter (.msqr .n 0 0) (stateOf [opB]) 0 1 =
    some [0xD086DC623CB6411E98EE526C1F12F8E07C95C3FFC93DE06C93182759DBCBAF67] := by
  decide +kernel

theorem test_mred_p : regsAfter (.mred .p 1 0) (stateOf [2 ^ 256 - 1]) 1 1 =
    some [0x3FFFFFFFA00000003FFFFFFFD00000001FFFFFFFA00000006FFFFFFFC] := by
  decide +kernel

theorem test_mred_n : regsAfter (.mred .n 1 0) (stateOf [opA]) 1 1 =
    some [0x9229A495DDE0F566FAE941F3EDCDBDCA1DFC20895A963DFE958CA4045C4382DD] := by
  decide +kernel

theorem test_menc_p : regsAfter (.menc .p 1 0) (stateOf [Config.sm2.field.m - 1]) 1 1 =
    some [0xFFFFFFFDFFFFFFFFFFFFFFFFFFFFFFFFFFFFFFFE00000001FFFFFFFFFFFFFFFE] := by
  decide +kernel

theorem test_menc_n : regsAfter (.menc .n 1 0) (stateOf [opB]) 1 1 =
    some [0xA0FB9B1150DE0A6464999D9AD129CFDA54DBE4BB75E386E1E45E47BE768A38F4] := by
  decide +kernel

/-- The four word-serial steps of the example for the modulus `N` (R77). -/
theorem test_word_serial :
    let e := Config.sm2.order
    let t1 := redcStep e (opA * opB)
    let t2 := redcStep e t1
    let t3 := redcStep e t2
    t1 = 0x121FA00AD77D742247ACC9140513B7447D39F21D32A9FA6C1A967FB60C0E73F3B0776919DEDB98638F07C064F1002CD8EB20FF931E37158 ∧
    t2 = 0x121FA00AD77D742247ACC9140513B745403D2163A2151EA4E8282C360C0E73F3444E981B50F6068C8830EB7C54BFFD6 ∧
    t3 = 0x121FA00AD77D742B53CAAD6CA97CFFC38FB5F483A2151E9FE392A138D5478092E2E2DEADA658E43 ∧
    redcStep e t3 = 0x2FB895FC2B2A9AE608F34B37CA97CFFC1F24892F257C8489C17E7F3F24AFFA4C ∧
    redcMul e opA opB = montMul e opA opB := by
  decide +kernel

/-! Inversion (section 2.4). -/

theorem test_minv_p : after (exec (.minv .p 1 0) (stateOf [opA])) (fun t => (t.val 1, t.zr)) =
    some (0x61B510D699152F1800AA9AA01CF155F2A09B90E7DD7CD919995E3A7D7D52A1BA, false) := by
  decide +kernel

theorem test_minv_n_zero : after (exec (.minv .n 1 0) (stateOf [Config.sm2.order.m])) (fun t => (t.val 1, t.zr)) =
    some (0x0, true) := by
  decide +kernel

theorem test_kinv : after (exec (.kinv 1 0) (stateOf [Config.sm2.order.m + 2])) (fun t => (t.val 1, t.zr)) =
    some (0x7FFFFFFF7FFFFFFFFFFFFFFFFFFFFFFFB901EFB590E30295A9DDFA049CEAA092, false) := by
  decide +kernel

theorem test_kinv_zero : after (exec (.kinv 1 0) (stateOf [Config.sm2.order.m])) (fun t => (t.val 1, t.zr)) =
    some (0x0, true) := by
  decide +kernel

/-- The two chains on the operand `a` (R133, R135). -/
theorem test_chains :
    chainP Config.sm2.field opA = 0x61B510D699152F1800AA9AA01CF155F2A09B90E7DD7CD919995E3A7D7D52A1BA ∧
    chainN Config.sm2.order opA = 0xD24D2B2317B9D64B21E72676E2AAF954AA7D8723A841C6F67C5B809B48DF4A66 := by
  decide +kernel

/-! Selection (section 2.2). -/

theorem test_cmov_taken : regsAfter (.cmov .eq 2 0 1) { stateOf [2 ^ 256 - 1, opA] with eq := true } 2 1 =
    some [0xFFFFFFFFFFFFFFFFFFFFFFFFFFFFFFFFFFFFFFFFFFFFFFFFFFFFFFFFFFFFFFFF] := by
  decide +kernel

theorem test_cmov_not_taken : regsAfter (.cmov .inf 2 0 1) { stateOf [opB, opA] with eq := true } 2 1 =
    some [opA] := by
  decide +kernel

theorem test_cneg_taken : regsAfter (.cneg .inf .n 1 0) { stateOf [opA] with inf := true } 1 1 =
    some [0xFEDCBA9776543210FEDCBA987654321070E09A03981A373C5298AEA1B0297334] := by
  decide +kernel

theorem test_cneg_not_taken : regsAfter (.cneg .f .p 1 0) (stateOf [2 ^ 256 - 1]) 1 1 =
    some [0xFFFFFFFFFFFFFFFFFFFFFFFFFFFFFFFFFFFFFFFFFFFFFFFFFFFFFFFFFFFFFFFF] := by
  decide +kernel

theorem test_tsel : regsAfter (.tsel 4 0 1) (builtOf [1]) 4 2 =
    some [0xE3F6205A5EA4BDE3B24B38F3E66F3F11BA4F98A14886F31607E6CE4D033FC12A, 0x4EDA7E2A7E4F781ADEF6625B533A61D62C9B44579549F3B100705387A77B998F] := by
  decide +kernel

theorem test_tsel_past_column : regsAfter (.tsel 4 0 0) (builtOf [0x41, 0, 0, 0, 5, 5]) 4 2 =
    some [0x0, 0x0] := by
  decide +kernel

/-! Points (section 2.3). -/

theorem test_pdbl : regsAfter (.pdbl 3 0) (stateOf [gjX, gjY, oneP]) 3 3 =
    some [dblX, dblY, dblZ] := by
  decide +kernel

theorem test_pdbl_in_place : regsAfter (.pdbl 0 0) (stateOf [gjX, gjY, 0]) 0 3 =
    some [0x71694B579D585E57686860B7375EF1F2B3739FE34FABFFBB7B066D43F26D9AA6, 0x8D00A38622562670F5610B3ED3C8A71F1166ACA4BFD4072A6AFF1ACA81B9FF43, 0x0] := by
  decide +kernel

theorem test_padd : after (exec (.padd 6 3 0) (stateOf [gjX, gjY, oneP, dblX, dblY, dblZ]))
    (fun t => (t.val 6, t.val 7, t.val 8, t.eq)) =
    some (0x3015AD2077C8C0285DD76FBCBDF037E43C51EB40C7C50ABC05294C0F53498D0E, 0xE9820AA621E5EEFA79C8E08E8318FD4B6105675639DBD3C4F2BF4476840E8CC3, 0x1C2DEDA406BDE8B1FD3DF0526FC9721DA7CD6CD38110D4BDAE8EE33CD3D64CCE, false) := by
  decide +kernel

theorem test_padd_equal_operands : after (exec (.padd 6 3 0) (stateOf [0x2B31F3520BDEC391F5D03401CF971E1119DDB0488C48C7CB7DEF6F27D658417C, 0xBB4AB8F366153D8DFE969223CAA5A176B5110C0CF1B33B405707419261FFC519, 0x500000000000000000000000000000004FFFFFFFB0000000000000005, gjX, gjY, oneP]))
    (fun t => (t.val 6, t.val 7, t.val 8, t.eq)) =
    some (0x0, 0x0, 0x0, true) := by
  decide +kernel

theorem test_paddm_subtracts : regsAfter (.paddm true true true 6 3 0) (stateOf [gjX, gjY, oneP, dblX, dblY, dblZ]) 6 3 =
    some [0x1FE0AF58B6B542123457E5427997ECEEBCB3722C898A309B39053F8861ABF9EA, 0x74E78B2631E7D518D6433D84F70CD25ADEC8AE291081958E6EB569C5DA004524, 0x1C2DEDA406BDE8B1FD3DF0526FC9721DA7CD6CD38110D4BDAE8EE33CD3D64CCE] := by
  decide +kernel

/-- `pnz = 0` wins over `qnz = 0` (R98): the addend alone, negated. -/
theorem test_paddm_selects : regsAfter (.paddm false false true 6 3 0) (stateOf [gjX, gjY, oneP, dblX, dblY, dblZ]) 6 3 =
    some [gjX, 0x9C329A2A7E28CA4272B304F991D5B7073E0A1A8672CD6A063ECAB1A6C3D2F222, oneP] := by
  decide +kernel

theorem test_paff : after (exec (.paff 9 3) (stateOf [0, 0, 0, dblX, dblY, dblZ]))
    (fun t => (t.val 9, t.val 10, t.inf)) =
    some (twoGX, twoGY, false) := by
  decide +kernel

theorem test_paff_identity : after (exec (.paff 9 0) (stateOf [gjX, gjY, Config.sm2.field.m]))
    (fun t => (t.val 9, t.val 10, t.inf)) =
    some (0x0, 0x0, true) := by
  decide +kernel

/-! Scalar multiplication and the table (sections 2.2, 2.5, 2.6). -/

theorem test_bmul : after (exec (.bmul 2 0) (builtOf [0x40]))
    (fun t => (t.val 2, t.val 3, t.inf)) =
    some (0x97662389F36CE643A47DCF644F700651E988794843797B0C4A69C806E78615C2, 0xCD4D9449AEA5CAC5328B8D67D4AE956F5EB06C4515FF01BD17EEF58BF866B33F, false) := by
  decide +kernel

theorem test_bmul_zero : after (exec (.bmul 2 0) (builtOf [Config.sm2.order.m]))
    (fun t => (t.val 2, t.val 3, t.inf)) =
    some (0x0, 0x0, true) := by
  decide +kernel

/-- The one scalar whose last addition has equal operands (R120). -/
theorem test_smul_equal_case : after (exec (.smul 4 0 2) (stateOf [Config.sm2.order.m - 6, 0, qX, qY]))
    (fun t => (t.val 4, t.val 5, t.inf)) =
    some (0x134407E91367E2FDE9F83E98AE596B4987C2B0D483E339A470B85A31FCC3AA13, 0x50C8F5A8278B7A3E001C13B2002F1DB78C15BDFD88672C0B931EEB5BB1EBD5D1, false) := by
  decide +kernel

theorem test_smul_off_curve : after (exec (.smul 4 0 2) (stateOf [2, 0, 2 ^ 256 - 1, 2 ^ 256 - 1]))
    (fun t => (t.val 4, t.val 5, t.inf)) =
    some (0xDC28F5C491EB852428F5C28FD47AE14B4A3D70A1A8F5C29470A3D70DF851EB85, 0x6C0830FAA395810A94FDF39B0418935C4ED91678A1CAC09416872AE2D1A9FBC1, false) := by
  decide +kernel

theorem test_cmul : after (exec (.cmul 6 0 1 2) (builtOf [1, 1, qX, qY]))
    (fun t => (t.val 6, t.val 7, t.inf)) =
    some (0x11A1FC8EF9C69B7BF339CEA6DBD4AA1A956C70385C890A3EC5593BB5308DBB86, 0xB755DFC49CA3A1FE11DD7FEF1438092908ADD3B24D6B3290A0A2843809950ACA, false) := by
  decide +kernel

/-- Two partial results that are one point (R117): `G + G = 2 * G`. -/
theorem test_cmul_equal_terms : after (exec (.cmul 6 0 1 2) (builtOf [1, 1, Config.sm2.gx, Config.sm2.gy]))
    (fun t => (t.val 6, t.val 7, t.inf)) =
    some (twoGX, twoGY, false) := by
  decide +kernel

/-- `TAB[5][17]` after TINIT. -/
theorem test_tinit_entry : after (exec .tinit State.reset) (fun t => (t.trdy, t.tab[5][16].x.toNat, t.tab[5][16].y.toNat)) =
    some (true, 0x135D5A8C15CA6087ED03D415D356B3B64117F50237A2A0953AD52D72FBD7D35A, 0xF24513CF69939F56E0E66378A55E9EF0660E5CD0AFB4787DFBABA41FEF5DCA2A) := by
  decide +kernel

/-- `TAB[36][64]` after TINIT, the last entry. -/
theorem test_tinit_last_entry : after (exec .tinit State.reset) (fun t => (t.tab[36][63].x.toNat, t.tab[36][63].y.toNat)) =
    some (0xA90AF2A44A00C5A6B6D681C4E72843A0475A78F4C9F0E98D23FC5DDF1510A406, 0x79ABFC10BE24A4D52BC0642BAD11092560F9C0E2E7F5D70395FC6D45A34F4412) := by
  decide +kernel

/-- Digits of `0x3FFF` with `w = 7`, of `N - 6` with `w = 5`, and the top digit of `N - 1` (section 2.6). -/
theorem test_booth :
    (List.range 4).map (booth 0x3FFF 7) = [(true, 1), (true, 0), (false, 1), (false, 0)] ∧
    booth (Config.sm2.order.m - 6) 5 0 = (true, 3) ∧ booth (Config.sm2.order.m - 1) 7 36 = (false, 16) := by
  decide +kernel

/-! The aperture (R30 to R37). -/

/-- A byte write reaches the named byte of the register; a wider read sees it in big-endian order. -/
theorem test_write_byte : after (memWrite State.reset 0x3F 1 0xAB) (fun t => (t.val 1, memRead t 0x3C 4)) =
    some (0xAB, some 0xAB) := by
  decide +kernel

/-- Limb 0 of a register is its last eight bytes (R33). -/
theorem test_read_limb : memRead (stateOf [opA, 0x0102030405060708]) 0x38 8 = some 0x0102030405060708 := by
  decide +kernel

/-- Inadmissible accesses (R35 to R37): misaligned, across two items, a narrow access of STATUS, past the map. -/
theorem test_bus_errors :
    [memRead State.reset 1 2, memRead State.reset 0x204 8, memRead State.reset 0x204 1, memRead State.reset 0x20C 4,
      memRead State.reset 0x3C4 4, memRead State.reset 0 3] = List.replicate 6 none := by
  decide +kernel

/-- BITS and the first limb of P in the PARAM window (R18). -/
theorem test_param_window : memRead State.reset 0x3C0 4 = some 0x100 ∧ memRead State.reset 0x300 8 = some 0xFFFFFFFEFFFFFFFF := by
  decide +kernel

/-! A step (R40, R51, R52). -/

/-- A word placed where the next step takes it is the command that runs. -/
theorem test_step_runs_word :
    after (step ((stateOf [5, 7]).withFetchWord 32 0x10200000)) (fun t => (t.val 2, t.host)) = some (5, []) := by
  decide +kernel

/-- A read replies and consumes its action only. -/
theorem test_step_read :
    after (step { State.reset with host := [.read 0x3C0 4, .reset] }) (fun t => (t.replies, t.host)) =
      some ([0x100], [.reset]) := by
  decide +kernel

/-! Witnesses: for every statement with hypotheses, a state and operands that meet all of them. -/

/-- R166: the reset signal pending; the last byte of the last constant; a step with TRDY and a fault that is no reset. -/
theorem test_witness_ResetAloneClearsStatus :
    ({ builtOf [] with host := [.reset] } : State).host = .reset :: [] ∧
    (params[5]? = some Config.sm2.gy ∧ 31 < 32) ∧
    (∃ s t : State, step s = .next t ∧ s.host.head? ≠ some .reset ∧ s.trdy = true ∧ s.err ≠ 0) :=
  ⟨rfl, by decide, { builtOf [] with err := 6 }, _, rfl, by decide, rfl, by decide⟩

/-- A state with the invariant and a built table whose next step is a command. -/
theorem test_witness_StepKeepsInvariant :
    ∃ s t : State, Inv s ∧ s.trdy = true ∧ step s = .next t ∧ t.err = 6 :=
  ⟨(builtOf []).withFetchWord 32 0x40000000, _, ⟨by unfold ErrLegal; decide, fun _ => rfl, fun _ => rfl⟩, rfl, rfl, rfl⟩

/-- Both clauses: a step with the table built, and the step that builds it. -/
theorem test_witness_TableIsWrittenOnceBetweenResets :
    (∃ s t : State, step s = .next t ∧ s.host.head? ≠ some .reset ∧ s.trdy = true) ∧
    (∃ s t : State, step s = .next t ∧ s.host.head? ≠ some .reset ∧ s.trdy = false ∧ t.trdy = true) :=
  ⟨⟨builtOf [], _, rfl, by decide, rfl⟩, ⟨State.reset.withFetchWord 32 0x40000000, _, rfl, by decide, rfl, rfl⟩⟩

/-- A step without the table, and one that builds it. -/
theorem test_witness_UnbuiltTableIsUnobservable :
    (∃ s t : State, s.trdy = false ∧ step s = .next t ∧ t.trdy = false) ∧
    (∃ s t : State, s.trdy = false ∧ step s = .next t ∧ t.trdy = true) :=
  ⟨⟨State.reset, _, rfl, rfl, rfl⟩, ⟨State.reset.withFetchWord 32 0x40000000, _, rfl, rfl, rfl⟩⟩

/-- Commands that change EQ, INF, ZR and TRDY. -/
theorem test_witness_FlagsAreWrittenOnlyByTheirCommands :
    after (exec (.padd 6 3 0) State.reset) (fun t => t.eq) = some true ∧ State.reset.eq = false ∧
    after (exec (.paff 6 3) State.reset) (fun t => t.inf) = some true ∧ State.reset.inf = false ∧
    after (exec (.kinv 6 3) State.reset) (fun t => t.zr) = some true ∧ State.reset.zr = false ∧
    after (exec .tinit State.reset) (fun t => t.trdy) = some true ∧ State.reset.trdy = false := by
  decide +kernel

/-- No action, and an action, pending. -/
theorem test_witness_StepTakesTheOldestHostAction :
    State.reset.host = [] ∧ ({ State.reset with host := [.reset, .read 0 1] } : State).host = .reset :: [.read 0 1] :=
  ⟨rfl, rfl⟩

/-- A command word pending, a word that no row has, one with a reserved bit set, and a table word, with no fault latched. -/
theorem test_witness_StepRunsTheDecodedCommand :
    (({ State.reset with host := [.write 0x200 4 0x06100000] } : State).host = .write 0x200 4 0x06100000 :: [] ∧
      State.reset.err = 0 ∧ decode ((0x06100000 : BusWord).setWidth 32) = .ok (.kinv 1 0)) ∧
    (decode ((0x41000000 : BusWord).setWidth 32) = .error .illop ∧ decode ((0x06100001 : BusWord).setWidth 32) = .error .rsvd) ∧
    (State.reset.err = 0 ∧ decodeTableWord 32 0x32EFFE00 = some (.cmul 14 15 15 14)) := by
  decide +kernel

/-- A word that decodes. -/
theorem test_witness_EncodeInvertsDecode : decode 0x22D0E006 = .ok (.paddm true true false 13 0 14) := by
  decide +kernel

/-- One command for each of the four traps, at the boundary of its range. -/
theorem test_witness_CommandsTrapWhereTheRulesSay :
    (Instr.pdbl 14 13).groupsOk = false ∧
    ((Instr.tsel 14 0 37).groupsOk = true ∧ (Instr.tsel 14 0 37).columnOk = false) ∧
    ((Instr.tsel 14 0 36).wf = true ∧ (Instr.bmul 14 0).wf = true ∧ (Instr.cmul 14 0 0 14).wf = true ∧
      State.reset.trdy = false) ∧
    (builtOf []).trdy = true := by
  decide +kernel

/-- A latched fault with a word pending, and the last access of the register window. -/
theorem test_witness_FaultsAreSticky :
    (({ State.reset with err := 1, host := [.write 0x200 4 1] } : State).err ≠ 0 ∧
      ({ State.reset with err := 1, host := [.write 0x200 4 1] } : State).host = .write 0x200 4 1 :: []) ∧
    0x1F8 + 8 ≤ 0x200 ∧ ∃ t, memWrite State.reset 0x1F8 8 7 = .next t :=
  ⟨by decide, by decide, _, rfl⟩

/-- Two states that differ in a register and agree on TRDY, ERR and ECMD, and a word that both accept. -/
theorem test_witness_FaultsDoNotDependOnData :
    ∃ t t', (stateOf [1]).trdy = State.reset.trdy ∧ (stateOf [1]).err = State.reset.err ∧
      (stateOf [1]).ecmd = State.reset.ecmd ∧ issue 0x20E00000 State.reset = .next t ∧
      issue 0x20E00000 (stateOf [1]) = .next t' :=
  ⟨_, _, rfl, rfl, rfl, rfl, rfl⟩

/-- An admissible read at the end of the map; an inadmissible read and write. -/
theorem test_witness_HostAccessesAnswerOrAreRefused :
    (Admissible 0x3C0 4 ∧ ({ State.reset with host := [.read 0x3C0 4] } : State).host = .read 0x3C0 4 :: []) ∧
    (¬ Admissible 0x3C0 8 ∧ ({ State.reset with host := [.read 0x3C0 8] } : State).host = .read 0x3C0 8 :: []) ∧
    (¬ Admissible 0x1FC 8 ∧ ({ State.reset with host := [.write 0x1FC 8 0] } : State).host = .write 0x1FC 8 0 :: []) := by
  unfold Admissible
  decide

/-- Admissible reads of the register window and of the PARAM window at their ends. -/
theorem test_witness_ReadsAreBigEndian : Admissible 0x1F8 8 ∧ Admissible 0x3B8 8 ∧ Admissible 0x3C0 4 := by
  unfold Admissible
  decide

/-- The last byte, the last limb and the last eight-byte access of the register window. -/
theorem test_witness_RegisterWindowIsBigEndian :
    (15 < 16 ∧ 31 < 32) ∧ (Admissible 0x1F8 8 ∧ 0x1F8 + 8 ≤ 0x200) ∧ (15 < 16 ∧ 3 < 4) := by
  unfold Admissible
  decide

/-- The last eight-byte access of the register window. -/
theorem test_witness_ReadReturnsTheLatestWrite : Admissible 0x1F8 8 ∧ 0x1F8 + 8 ≤ 0x200 := by
  unfold Admissible
  decide

/-- STATUS, and BITS at the end of the map. -/
theorem test_witness_ReadOnlyItemsIgnoreWrites :
    (Admissible 0x204 4 ∧ 0x204 ≤ 0x204) ∧ (Admissible 0x3C0 4 ∧ 0x204 ≤ 0x3C0) := by
  unfold Admissible
  decide

/-- The greatest operands. -/
theorem test_witness_MontMulIsTheMontgomeryProduct :
    Config.sm2.field.Derived ∧ Config.sm2.order.Derived ∧ 2 ^ 256 - 1 < 2 ^ 256 := by
  decide +kernel

/-- Both engines have the derived constants: the hypothesis of MontMulLaws, MontgomeryReductionComputesMontMul,
WordSerialReductionAgrees and AddOfAnIdentityHasZeroZ. -/
theorem test_witness_derived : Config.sm2.field.Derived ∧ Config.sm2.order.Derived := by
  decide +kernel

/-- The reduction at its greatest operands, and at operands whose product is below `2^256 * M`. -/
theorem test_witness_MontgomeryReductionComputesMontMul :
    Config.sm2.field.Derived ∧ 2 ^ 256 - 1 < 2 ^ 256 ∧ opA < 2 ^ 256 ∧ opA * opB < 2 ^ 256 * Config.sm2.field.m := by
  decide +kernel

/-- An identity operand on either side. -/
theorem test_witness_AddOfAnIdentityHasZeroZ :
    Config.sm2.field.Derived ∧ (⟨gjX, gjY, Config.sm2.field.m⟩ : Jac).z % Config.sm2.field.m = 0 := by
  decide +kernel

/-- Two commands in a row that leave the Montgomery domain and enter it again, and in the other order. -/
theorem test_witness_MencAndMredAreInverse :
    (∃ t u, exec (.menc .p 1 0) (stateOf [opA]) = .next t ∧ exec (.mred .p 1 1) t = .next u) ∧
    (∃ t u, exec (.mred .n 1 0) (stateOf [opA]) = .next t ∧ exec (.menc .n 1 1) t = .next u) :=
  ⟨⟨_, _, rfl, rfl⟩, ⟨_, _, rfl, rfl⟩⟩

/-- An operand congruent to zero, of MINV and KINV. -/
theorem test_witness_InversesOfZero :
    (stateOf [Config.sm2.field.m]).val 0 % (engineOf Config.sm2 .p).m = 0 ∧ (stateOf [Config.sm2.order.m]).val 0 % Config.sm2.order.m = 0 := by
  decide +kernel

/-- A small engine with a prime modulus: `M = 7`, `2^256 mod 7 = 2`. -/
theorem test_witness_FixedPowersAreInverses :
    ∃ (e : Config.Engine) (a : Nat), Nat.Prime e.m ∧ e.m < 2 ^ 256 ∧ e.rinv * 2 ^ 256 % e.m = 1 ∧
      e.rr = 2 ^ 256 * 2 ^ 256 % e.m ∧ e.one = 2 ^ 256 % e.m ∧ a % e.m ≠ 0 :=
  ⟨⟨7, 4, 4, 2, 0, 0⟩, 3, by norm_num, by norm_num, by norm_num, by norm_num, by norm_num, by norm_num⟩

/-- A true and a false condition of CNEG. -/
theorem test_witness_CnegNegatesUnderItsCondition :
    condOf .inf { State.reset with inf := true } = true ∧ condOf .inf State.reset = false :=
  ⟨rfl, rfl⟩

/-- The last column, the last entry, and selectors of no entry. -/
theorem test_witness_TselSelectsTheEntry :
    (36 : Fin 64).val < 37 ∧ (14 : Reg).val ≤ 14 ∧ (builtOf [64]).trdy = true ∧ (63 < 64 ∧ (builtOf [64]).val 0 = 63 + 1) ∧
      64 < (builtOf [65]).val 0 ∧ (builtOf [0]).val 0 = 0 := by
  decide +kernel

/-- The highest legal groups of the point commands, and an operand with `Z mod P = 0`. -/
theorem test_witness_PointCommands :
    (13 : Reg).val ≤ 13 ∧ (14 : Reg).val ≤ 14 ∧ (stateOf [0, 0, Config.sm2.field.m]).val (0 + 2) % Config.sm2.field.m = 0 := by
  decide +kernel

/-- The highest legal groups of the scalar commands with the table built, scalars congruent to zero, and the first and last
steps of both loops. -/
theorem test_witness_ScalarCommands :
    (14 : Reg).val ≤ 14 ∧ (builtOf [Config.sm2.order.m]).trdy = true ∧
      (builtOf [Config.sm2.order.m, Config.sm2.order.m]).val 0 % Config.sm2.order.m = 0 ∧
      (builtOf [Config.sm2.order.m, Config.sm2.order.m]).val 1 % Config.sm2.order.m = 0 ∧
      (1 ≤ 1 ∧ 1 ≤ 36) ∧ (1 ≤ 36 ∧ 36 ≤ 36) ∧ 0 ≤ 50 ∧ 50 ≤ 50 := by
  decide +kernel

/-- A command without a fault, a consistent record, the radix's congruence modulo its `N`, the highest groups, both values
of a condition, an operand congruent to zero. -/
theorem test_witness_RulesHoldForEveryCurve :
    faultOf .tinit State.reset = none ∧ Config.sm2.Consistent ∧
      (2 ^ 256) ^ (Config.sm2.order.m - 1) % Config.sm2.order.m = 1 ∧ (13 : Reg).val ≤ 13 ∧ (14 : Reg).val ≤ 14 ∧
      condOf .t State.reset = true ∧ condOf .f State.reset = false ∧
      State.reset.val 0 % Config.sm2.field.m = 0 ∧ State.reset.val 0 % Config.sm2.order.m = 0 := by
  refine ⟨by decide +kernel, by decide +kernel, ?_, by decide +kernel⟩
  rw [← powMod_eq_pow _ _ _ (by decide +kernel) (by decide +kernel)]
  decide +kernel

/-- TINIT before the table exists, with its first row, an even row, an odd row and its last entry. -/
theorem test_witness_TinitBuildsTheTable : State.reset.trdy = false ∧ 1 ≤ 1 ∧ 36 < 37 ∧ 63 < 64 := by
  decide

/-- The widths of the two multipliers and their scalar ranges; a zero-width sum; the boundary magnitudes of the table. -/
theorem test_witness_Booth :
    (1 ≤ 7 ∧ 2 ^ 13 - 1 < 2 ^ (7 * 2 - 1)) ∧ (1 ≤ 5 ∧ 1 ≤ 1) ∧ 2 ^ 256 - 1 < 2 ^ 256 ∧
    (1 ≤ 8 ∧ 8 ≤ 8) ∧ (1 ≤ 7 ∧ 7 ≤ 7) ∧ 16 < 17 := by
  decide

/-! Points that triples represent: `G`, `-G`, `2 * G` and `G` scaled by 5 (section 2.3). -/

/-- A residue with a factor that makes 1 is a unit. -/
theorem isUnit_of_mul {m : Nat} (a b : Nat) (h : a * b % m = 1 % m) : IsUnit (a : ZMod m) := by
  refine IsUnit.of_mul_eq_one (b : ZMod m) ?_
  have := (ZMod.natCast_eq_natCast_iff (a * b) 1 m).2 h
  simpa using this

/-- A residue out of Montgomery form. -/
theorem std_of {e : Config.Engine} (a b : Nat) (h : a * e.rinv % e.m = b % e.m) : std e a = (b : ZMod e.m) := by
  have := (ZMod.natCast_eq_natCast_iff (a * e.rinv) b e.m).2 h
  simpa [std] using this

/-- A difference of residues. -/
theorem sub_of {m : Nat} (a b d : Nat) (h : (d + b) % m = a % m) : (a : ZMod m) - b = d := by
  have := (ZMod.natCast_eq_natCast_iff (d + b) a m).2 h
  rw [← this]
  simp

/-- A triple over natural numbers that represents a point over natural numbers. -/
theorem represents_of {e : Config.Engine} (p : Jac) (x y z zi : Nat) (hz : p.z * e.rinv % e.m = z % e.m)
    (hu : z * zi % e.m = 1 % e.m) (hx : p.x * e.rinv % e.m = x * z ^ 2 % e.m) (hy : p.y * e.rinv % e.m = y * z ^ 3 % e.m) :
    Represents e p x y := by
  refine ⟨?_, ?_, ?_⟩
  · rw [std_of _ _ hz]; exact isUnit_of_mul z zi hu
  · rw [std_of _ _ hx, std_of _ _ hz]; simp
  · rw [std_of _ _ hy, std_of _ _ hz]; simp

theorem represents_gen : Represents Config.sm2.field ⟨gjX, gjY, oneP⟩ Config.sm2.gx Config.sm2.gy :=
  represents_of _ _ _ 1 1 (by decide +kernel) (by decide +kernel) (by decide +kernel) (by decide +kernel)

theorem represents_gen_scaled :
    Represents Config.sm2.field ⟨0x2B31F3520BDEC391F5D03401CF971E1119DDB0488C48C7CB7DEF6F27D658417C, 0xBB4AB8F366153D8DFE969223CAA5A176B5110C0CF1B33B405707419261FFC519, 0x500000000000000000000000000000004FFFFFFFB0000000000000005⟩ Config.sm2.gx Config.sm2.gy :=
  represents_of _ _ _ 5 0x33333332FFFFFFFFFFFFFFFFFFFFFFFFFFFFFFFFCCCCCCCD0000000000000000
    (by decide +kernel) (by decide +kernel) (by decide +kernel) (by decide +kernel)

theorem represents_neg_gen : Represents Config.sm2.field ⟨gjX, 0x9C329A2A7E28CA4272B304F991D5B7073E0A1A8672CD6A063ECAB1A6C3D2F222, oneP⟩
    Config.sm2.gx (-(Config.sm2.gy : ZMod Config.sm2.field.m)) := by
  have h := represents_of (e := Config.sm2.field) ⟨gjX, 0x9C329A2A7E28CA4272B304F991D5B7073E0A1A8672CD6A063ECAB1A6C3D2F222, oneP⟩
    Config.sm2.gx (Config.sm2.field.m - Config.sm2.gy) 1 1
    (by decide +kernel) (by decide +kernel) (by decide +kernel) (by decide +kernel)
  rwa [Nat.cast_sub (by decide +kernel), ZMod.natCast_self, zero_sub] at h

theorem represents_two_gen :
    Represents Config.sm2.field ⟨0xD7E9C18CAA5736A5349D94B5788CD2483BDC9BA2D8FA9380AF037BFBC3BE46A, 0x947E74656C21BDF5C7B145169B7157ACCCBD8D37C4A8E82B6A7E1A1D69DB9AC1, oneP⟩ twoGX twoGY :=
  represents_of _ _ _ 1 1 (by decide +kernel) (by decide +kernel) (by decide +kernel) (by decide +kernel)

theorem isUnit_two_gy : IsUnit (2 * (Config.sm2.gy : ZMod Config.sm2.field.m)) := by
  have := isUnit_of_mul (m := Config.sm2.field.m) (2 * Config.sm2.gy)
    0xBD6E428202E23159407B8820A55AA74912A8EDE43F77DE02F4CE5BA1B126394F (by decide +kernel)
  simpa using this

/-- The generator and the slope of its tangent. -/
theorem test_witness_DblRepresentsTheDouble :
    ∃ (p : Jac) (x y l : ZMod Config.sm2.field.m), Config.sm2.field.Derived ∧ Represents Config.sm2.field p x y ∧
      IsUnit (2 * y) ∧ 2 * y * l = 3 * x ^ 2 - 3 := by
  refine ⟨_, _, _, (0xD6A6796A27DC312621EE1D7807D53F6F50DEB90E13E36666BA6451403BB1C3B0 : Nat),
    by decide +kernel, represents_gen, isUnit_two_gy, ?_⟩
  have := sub_of (m := Config.sm2.field.m) (3 * Config.sm2.gx ^ 2) 3
    (2 * Config.sm2.gy * 0xD6A6796A27DC312621EE1D7807D53F6F50DEB90E13E36666BA6451403BB1C3B0) (by decide +kernel)
  push_cast at this ⊢
  exact this.symm

/-- The chord through `G` and `2 * G`. -/
theorem test_witness_AddRepresentsTheSum :
    ∃ (p q : Jac) (x1 y1 x2 y2 l : ZMod Config.sm2.field.m), Config.sm2.field.Derived ∧
      Represents Config.sm2.field p x1 y1 ∧ Represents Config.sm2.field q x2 y2 ∧ IsUnit (x2 - x1) ∧
      (x2 - x1) * l = y2 - y1 := by
  have hd := sub_of (m := Config.sm2.field.m) twoGX Config.sm2.gx
    0x240A4F34B8AEFAE6ADBFEB119039F0B90C2AEE48CE24674FD801E89470A6488B (by decide +kernel)
  have hy := sub_of (m := Config.sm2.field.m) twoGY Config.sm2.gy
    (0x240A4F34B8AEFAE6ADBFEB119039F0B90C2AEE48CE24674FD801E89470A6488B *
      0x79CAF301142205289D8EBED5E2A2040FE6A998EC20EC6BFA3A0ACAD3A682199D) (by decide +kernel)
  refine ⟨_, _, _, _, _, _, (0x79CAF301142205289D8EBED5E2A2040FE6A998EC20EC6BFA3A0ACAD3A682199D : Nat),
    by decide +kernel, represents_gen, represents_two_gen, ?_, ?_⟩
  · rw [hd]
    exact isUnit_of_mul _ 0x8DAF8A51A5B2728616666471A70CCEA0DB9580FA45A2BA286CD1F4365F5673C8 (by decide +kernel)
  · rw [hd, hy]
    push_cast
    rfl

/-- Two triples of `G`, and `G` with `-G`. -/
theorem test_witness_AddOfEqualAndOppositePoints :
    ∃ (p q q' : Jac) (x y : ZMod Config.sm2.field.m), Config.sm2.field.Derived ∧ Represents Config.sm2.field p x y ∧
      Represents Config.sm2.field q x y ∧ Represents Config.sm2.field q' x (-y) ∧ IsUnit (2 * y) :=
  ⟨_, _, _, _, _, by decide +kernel, represents_gen, represents_gen_scaled, represents_neg_gen, isUnit_two_gy⟩

/-- `2 * G` and `G`, added and subtracted. -/
theorem test_witness_AddMixedRepresentsTheSum :
    ∀ sg : Bool, ∃ (p : Jac) (q : Affine) (x1 y1 l : ZMod Config.sm2.field.m), Config.sm2.field.Derived ∧
      Represents Config.sm2.field p x1 y1 ∧ IsUnit (std Config.sm2.field q.x - x1) ∧
      (std Config.sm2.field q.x - x1) * l = (if sg then -std Config.sm2.field q.y else std Config.sm2.field q.y) - y1 := by
  intro sg
  have hx : std Config.sm2.field gjX = (Config.sm2.gx : ZMod Config.sm2.field.m) := std_of _ _ (by decide +kernel)
  have hy : std Config.sm2.field gjY = (Config.sm2.gy : ZMod Config.sm2.field.m) := std_of _ _ (by decide +kernel)
  have hd := sub_of (m := Config.sm2.field.m) Config.sm2.gx twoGX
    0xDBF5B0CA47510519524014EE6FC60F46F3D511B631DB98B127FE176B8F59B774 (by decide +kernel)
  have hu : IsUnit (0xDBF5B0CA47510519524014EE6FC60F46F3D511B631DB98B127FE176B8F59B774 :
      ZMod Config.sm2.field.m) := by
    have := isUnit_of_mul (m := Config.sm2.field.m) 0xDBF5B0CA47510519524014EE6FC60F46F3D511B631DB98B127FE176B8F59B774
      0x725075AD5A4D8D79E9999B8E58F3315F246A7F04BA5D45D8932E0BC9A0A98C37 (by decide +kernel)
    simpa using this
  cases sg
  · refine ⟨_, ⟨gjX, gjY⟩, _, _, (0x79CAF301142205289D8EBED5E2A2040FE6A998EC20EC6BFA3A0ACAD3A682199D : Nat),
      by decide +kernel, represents_two_gen, ?_, ?_⟩
    · simp only [hx, hd]; simpa using hu
    · have h := sub_of (m := Config.sm2.field.m) Config.sm2.gy twoGY
        (0xDBF5B0CA47510519524014EE6FC60F46F3D511B631DB98B127FE176B8F59B774 *
          0x79CAF301142205289D8EBED5E2A2040FE6A998EC20EC6BFA3A0ACAD3A682199D) (by decide +kernel)
      simp only [hx, hy, hd, Bool.false_eq_true, if_false, h]
      push_cast
      rfl
  · refine ⟨_, ⟨gjX, gjY⟩, _, _, (0x29598694D823CED9DE11E287F82AC090AF2146F0EC1C999A459BAEBFC44E3C4F : Nat),
      by decide +kernel, represents_two_gen, ?_, ?_⟩
    · simp only [hx, hd]; simpa using hu
    · have h := sub_of (m := Config.sm2.field.m) 0 (Config.sm2.gy + twoGY)
        (0xDBF5B0CA47510519524014EE6FC60F46F3D511B631DB98B127FE176B8F59B774 *
          0x29598694D823CED9DE11E287F82AC090AF2146F0EC1C999A459BAEBFC44E3C4F) (by decide +kernel)
      simp only [hx, hy, hd, if_true]
      rw [Nat.cast_mul, Nat.cast_zero, zero_sub, Nat.cast_add, neg_add, ← sub_eq_add_neg] at h
      exact h.symm

/-- The generator, whose Z is the Montgomery form of 1. -/
theorem test_witness_ToAffineGivesThePoint :
    ∃ (p : Jac) (x y : ZMod Config.sm2.field.m), Config.sm2.field.Derived ∧ Represents Config.sm2.field p x y ∧
      p.z ^ (Config.sm2.field.m - 1) % Config.sm2.field.m = 1 := by
  refine ⟨_, _, _, by decide +kernel, represents_gen, ?_⟩
  rw [← powMod_eq_pow _ _ _ (by decide +kernel) (by decide +kernel)]
  decide +kernel

end Sys2Proof.Tests
end

section
/-! The register window (R33): its lines of the map, its bytes, and what a host write of them leaves. -/

namespace Sys2Proof.Machine

open Sys2Proof.Safety

/-! The lines of the map. -/

/-- The line of R30's map that holds `R[i]`. -/
def regRegion (i : Nat) : Region := ⟨32 * i, 32, .reg i⟩

theorem regRegion_mem_apertureMap {i : Nat} (hi : i < 16) : regRegion i ∈ apertureMap :=
  List.mem_append_left _ (List.mem_map.2 ⟨i, List.mem_range.2 hi, rfl⟩)

/-- The map gives a register no second line. -/
theorem eq_regRegion_of_mem_apertureMap {r : Region} {i : Nat} (hr : r ∈ apertureMap) (hit : r.item = .reg i) :
    r = regRegion i := by
  rcases List.mem_append.1 hr with hreg | hother
  · obtain ⟨j, -, rfl⟩ := List.mem_map.1 hreg
    obtain rfl : j = i := by simpa using hit
    rfl
  · have hitem := List.mem_map_of_mem (f := Region.item) hother
    simp [hit] at hitem

/-- An aligned access inside `R[i]` is admitted, in the line of `R[i]` (R31, R35). -/
theorem admitted_regRegion {i t n : Nat} (hi : i < 16) (hn : n = 1 ∨ n = 2 ∨ n = 4 ∨ n = 8) (ht : t + n ≤ 32)
    (hal : (32 * i + t) % n = 0) : admitted (32 * i + t) n = some (regRegion i) := by
  have hloc : locate (32 * i + t) n = some (regRegion i) :=
    (locate_eq_some_iff _ _ _ (by omega)).2 ⟨regRegion_mem_apertureMap hi, by simp [regRegion], by simp [regRegion]; omega⟩
  rw [admitted, if_pos ⟨hn, hal⟩, hloc]
  simp [widthOk, regRegion]

/-- An admissible access of the register window lies inside one register: the alignment keeps it from crossing two. -/
theorem exists_register_of_admissible {addr n : Nat} (h : Admissible addr n) (hw : addr + n ≤ 0x200) :
    ∃ i t, addr = 32 * i + t ∧ i < 16 ∧ t + n ≤ 32 := by
  obtain ⟨hn, hal, -⟩ := h
  refine ⟨addr / 32, addr % 32, (Nat.div_add_mod addr 32).symm, ?_, ?_⟩
  · omega
  · rcases hn with rfl | rfl | rfl | rfl <;> omega

/-! Bytes. -/

/-- `m` bytes of an integer, `k` bytes up from its low end, are a bit field of it. -/
theorem byteField_eq_bits {v hi lo k m : Nat} (hlo : lo = 8 * k) (hwidth : hi - lo + 1 = 8 * m) :
    v / 256 ^ k % 256 ^ m = bits v hi lo := by
  rw [bits, hwidth, hlo, pow_mul, pow_mul, show (256 : Nat) = 2 ^ 8 from rfl]

/-- A byte of a register's image is R33's bit field. -/
theorem imageByte_eq_bits {v t : Nat} (ht : t < 32) : imageByte 32 v t = bits v (255 - 8 * t) (248 - 8 * t) :=
  byteField_eq_bits (m := 1) (by omega) (by omega)

/-- Byte `32*i + t` of the aperture is byte `t` of the image of `R[i]` (R33). -/
theorem State.byteAt_reg (s : State) {i t : Nat} (hi : i < 16) (ht : t < 32) :
    s.byteAt (32 * i + t) = some (BitVec.ofNat 8 (imageByte 32 (s.val i) t)) :=
  s.byteAt_of_mem (regRegion i) t (regRegion_mem_apertureMap hi) ht

/-- Writing a register leaves what every other item of the map shows. -/
theorem itemValue_setReg_other (s : State) {i : Nat} (w : Word) {it : Item} (h : it ≠ .reg i) :
    itemValue (s.setReg i w) it = itemValue s it := by
  cases it with
  | reg j =>
    have hij : i ≠ j := fun e => h (e ▸ rfl)
    simp [itemValue, State.val, State.reg_setReg_other s i j w hij]
  | status => simp [itemValue, State.statusWord]
  | ecmd => simp [itemValue]
  | cmd => rfl
  | param k => rfl
  | bits => rfl

/-- Writing `R[i]` leaves every byte outside it. -/
theorem State.byteAt_setReg_outside (s : State) {i a : Nat} (w : Word) (ha : a < 32 * i ∨ 32 * i + 32 ≤ a) :
    (s.setReg i w).byteAt a = s.byteAt a := by
  refine State.byteAt_congr _ _ a fun r hr hlo hhi => itemValue_setReg_other s w fun hit => ?_
  obtain rfl := eq_regRegion_of_mem_apertureMap hr hit
  simp only [regRegion] at hlo hhi
  omega

/-! Host writes. -/

/-- `s` after the host wrote the `n`-byte value `v` at byte `t` of `R[i]` (R32, R33). -/
def State.putRegBytes (s : State) (i t n v : Nat) : State :=
  s.setReg i (putBytes (s.reg i) t n v)

/-- An aligned host write inside `R[i]` completes and puts its bytes into `R[i]` (R32). -/
theorem memWrite_reg (s : State) {i t n : Nat} (v : BusWord) (hi : i < 16) (hn : n = 1 ∨ n = 2 ∨ n = 4 ∨ n = 8)
    (ht : t + n ≤ 32) (hal : (32 * i + t) % n = 0) :
    memWrite s (32 * i + t) n v = .next (s.putRegBytes i t n v.toNat) := by
  simp [memWrite, admitted_regRegion hi hn ht hal, regRegion, State.putRegBytes]

/-- Every byte of the aperture after a host write inside `R[i]`: the value's bytes where it was written, the old byte
everywhere else, the rest of `R[i]` included (R33). -/
theorem State.byteAt_putRegBytes (s : State) {i t n : Nat} (v a : Nat) (hi : i < 16) (ht : t + n ≤ 32) :
    (s.putRegBytes i t n v).byteAt a =
      if 32 * i + t ≤ a ∧ a < 32 * i + t + n then some (BitVec.ofNat 8 (imageByte n v (a - (32 * i + t))))
      else s.byteAt a := by
  by_cases hin : 32 * i ≤ a ∧ a < 32 * i + 32
  · obtain ⟨u, rfl⟩ := Nat.exists_eq_add_of_le hin.1
    have hu : u < 32 := by omega
    have hcond : (32 * i + t ≤ 32 * i + u ∧ 32 * i + u < 32 * i + t + n) ↔ (t ≤ u ∧ u < t + n) := by omega
    rw [State.byteAt_reg _ hi hu, State.byteAt_reg _ hi hu, State.val, State.putRegBytes, State.reg_setReg_same _ _ _ hi,
      imageByte_putBytes _ _ _ _ _ ht hu, Nat.add_sub_add_left, State.val]
    simp only [hcond]
    split <;> rfl
  · rw [State.putRegBytes, State.byteAt_setReg_outside _ _ (by omega), if_neg (by omega)]

/-- A host write inside a register changes no flag (R33). -/
theorem State.flagsSame_putRegBytes (s : State) (i t n v : Nat) : FlagsSame s (s.putRegBytes i t n v) := by
  simp [FlagsSame, State.putRegBytes]

/-- A host write inside a register changes the register file only (R33). -/
theorem State.systemSame_putRegBytes (s : State) (i t n v : Nat) : SystemSame s (s.putRegBytes i t n v) := by
  simp [SystemSame, State.putRegBytes]

/-! Host reads. -/

/-- An aligned host read inside `R[i]` returns the bit field of `R[i]` that its bytes cover (R31, R33). -/
theorem memRead_reg (s : State) {i t n : Nat} (hi : i < 16) (hn : n = 1 ∨ n = 2 ∨ n = 4 ∨ n = 8) (ht : t + n ≤ 32)
    (hal : (32 * i + t) % n = 0) :
    memRead s (32 * i + t) n = some (BitVec.ofNat 64 (s.val i / 256 ^ (32 - (t + n)) % 256 ^ n)) :=
  memRead_of_mem s (regRegion i) t n (regRegion_mem_apertureMap hi) (admitted_regRegion hi hn ht hal) ht

/-- The field that an eight-byte read at byte `8*t` covers is limb `3 - t` (R33). -/
theorem field_eq_limb {t : Nat} (v : Nat) (ht : t < 4) :
    v / 256 ^ (32 - (8 * t + 8)) % 256 ^ 8 = bits v (64 * (3 - t) + 63) (64 * (3 - t)) :=
  byteField_eq_bits (by omega) (by omega)

/-- Settles O21: the bytes of the window are R33's fields, a write inside one register changes the bytes it covers and no
others, and an eight-byte read covers one limb. -/
theorem registerWindowIsBigEndian : Obligations.RegisterWindowIsBigEndian := by
  refine ⟨fun s i t hi ht => ?_, fun s addr n v hadm hw => ?_, fun s i t hi ht => ?_⟩
  · rw [State.byteAt_reg s hi ht, imageByte_eq_bits ht]
  · obtain ⟨i, t, rfl, hi, ht⟩ := exists_register_of_admissible hadm hw
    obtain ⟨hn, hal, -⟩ := hadm
    refine ⟨_, memWrite_reg s v hi hn ht hal, fun k hk => ?_, fun a ha => ?_,
      s.flagsSame_putRegBytes .., s.systemSame_putRegBytes ..⟩
    · rw [State.byteAt_putRegBytes s _ _ hi ht, if_pos (by omega), Nat.add_sub_cancel_left, imageByte]
      exact congrArg some (BitVec.eq_of_toNat_eq (by simp))
    · rw [State.byteAt_putRegBytes s _ _ hi ht, if_neg (by omega)]
  · rw [memRead_reg s hi (by decide) (by omega) (by omega), field_eq_limb _ ht]

end Sys2Proof.Machine
end

section
/-! The derived constants of an engine (R2): what the reduction uses of them. -/

namespace Sys2Proof.Config

variable {e : Engine}

theorem Engine.Derived.m_pos (h : e.Derived) : 0 < e.m :=
  Nat.zero_lt_of_lt h.1

/-- `M` has its top bit set (R1): the radix fits under two moduli. -/
theorem Engine.Derived.radix_lt_two_mul (h : e.Derived) : 2 ^ 256 < 2 * e.m := by
  obtain ⟨hlow, -⟩ := h
  omega

/-- The odd modulus is invertible modulo every power of two. -/
theorem Engine.Derived.coprime_two_pow (h : e.Derived) (w : Nat) : Nat.Coprime (2 ^ w) e.m := by
  obtain ⟨-, -, hodd, -⟩ := h
  exact (Nat.coprime_two_left.2 (Nat.odd_iff.2 hodd)).pow_left w

/-- `RINV` is the inverse of the radix modulo `M` (R70). -/
theorem Engine.Derived.rinv_mul_radix (h : e.Derived) : e.rinv * radix ≡ 1 [MOD e.m] := by
  obtain ⟨hlow, -, -, -, hinv, -⟩ := h
  rw [Nat.ModEq, hinv, Nat.mod_eq_of_lt (by omega)]

/-- `MPRIME` is the negated inverse of `M` modulo the radix (R71). -/
theorem Engine.Derived.radix_dvd (h : e.Derived) : 2 ^ 256 ∣ e.mprime * e.m + 1 := by
  obtain ⟨-, -, -, -, -, -, -, -, hneg, -⟩ := h
  exact Nat.dvd_of_mod_eq_zero hneg

/-- `K0`, the low limb of `MPRIME`, is the negated inverse of `M` modulo one word (R77). -/
theorem Engine.Derived.word_dvd (h : e.Derived) : 2 ^ 64 ∣ e.k0 * e.m + 1 := by
  have hlong : 2 ^ 64 ∣ e.mprime * e.m + 1 := (pow_dvd_pow 2 (by norm_num)).trans h.radix_dvd
  obtain ⟨-, -, -, -, -, -, -, -, -, hk0⟩ := h
  have hlimb : e.k0 ≡ e.mprime [MOD 2 ^ 64] := hk0 ▸ Nat.mod_modEq _ _
  exact (((hlimb.mul_right e.m).add_right 1).dvd_iff dvd_rfl).2 hlong

end Sys2Proof.Config
end

section
/-! The Montgomery product (R70), fixed by its congruence with the radix. -/

namespace Sys2Proof.Machine

open Sys2Proof.Config (Engine radix)

variable {e : Engine}

/-- Both engines of the hardware have the constants that R2 derives from their moduli. -/
theorem engineOf_sm2_derived : ∀ m : ModSel, (engineOf Config.sm2 m).Derived
  | .p => by decide +kernel
  | .n => by decide +kernel

/-- Multiplying the Montgomery product by the radix gives the plain product (R70). -/
theorem montMul_mul_radix (h : e.Derived) (a b : Nat) : montMul e a b * radix ≡ a * b [MOD e.m] :=
  calc montMul e a b * radix
      ≡ a * b * e.rinv * radix [MOD e.m] := (Nat.mod_modEq _ _).mul_right _
    _ = a * b * (e.rinv * radix) := mul_assoc ..
    _ ≡ a * b * 1 [MOD e.m] := h.rinv_mul_radix.mul_left _
    _ = a * b := mul_one _

/-- Whatever gives the plain product when multiplied by the radix has the Montgomery product as its residue: this congruence
determines it, the radix being invertible modulo `M`. -/
theorem mod_eq_montMul (h : e.Derived) {x a b : Nat} (hx : x * radix ≡ a * b [MOD e.m]) : x % e.m = montMul e a b := by
  have hcancel : x ≡ montMul e a b [MOD e.m] :=
    (hx.trans (montMul_mul_radix h a b).symm).cancel_right_of_coprime (h.coprime_two_pow 256).symm
  exact hcancel.trans (Nat.mod_eq_of_lt (montMul_lt e a b h.m_pos))

/-- The product of the Montgomery forms of `u` and `v` is the Montgomery form of `u*v` (R70). -/
theorem montMul_montgomeryForms (h : e.Derived) (u v : Nat) :
    montMul e (u * radix % e.m) (v * radix % e.m) = u * v * radix % e.m := by
  refine (mod_eq_montMul h ?_).symm
  calc u * v * radix * radix
      = u * radix * (v * radix) := by ring
    _ ≡ u * radix % e.m * (v * radix % e.m) [MOD e.m] := ((Nat.mod_modEq _ _).mul (Nat.mod_modEq _ _)).symm

/-- Settles O26: `RINV` is a derived constant, and the congruence of the product with the radix determines it. -/
theorem montMulIsTheMontgomeryProduct : Obligations.MontMulIsTheMontgomeryProduct := by
  refine ⟨engineOf_sm2_derived, fun e a b h _ _ => ?_⟩
  have ⟨_, _, _, hrinv, hinv, _⟩ := h
  exact ⟨hrinv, hinv, rfl, montMul_lt e a b h.m_pos, montMul_mul_radix h a b, montMul_montgomeryForms h⟩

end Sys2Proof.Machine
end

section
/-! Montgomery reduction by any number of bits (R71, R77): the relation that both realisations compute. -/

namespace Sys2Proof.Machine

open Sys2Proof.Config (Engine radix)

/-- `t` is `T` reduced by `w` bits: `T` plus a multiple of `m` below `2^w * m`, divided exactly by `2^w`. R71 reduces by 256
bits at once, R77 four times by 64. -/
def ReducesBy (w m T t : Nat) : Prop :=
  ∃ q, q < 2 ^ w ∧ t * 2 ^ w = T + q * m

/-- With the negated inverse `k` of `m`, the multiplier `(T mod R) * k mod R` makes the division by `R` exact. -/
theorem dvd_add_multiplier_mul {R k m : Nat} (hk : R ∣ k * m + 1) (T : Nat) : R ∣ T + T % R * k % R * m := by
  have hq : T % R * k % R ≡ T * k [MOD R] := (Nat.mod_modEq _ _).trans ((Nat.mod_modEq _ _).mul_right k)
  have hsum : T + T % R * k % R * m ≡ T * (k * m + 1) [MOD R] :=
    calc T + T % R * k % R * m
        ≡ T + T * k * m [MOD R] := (hq.mul_right m).add_left T
      _ = T * (k * m + 1) := by ring
  exact (hsum.dvd_iff dvd_rfl).2 (hk.mul_left T)

section
variable {v w m T t t' : Nat}

/-- Reducing by `v` bits and then by `w` reduces by `v + w`: the multipliers are the digits of one. -/
theorem ReducesBy.trans {u : Nat} (h1 : ReducesBy v m T t) (h2 : ReducesBy w m t u) : ReducesBy (v + w) m T u := by
  obtain ⟨q1, hq1, ht⟩ := h1
  obtain ⟨q2, hq2, hu⟩ := h2
  refine ⟨q1 + 2 ^ v * q2, ?_, ?_⟩
  · calc q1 + 2 ^ v * q2
        < 2 ^ v * (q2 + 1) := by rw [mul_add_one, add_comm]; exact Nat.add_lt_add_left hq1 _
      _ ≤ 2 ^ v * 2 ^ w := Nat.mul_le_mul_left _ hq2
      _ = 2 ^ (v + w) := (pow_add 2 v w).symm
  · calc u * 2 ^ (v + w)
        = u * 2 ^ w * 2 ^ v := by ring
      _ = t * 2 ^ v + q2 * m * 2 ^ v := by rw [hu]; ring
      _ = T + (q1 + 2 ^ v * q2) * m := by rw [ht]; ring

/-- The reduction by `w` bits has one value: divisibility by `2^w` determines the multiplier modulo `2^w`. -/
theorem ReducesBy.unique (hm : Nat.Coprime (2 ^ w) m) (h : ReducesBy w m T t) (h' : ReducesBy w m T t') : t = t' := by
  obtain ⟨q, hq, ht⟩ := h
  obtain ⟨q', hq', ht'⟩ := h'
  have hsum : T + q * m ≡ T + q' * m [MOD 2 ^ w] := by
    rw [← ht, ← ht']
    simp [Nat.ModEq]
  have hmul : q = q' := ((hsum.add_left_cancel' T).cancel_right_of_coprime hm).eq_of_lt_of_lt hq hq'
  exact Nat.eq_of_mul_eq_mul_right (Nat.two_pow_pos w) (by rw [ht, ht', hmul])

/-- Modulo `m` a reduction by `w` bits divides by `2^w`. -/
theorem ReducesBy.modEq (h : ReducesBy w m T t) : t * 2 ^ w ≡ T [MOD m] := by
  obtain ⟨q, -, ht⟩ := h
  rw [ht]
  simp [Nat.ModEq]

/-- The multiplier adds less than one `m` to the quotient: a bound `2^w * c` on `T` leaves it below `c + m`. -/
theorem ReducesBy.lt_add {c : Nat} (h : ReducesBy w m T t) (hT : T < 2 ^ w * c) : t < c + m := by
  obtain ⟨q, hq, ht⟩ := h
  refine Nat.lt_of_mul_lt_mul_right (a := 2 ^ w) ?_
  calc t * 2 ^ w
      = T + q * m := ht
    _ < 2 ^ w * c + 2 ^ w * m := Nat.add_lt_add_of_lt_of_le hT (Nat.mul_le_mul_right m hq.le)
    _ = (c + m) * 2 ^ w := by ring

end

variable {e : Engine}

/-- The division of R71 is exact. -/
theorem redcQuotient_mul_radix (h : e.Derived) (T : Nat) :
    redcQuotient e T * 2 ^ 256 = T + T % 2 ^ 256 * e.mprime % 2 ^ 256 * e.m :=
  Nat.div_mul_cancel (dvd_add_multiplier_mul h.radix_dvd T)

/-- The division of a step of R77 is exact. -/
theorem redcStep_mul_word (h : e.Derived) (T : Nat) :
    redcStep e T * 2 ^ 64 = T + T % 2 ^ 64 * e.k0 % 2 ^ 64 * e.m :=
  Nat.div_mul_cancel (dvd_add_multiplier_mul h.word_dvd T)

theorem redcQuotient_reducesBy (h : e.Derived) (T : Nat) : ReducesBy 256 e.m T (redcQuotient e T) :=
  ⟨_, Nat.mod_lt _ (Nat.two_pow_pos 256), redcQuotient_mul_radix h T⟩

theorem redcStep_reducesBy (h : e.Derived) (T : Nat) : ReducesBy 64 e.m T (redcStep e T) :=
  ⟨_, Nat.mod_lt _ (Nat.two_pow_pos 64), redcStep_mul_word h T⟩

/-- The reduction of R71 has R70's value. -/
theorem redcMul_eq_montMul (h : e.Derived) (a b : Nat) : redcMul e a b = montMul e a b :=
  mod_eq_montMul h (redcQuotient_reducesBy h (a * b)).modEq

/-- Four 64-bit steps make one reduction by 256 bits, and that has one value (R77). -/
theorem redcStep_four_eq_redcQuotient (h : e.Derived) (T : Nat) :
    redcStep e (redcStep e (redcStep e (redcStep e T))) = redcQuotient e T := by
  have hfour : ReducesBy (64 + 64 + 64 + 64) e.m T (redcStep e (redcStep e (redcStep e (redcStep e T)))) :=
    (((redcStep_reducesBy h _).trans (redcStep_reducesBy h _)).trans (redcStep_reducesBy h _)).trans
      (redcStep_reducesBy h _)
  exact hfour.unique (h.coprime_two_pow 256) (redcQuotient_reducesBy h T)

/-- A canonical operand keeps the product below `2^256 * M` (R71). -/
theorem mul_lt_radix_mul {a b m : Nat} (ha : a < 2 ^ 256) (hb : b < 2 ^ 256) (hcan : a < m ∨ b < m) :
    a * b < 2 ^ 256 * m := by
  rcases hcan with ham | hbm
  · rw [mul_comm (2 ^ 256)]; exact Nat.mul_lt_mul'' ham hb
  · exact Nat.mul_lt_mul'' ha hbm

/-- Below two moduli the residue is one conditional subtraction (R71). -/
theorem mod_eq_ite_sub {t m : Nat} (ht : t < 2 * m) : t % m = if m ≤ t then t - m else t := by
  split
  case isTrue hle => rw [Nat.mod_eq_sub_mod hle, Nat.mod_eq_of_lt (by omega)]
  case isFalse hlt => exact Nat.mod_eq_of_lt (by omega)

/-- Settles O28: exactness and bounds are those of a reduction by 256 bits, and its residue is the Montgomery product. -/
theorem montgomeryReductionComputesMontMul : Obligations.MontgomeryReductionComputesMontMul := by
  intro e a b h ha hb
  have hred := redcQuotient_reducesBy h (a * b)
  have hbound : redcQuotient e (a * b) < 2 ^ 256 + e.m := hred.lt_add (Nat.mul_lt_mul'' ha hb)
  have hradix := h.radix_lt_two_mul
  have hsmall (hT : a * b < 2 ^ 256 * e.m) : redcQuotient e (a * b) < 2 * e.m :=
    (hred.lt_add hT).trans_eq (two_mul _).symm
  exact ⟨redcQuotient_mul_radix h _, hbound, by omega, mul_lt_radix_mul ha hb,
    fun hT => ⟨hsmall hT, mod_eq_ite_sub (hsmall hT)⟩, redcMul_eq_montMul h a b⟩

/-- Settles O29: every step is an exact reduction by 64 bits, and four of them are the reduction of R71. -/
theorem wordSerialReductionAgrees : Obligations.WordSerialReductionAgrees := by
  refine ⟨rfl, fun e a b h => ⟨redcStep_mul_word h, redcStep_four_eq_redcQuotient h _, ?_⟩⟩
  rw [redcWordsMul, redcStep_four_eq_redcQuotient h]
  exact redcMul_eq_montMul h a b

end Sys2Proof.Machine
end

section
/-! The Booth digit of R110: the bits of its window, its sign and the range of its magnitude. -/

namespace Sys2Proof.Machine

/-- A window has `w + 1` bits. -/
theorem boothWindow_lt (k w i : Nat) : boothWindow k w i < 2 ^ (w + 1) :=
  Nat.mod_lt _ (Nat.two_pow_pos (w + 1))

/-- The bit below bit 0 of a scalar reads 0, and doubling moves every other bit up by one. -/
theorem testBit_two_mul_eq_ite (k j : Nat) :
    (2 * k).testBit j = if j = 0 then false else k.testBit (j - 1) := by
  cases j with
  | zero => simp
  | succ j => simp [Nat.testBit_succ]

/-- Bit `t` of window `i` is bit `w * i + t - 1` of the scalar. -/
theorem testBit_boothWindow (k i : Nat) {w t : Nat} (ht : t ≤ w) :
    (boothWindow k w i).testBit t = if w * i + t = 0 then false else k.testBit (w * i + t - 1) := by
  have hin : t < w + 1 := Nat.lt_succ_of_le ht
  rw [boothWindow, Nat.testBit_mod_two_pow, Nat.testBit_div_two_pow, add_comm t, testBit_two_mul_eq_ite,
    decide_eq_true hin, Bool.true_and]

/-- The sign of a digit is the top bit of its window. -/
theorem booth_sign (k w i : Nat) : (booth k w i).1 = (boothWindow k w i).testBit w := by
  have htop : boothWindow k w i / 2 ^ w < 2 := Nat.div_lt_of_lt_mul (boothWindow_lt k w i)
  rw [Nat.testBit_eq_decide_div_mod_eq, Nat.mod_eq_of_lt htop]
  rfl

/-- The `d` of R110: the window, complemented when its top bit is set. -/
def boothFold (win w : Nat) : Nat :=
  if win.testBit w then 2 ^ (w + 1) - 1 - win else win

/-- The magnitude of a digit is the rounded half of the folded window. -/
theorem booth_mag (k w i : Nat) :
    (booth k w i).2 = boothFold (boothWindow k w i) w / 2 + boothFold (boothWindow k w i) w % 2 := by
  rw [boothFold, ← booth_sign]
  rfl

/-- Folding clears the top bit of a window. -/
theorem boothFold_lt {win w : Nat} (hwin : win < 2 ^ (w + 1)) : boothFold win w < 2 ^ w := by
  have hdouble : 2 ^ (w + 1) = 2 * 2 ^ w := Nat.pow_succ'
  unfold boothFold
  split
  case isTrue hset =>
    have hge : 2 ^ w ≤ win := Nat.ge_two_pow_of_testBit hset
    omega
  case isFalse hclear =>
    by_contra hge
    exact hclear (Nat.testBit_of_two_pow_le_and_two_pow_add_one_gt (Nat.le_of_not_lt hge) hwin)

/-- R110: the magnitude lies in `[0, 2^(w-1)]`. -/
theorem booth_mag_le (k i : Nat) {w : Nat} (hw : 1 ≤ w) : (booth k w i).2 ≤ 2 ^ (w - 1) := by
  have hfold := boothFold_lt (boothWindow_lt k w i)
  have hdouble : 2 * 2 ^ (w - 1) = 2 ^ w := mul_pow_sub_one (by omega) 2
  rw [booth_mag]
  omega

/-- Settles O52: the bits of the window are those of the doubled scalar, and folding the window leaves `w` bits to halve. -/
theorem boothDigitIsTheRoundedWindow : Obligations.BoothDigitIsTheRoundedWindow := by
  intro k w i hw
  rw [mul_comm k 2]
  refine ⟨fun t ht => testBit_boothWindow k i ht, booth_sign k w i, booth_mag k w i, booth_mag_le k i hw, ?_⟩
  rw [digitValue, booth_sign]
  rfl

end Sys2Proof.Machine
end

section
/-! The decoder against the opcode table (R54 to R58): each field of a word as a bit field of it, and each row of the table as
what the decoder reads. -/

namespace Sys2Proof

/-! Fields. -/

theorem regField_val (w lo : Nat) : (regField w lo).val = bits w (lo + 3) lo := by
  rw [bits, Nat.add_sub_cancel_left]
  rfl

theorem colField_val (w : Nat) : (colField w).val = bits w 5 0 := by
  rw [bits, pow_zero, Nat.div_one]
  rfl

theorem bits_self_lt_two (w i : Nat) : bits w i i < 2 := by
  rw [bits, Nat.sub_self]
  exact Nat.mod_lt _ two_pos

theorem flagField_toNat (w i : Nat) : (flagField w i).toNat = bits w i i := by
  have hbit := bits_self_lt_two w i
  by_cases hone : bits w i i = 1
  · simp [flagField, hone]
  · simp [flagField, hone]
    omega

theorem modField_bit (w : Nat) : (modField w).bit = bits w 0 0 := by
  have hbit := bits_self_lt_two w 0
  unfold modField
  split
  case isTrue hzero => exact hzero.symm
  case isFalse hone => exact (show 1 = bits w 0 0 by omega)

theorem condField_code (w : Nat) : (condField w).code = bits w 2 1 := by
  have hlt : bits w 2 1 < 4 := Nat.mod_lt _ (by decide)
  have hsel : bits w 2 1 = 0 ∨ bits w 2 1 = 1 ∨ bits w 2 1 = 2 ∨ bits w 2 1 = 3 := by omega
  rcases hsel with h | h | h | h <;> simp [condField, h, Cond.code]

/-! The encoding of a decoded word. -/

/-- A word whose six fields are the given ones is the word assembled from them (R59): the fields cover all 32 bits. -/
theorem assemble_eq_of_fields {cw : CmdWord} {op imm : Nat} {rd ra rb rc : Reg} (hop : bits cw.toNat 31 24 = op)
    (hrd : bits cw.toNat 23 20 = rd.val) (hra : bits cw.toNat 19 16 = ra.val) (hrb : bits cw.toNat 15 12 = rb.val)
    (hrc : bits cw.toNat 11 8 = rc.val) (himm : bits cw.toNat 7 0 = imm) : assemble op rd ra rb rc imm = cw := by
  have hword := cw.isLt
  unfold bits at *
  apply BitVec.eq_of_toNat_eq
  rw [assemble_toNat op rd ra rb rc imm (by omega) (by omega)]
  omega

theorem row_eq_ok_iff {z : Bool} {i j : Instr} : row z i = .ok j ↔ z = true ∧ i = j := by
  cases z <;> simp [row]

/-- A word that decodes is the encoding of its command: the must-be-zero bits of its row are the bits that no operand
sets. -/
theorem encode_of_decode {cw : CmdWord} {i : Instr} (h : decode cw = .ok i) : encode i = cw := by
  unfold decode at h
  dsimp only at h
  split at h
  case h_18 => exact absurd h (by simp)
  all_goals
    rename_i hop
    obtain ⟨hzero, rfl⟩ := row_eq_ok_iff.1 h
    simp only [Bool.and_eq_true, decide_eq_true_eq] at hzero
    unfold bits at hzero
    apply assemble_eq_of_fields hop <;>
      simp only [bits, regField_val, colField_val, modField_bit, condField_code, flagField_toNat, Fin.val_zero] <;> omega

end Sys2Proof

namespace Sys2Proof.Machine

open Sys2Proof.Safety

/-! The rows. -/

/-- Row `r` of the opcode table reads the command `i` from the word `cw`: the decoder answers `i` unless a must-be-zero bit of
the row is set, the register groups of `i` are the row's fields of the word, and what R148's checks 4 to 6 ask of `i` is what
they ask of the word's bits. -/
structure RowReads (r : OpcodeRow) (cw : CmdWord) (i : Instr) : Prop where
  decode_eq : decode cw = row (!reservedSet r cw) i
  spans_eq : spans i = r.spans.map fun p => (regField cw.toNat p.1, p.2)
  badColumn_iff : badColumn i = true ↔ bits cw.toNat 31 24 = 0x12 ∧ 36 < bits cw.toNat 5 0
  readsTable_iff : readsTable i = true ↔
    bits cw.toNat 31 24 = 0x12 ∨ bits cw.toNat 31 24 = 0x30 ∨ bits cw.toNat 31 24 = 0x32
  buildsTable_iff : buildsTable i = true ↔ bits cw.toNat 31 24 = 0x40

/-- The decoder and the opcode table agree on every word (R57, R58): no row and ILLOP, or a row that reads a command. -/
theorem decode_by_row (cw : CmdWord) :
    (rowOf cw = none ∧ decode cw = .error .illop) ∨ ∃ r i, rowOf cw = some r ∧ RowReads r cw i := by
  have hdecode := decode.eq_1 cw
  split at hdecode
  case h_18 =>
    refine .inl ⟨?_, hdecode⟩
    simp_all [rowOf, opcodeTable, eq_comm (b := bits cw.toNat 31 24)]
  all_goals
    rename_i hop
    refine .inr ⟨_, _, by rw [rowOf, hop]; rfl, hdecode.trans (congrArg₂ row ?_ rfl), rfl, ?_, ?_, ?_⟩
    · simp [reservedSet, bne, Bool.and_comm, beq_eq_decide]
    all_goals simp [badColumn, readsTable, buildsTable, hop, colField_val]

/-- The check of R54 on a command is the check on the word's own fields. -/
theorem RowReads.any_pastEnd {r : OpcodeRow} {cw : CmdWord} {i : Instr} (h : RowReads r cw i) :
    (spans i).any pastEnd = groupPastEnd r cw := by
  rw [h.spans_eq, List.any_map, groupPastEnd]
  simp only [Function.comp_def, pastEnd, regField_val]

theorem RowReads.decode_of_reserved {r : OpcodeRow} {cw : CmdWord} {i : Instr} (h : RowReads r cw i)
    (hz : reservedSet r cw = true) : decode cw = .error .rsvd := by
  rw [h.decode_eq, hz]
  rfl

theorem RowReads.decode_of_not_reserved {r : OpcodeRow} {cw : CmdWord} {i : Instr} (h : RowReads r cw i)
    (hz : ¬ reservedSet r cw = true) : decode cw = .ok i := by
  rw [h.decode_eq, Bool.eq_false_of_not_eq_true hz]
  rfl

end Sys2Proof.Machine
end

section
/-! The fault checks of R148 in their order, and the latched fault (R149). -/

namespace Sys2Proof.Machine

open Sys2Proof.Safety

/-! Issuing a word. -/

theorem State.faulted_iff {s : State} : s.faulted = true ↔ s.err ≠ 0 := by
  simp [State.faulted]

/-- R149: a latched fault discards the word. -/
theorem issue_of_err_ne_zero (cw : CmdWord) {s : State} (h : s.err ≠ 0) : issue cw s = .next s := by
  rw [issue, if_pos (State.faulted_iff.2 h)]

/-- A word with no row raises ILLOP (R148 check 1). -/
theorem issue_of_illop {cw : CmdWord} {s : State} (hs : s.err = 0) (hd : decode cw = .error .illop) :
    issue cw s = .next (raiseFault .illop cw s) := by
  simp [issue, State.faulted_iff, hs, hd]

/-- A word with a must-be-zero bit set raises RSVD (R148 check 2). -/
theorem issue_of_rsvd {cw : CmdWord} {s : State} (hs : s.err = 0) (hd : decode cw = .error .rsvd) :
    issue cw s = .next (raiseFault .rsvd cw s) := by
  simp [issue, State.faulted_iff, hs, hd]

/-- A word that decodes goes on to the checks of its command. -/
theorem issue_of_ok {cw : CmdWord} {s : State} {i : Instr} (hs : s.err = 0) (hd : decode cw = .ok i) :
    issue cw s = exec i s := by
  simp [issue, State.faulted_iff, hs, hd]

/-- Checks 3 to 6 of R148, read on the word's own bits. -/
theorem RowReads.faultOf_eq {r : OpcodeRow} {cw : CmdWord} {i : Instr} (h : RowReads r cw i) (s : State) :
    faultOf i s =
      if groupPastEnd r cw then some .regidx
      else if bits cw.toNat 31 24 = 0x12 ∧ 36 < bits cw.toNat 5 0 then some .col
      else if (bits cw.toNat 31 24 = 0x12 ∨ bits cw.toNat 31 24 = 0x30 ∨ bits cw.toNat 31 24 = 0x32) ∧ s.trdy = false then
        some .notab
      else if bits cw.toNat 31 24 = 0x40 ∧ s.trdy = true then some .tabdone
      else none := by
  simp only [faultOf, h.any_pastEnd, h.badColumn_iff, h.readsTable_iff, h.buildsTable_iff, Bool.and_eq_true,
    Bool.not_eq_true']

/-- A word whose command fails one of the checks 3 to 6 raises that fault, and ECMD records the word itself (R147). -/
theorem RowReads.issue_of_fault {r : OpcodeRow} {cw : CmdWord} {i : Instr} {s : State} {c : FaultCode}
    (h : RowReads r cw i) (hs : s.err = 0) (hz : ¬ reservedSet r cw = true) (hf : faultOf i s = some c) :
    issue cw s = .next (raiseFault c cw s) := by
  have hdecode := h.decode_of_not_reserved hz
  rw [issue_of_ok hs hdecode, exec_of_fault hf, encode_of_decode hdecode]

/-- Settles O14: the opcode table's row of the word says what the decoder answers, and the checks on the decoded command are
the checks on the word's bits. -/
theorem checksAreMadeInFixedOrder : Obligations.ChecksAreMadeInFixedOrder := by
  intro cw s
  dsimp only
  by_cases herr : s.err = 0
  case neg => rw [if_pos herr, issue_of_err_ne_zero cw herr]
  rw [if_neg (not_not.2 herr)]
  rcases decode_by_row cw with ⟨hrow, hdecode⟩ | ⟨r, i, hrow, hreads⟩
  · rw [hrow, issue_of_illop herr hdecode]
    rfl
  · simp only [hrow]
    split_ifs with hzero hgroup hcol hread hbuild
    · exact issue_of_rsvd herr (hreads.decode_of_reserved hzero)
    · exact hreads.issue_of_fault (c := .regidx) herr hzero (by simp [hreads.faultOf_eq, hgroup])
    · exact hreads.issue_of_fault (c := .col) herr hzero (by simp [hreads.faultOf_eq, hgroup, hcol])
    · exact hreads.issue_of_fault (c := .notab) herr hzero (by simp [hreads.faultOf_eq, hgroup, hcol, hread])
    · exact hreads.issue_of_fault (c := .tabdone) herr hzero (by simp [hreads.faultOf_eq, hgroup, hbuild])
    · have hdecode := hreads.decode_of_not_reserved hzero
      rw [issue_of_ok herr hdecode, hdecode]

/-! The register window under a latched fault. -/

/-- Below `0x200` the map holds registers only (R30). -/
theorem item_eq_reg_of_base_lt : ∀ r ∈ apertureMap, r.base < 0x200 → r.item = .reg (r.base / 32) := by
  decide +kernel

/-- A byte of the register window does not depend on ERR and ECMD. -/
theorem State.byteAt_with_fault (s : State) (e : BitVec 8) (c : CmdWord) {a : Nat} (ha : a < 0x200) :
    State.byteAt { s with err := e, ecmd := c } a = s.byteAt a := by
  refine State.byteAt_congr _ _ a fun r hr hlo _ => ?_
  rw [item_eq_reg_of_base_lt r hr (by omega)]
  rfl

/-- A read depends only on the bytes that it covers (R31). -/
theorem memRead_congr {s t : State} {addr n : Nat} (h : ∀ k < n, t.byteAt (addr + k) = s.byteAt (addr + k)) :
    memRead t addr n = memRead s addr n := by
  have hbytes : t.bytesAt addr n = s.bytesAt addr n :=
    List.filterMap_congr fun k hk => h k (List.mem_range.1 hk)
  rw [memRead, memRead, hbytes]

/-- Writing a register and latching a fault commute. -/
theorem State.setReg_with_fault (s : State) (i : Nat) (w : Word) (e : BitVec 8) (c : CmdWord) :
    State.setReg { s with err := e, ecmd := c } i w = { s.setReg i w with err := e, ecmd := c } := by
  unfold State.setReg
  split <;> rfl

/-- An admitted access of the register window falls in a register (R31). -/
theorem item_eq_reg_of_admitted {addr n : Nat} {r : Region} (h : admitted addr n = some r) (hw : addr + n ≤ 0x200) :
    ∃ i, r.item = .reg i := by
  obtain ⟨⟨hn, -⟩, hloc⟩ := Option.ite_none_right_eq_some.1 h
  obtain ⟨hloc, -⟩ := Option.filter_eq_some_iff.1 hloc
  obtain ⟨hr, hlo, -⟩ := (locate_eq_some_iff _ _ _ (by omega)).1 hloc
  exact ⟨_, item_eq_reg_of_base_lt r hr (by omega)⟩

/-- A host write of an admitted region that is a register puts bytes into that register (R32). -/
theorem memWrite_of_reg (s : State) {addr n i : Nat} {r : Region} (v : BusWord) (h : admitted addr n = some r)
    (hi : r.item = .reg i) :
    memWrite s addr n v = .next (s.setReg i (putBytes (s.reg i) (addr - r.base) n v.toNat)) := by
  simp [memWrite, h, hi]

/-- A step on a pending write of CMD consumes it and issues the word (R51). -/
theorem step_of_cmd_write {s : State} {v : BusWord} {rest : List HostAction} (h : s.host = .write 0x200 4 v :: rest) :
    step s = issue (BitVec.ofNat 32 v.toNat) { s with host := rest } := by
  have hcmd : admitted 0x200 4 = some ⟨0x200, 4, .cmd⟩ := by decide
  simp [step, nextAction, h, hostStep, memWrite, hcmd]

/-- Settles O16: the sticky check discards the word, and the register window shows and changes registers only. -/
theorem faultsAreSticky : Obligations.FaultsAreSticky := by
  refine ⟨fun s v rest herr hhost => ?_, fun s addr n e c hw => ?_, fun s addr n v e c t hw hwrite => ?_⟩
  · rw [step_of_cmd_write hhost]
    exact issue_of_err_ne_zero _ herr
  · exact memRead_congr fun k hk => s.byteAt_with_fault e c (by omega)
  · cases hadm : admitted addr n with
    | none => simp [memWrite, hadm] at hwrite
    | some r =>
      obtain ⟨i, hi⟩ := item_eq_reg_of_admitted hadm hw
      rw [memWrite_of_reg s v hadm hi, Host.Outcome.next.injEq] at hwrite
      rw [memWrite_of_reg _ v hadm hi, State.setReg_with_fault, ← hwrite]
      rfl

end Sys2Proof.Machine
end

section
/-! Reset (R166): the constants that no event changes, and the latched bits of STATUS that only the reset signal clears. -/

namespace Sys2Proof.Machine

open Sys2Proof.Safety

/-! The constants (R18). -/

/-- The constants of the PARAM window in the order of R18. -/
def paramNames : List ParamName := [.p, .n, .a, .b, .gx, .gy]

/-- `paramNames` are the names of the values that the statements call `params`. -/
theorem params_eq_map_paramNames : params = paramNames.map (paramValue Config.sm2) := rfl

/-- The line of R30's map that holds constant number `k` of the PARAM window. -/
def paramRegion (k : Nat) (name : ParamName) : Region := ⟨0x300 + 32 * k, 32, .param name⟩

theorem paramRegion_mem_apertureMap {k : Nat} {name : ParamName} (h : paramNames[k]? = some name) :
    paramRegion k name ∈ apertureMap := by
  have hall : ∀ q ∈ paramNames.zipIdx, paramRegion q.2 q.1 ∈ apertureMap := by decide
  exact hall (name, k) (List.mem_zipIdx_iff_getElem?.2 h)

/-- The last reduction of `imageByte` is the one that a byte makes anyway. -/
theorem ofNat_imageByte (size v t : Nat) :
    BitVec.ofNat 8 (imageByte size v t) = BitVec.ofNat 8 (v / 256 ^ (size - 1 - t)) :=
  BitVec.eq_of_toNat_eq (by simp [imageByte])

/-- Each byte of a PARAM constant is a byte of the constant's value, whatever the state (R18, R34). -/
theorem State.byteAt_param (s : State) {k v t : Nat} (hv : params[k]? = some v) (ht : t < 32) :
    s.byteAt (0x300 + 32 * k + t) = some (BitVec.ofNat 8 (v / 256 ^ (31 - t))) := by
  rw [params_eq_map_paramNames, List.getElem?_map, Option.map_eq_some_iff] at hv
  obtain ⟨name, hname, rfl⟩ := hv
  have hbyte := s.byteAt_of_mem (paramRegion k name) t (paramRegion_mem_apertureMap hname) ht
  rwa [ofNat_imageByte] at hbyte

/-- BITS reads as 256 in every state (R18). -/
theorem memRead_bits (s : State) : memRead s 0x3C0 4 = some 0x100 := by
  simpa [itemValue, Config.bitSize] using memRead_of_mem s ⟨0x3C0, 4, .bits⟩ 0 4 (by decide) (by decide) (by decide)

/-! The reset signal (R167). -/

/-- A step on a pending reset signal consumes it and takes it. -/
theorem step_of_reset {s : State} {rest : List HostAction} (h : s.host = .reset :: rest) :
    step s = .next (takeReset { s with host := rest }) := by
  simp [step, nextAction, h, hostStep]

@[simp] theorem takeReset_statusWord (s : State) : (takeReset s).statusWord = 0 := rfl

/-! The latched bits of STATUS. -/

/-- From `s` to `t` neither TRDY nor a latched fault code is cleared (R166). -/
def KeepsTrdyAndErr (s t : State) : Prop :=
  (s.trdy = true → t.trdy = true) ∧ (s.err ≠ 0 → t.err = s.err)

theorem KeepsTrdyAndErr.of_eq {s t : State} (htrdy : t.trdy = s.trdy) (herr : t.err = s.err) : KeepsTrdyAndErr s t :=
  ⟨fun h => htrdy.trans h, fun _ => herr⟩

/-- With no fault latched only TRDY is at stake. -/
theorem KeepsTrdyAndErr.of_not_faulted {s t : State} (hquiet : s.faulted = false)
    (htrdy : s.trdy = true → t.trdy = true) : KeepsTrdyAndErr s t :=
  ⟨htrdy, fun herr => absurd (State.faulted_iff.2 herr) (Bool.eq_false_iff.1 hquiet)⟩

/-- No command clears TRDY: TINIT, the one that writes it, is refused while TRDY = 1 (R148 check 6). -/
theorem exec_keeps_trdy {i : Instr} {s t : State} (h : exec i s = .next t) (htrdy : s.trdy = true) : t.trdy = true := by
  by_cases hi : i = .tinit
  case neg => exact (exec_table h hi).2.trans htrdy
  subst hi
  have hfault : faultOf .tinit s = some .tabdone := by
    simp [faultOf, spans, badColumn, readsTable, buildsTable, htrdy]
  rw [exec_of_fault hfault, Host.Outcome.next.injEq] at h
  subst h
  exact htrdy

/-- Issuing a word clears neither: while a fault is latched the word is discarded (R149), and otherwise only TRDY is at
stake. -/
theorem issue_keepsTrdyAndErr {cw : CmdWord} {s t : State} (h : issue cw s = .next t) : KeepsTrdyAndErr s t := by
  rcases issue_cases h with ⟨-, ho⟩ | ⟨hquiet, c, -, ho⟩ | ⟨hquiet, i, -, ho⟩
  · obtain rfl := Host.Outcome.next.inj ho
    exact .of_eq rfl rfl
  · obtain rfl := Host.Outcome.next.inj ho
    exact .of_not_faulted hquiet id
  · exact .of_not_faulted hquiet (exec_keeps_trdy ho.symm)

/-- A host write clears neither: it writes a register, issues a word, or does nothing (R32). -/
theorem memWrite_keepsTrdyAndErr {s t : State} {addr n : Nat} {v : BusWord} (h : memWrite s addr n v = .next t) :
    KeepsTrdyAndErr s t := by
  rcases memWrite_cases h with ⟨-, ho⟩ | ⟨r, -, ⟨i, -, ho⟩ | ⟨-, ho⟩ | ⟨-, -, ho⟩⟩
  · cases ho
  · obtain rfl := Host.Outcome.next.inj ho
    exact .of_eq (State.setReg_trdy ..) (State.setReg_err ..)
  · exact issue_keepsTrdyAndErr ho.symm
  · obtain rfl := Host.Outcome.next.inj ho
    exact .of_eq rfl rfl

/-- No step but a reset clears TRDY or a latched fault code (R166). -/
theorem step_keepsTrdyAndErr {s t : State} (h : step s = .next t) (hreset : s.host.head? ≠ some .reset) :
    KeepsTrdyAndErr s t := by
  rcases step_cases s with ⟨-, hs⟩ | ⟨addr, n, rest, -, hs⟩ | ⟨addr, n, v, rest, -, hs⟩ | ⟨rest, hhost, -⟩
  · obtain rfl := Host.Outcome.next.inj (hs.symm.trans h)
    exact .of_eq rfl rfl
  · obtain ⟨v, -, rfl⟩ := hostRead_next (hs.symm.trans h)
    exact .of_eq rfl rfl
  · exact memWrite_keepsTrdyAndErr (s := { s with host := rest }) (hs.symm.trans h)
  · exact absurd (by simp [hhost]) hreset

/-- Settles O1: STATUS and ECMD are read off the reset state, the constants off the map, and TRDY and ERR are latched over
every other step. -/
theorem resetAloneClearsStatus : Obligations.ResetAloneClearsStatus :=
  ⟨⟨rfl, rfl⟩,
    fun _ _ h => ⟨_, step_of_reset h, takeReset_statusWord _, takeReset_ecmd _, takeReset_host _⟩,
    fun s _ _ _ hv ht => s.byteAt_param hv ht,
    memRead_bits,
    fun _ _ h hreset => step_keepsTrdyAndErr h hreset⟩

end Sys2Proof.Machine
end

section
/-! Reading the encoding of a command back (R59): the fields that `decode` takes from it are the command's operands. -/

namespace Sys2Proof

open Sys2Proof.Laws

/-! An operand from the bits that hold it. -/

theorem modField_of_bits {w : Nat} {m : ModSel} (h : bits w 0 0 = m.bit) : modField w = m := by
  have hbit := (modField_bit w).trans h
  revert hbit
  cases modField w <;> cases m <;> simp [ModSel.bit]

theorem condField_of_bits {w : Nat} {cs : Cond} (h : bits w 2 1 = cs.code) : condField w = cs := by
  cases cs <;> simp [condField, h, Cond.code]

theorem flagField_of_bits {w i : Nat} {b : Bool} (h : bits w i i = b.toNat) : flagField w i = b := by
  cases b <;> simp [flagField, h]

theorem colField_of_bits {w : Nat} {col : Fin 64} (h : bits w 5 0 = col.val) : colField w = col :=
  Fin.ext ((colField_val w).trans h)

/-- The immediate's bits are the lowest eight bits of an assembled word. -/
theorem bits_assemble (op : Nat) (rd ra rb rc : Reg) (imm hi lo : Nat) (ho : op < 256) (himm : imm < 256) (hhi : hi < 8)
    (hlo : lo ≤ hi) : bits (assemble op rd ra rb rc imm).toNat hi lo = bits imm hi lo := by
  have hlow : (assemble op rd ra rb rc imm).toNat % 2 ^ 8 = imm := by
    have hfield := assemble_imm op rd ra rb rc imm ho himm
    rwa [bits, pow_zero, Nat.div_one] at hfield
  have hcut (v : Nat) : bits (v % 2 ^ 8) hi lo = bits v hi lo := by
    have hle : hi - lo + 1 ≤ 8 - lo := by omega
    rw [bits, bits, show 8 = lo + (8 - lo) by omega, pow_add, Nat.mod_mul_right_div_self,
      Nat.mod_mod_of_dvd _ (pow_dvd_pow 2 hle)]
  rw [← hcut, hlow]

/-! The immediates of the encoding lines. -/

section
variable (op : Nat) (rd ra rb rc : Reg) (m : ModSel) (cs : Cond)

theorem modField_assemble_bit (ho : op < 256) : modField (assemble op rd ra rb rc m.bit).toNat = m := by
  have hm := m.bit_lt
  refine modField_of_bits ?_
  rw [bits_assemble _ _ _ _ _ _ _ _ ho (by omega) (by omega) (by omega), bits]
  omega

theorem condField_assemble_code (ho : op < 256) : condField (assemble op rd ra rb rc (2 * cs.code)).toNat = cs := by
  have hcs := cs.code_lt
  refine condField_of_bits ?_
  rw [bits_assemble _ _ _ _ _ _ _ _ ho (by omega) (by omega) (by omega), bits]
  omega

theorem modField_assemble_code_bit (ho : op < 256) :
    modField (assemble op rd ra rb rc (2 * cs.code + m.bit)).toNat = m := by
  have hm := m.bit_lt
  have hcs := cs.code_lt
  refine modField_of_bits ?_
  rw [bits_assemble _ _ _ _ _ _ _ _ ho (by omega) (by omega) (by omega), bits]
  omega

theorem condField_assemble_code_bit (ho : op < 256) :
    condField (assemble op rd ra rb rc (2 * cs.code + m.bit)).toNat = cs := by
  have hm := m.bit_lt
  have hcs := cs.code_lt
  refine condField_of_bits ?_
  rw [bits_assemble _ _ _ _ _ _ _ _ ho (by omega) (by omega) (by omega), bits]
  omega

theorem colField_assemble (col : Fin 64) (ho : op < 256) : colField (assemble op rd ra rb rc col.val).toNat = col := by
  refine colField_of_bits ?_
  rw [bits_assemble _ _ _ _ _ _ _ _ ho (by omega) (by omega) (by omega), bits]
  omega

/-- The three flags of PADDM, bits 2, 1 and 0 of the immediate. -/
theorem flagField_assemble (pnz qnz sg : Bool) (ho : op < 256) :
    let w := (assemble op rd ra rb rc (4 * pnz.toNat + 2 * qnz.toNat + sg.toNat)).toNat
    flagField w 2 = pnz ∧ flagField w 1 = qnz ∧ flagField w 0 = sg := by
  have hp := pnz.toNat_lt
  have hq := qnz.toNat_lt
  have hs := sg.toNat_lt
  refine ⟨flagField_of_bits ?_, flagField_of_bits ?_, flagField_of_bits ?_⟩ <;>
    (rw [bits_assemble _ _ _ _ _ _ _ _ ho (by omega) (by omega) (by omega), bits]; omega)

end

/-- Every command's word keeps to the command's row (R56). -/
theorem encodeRow_statement (i : Instr) : EncodeRow.Statement i := by
  cases i with
  | mmul m rd ra rb => exact EncodeRow.mmul m rd ra rb
  | msqr m rd ra => exact EncodeRow.msqr m rd ra
  | mred m rd ra => exact EncodeRow.mred m rd ra
  | menc m rd ra => exact EncodeRow.menc m rd ra
  | minv m rd ra => exact EncodeRow.minv m rd ra
  | kinv rd ra => exact EncodeRow.kinv rd ra
  | cmov cs rd ra rb => exact EncodeRow.cmov cs rd ra rb
  | cneg cs m rd ra => exact EncodeRow.cneg cs m rd ra
  | tsel rd ra col => exact EncodeRow.tsel rd ra col
  | pdbl rd ra => exact EncodeRow.pdbl rd ra
  | padd rd ra rb => exact EncodeRow.padd rd ra rb
  | paddm pnz qnz sg rd ra rb => exact EncodeRow.paddm pnz qnz sg rd ra rb
  | paff rd ra => exact EncodeRow.paff rd ra
  | bmul rd ra => exact EncodeRow.bmul rd ra
  | smul rd ra rb => exact EncodeRow.smul rd ra rb
  | cmul rd ra rb rc => exact EncodeRow.cmul rd ra rb rc
  | tinit => exact EncodeRow.tinit

/-- Settles O10: the word carries its row's operation code and zeros where the row wants them, so the decoder takes the row;
each operand is read back from its field. -/
theorem decodeInvertsEncode : Obligations.DecodeInvertsEncode := by
  intro i
  obtain ⟨hop, hzero⟩ := encodeRow_statement i
  unfold decode
  simp only [hop]
  cases i
  all_goals
    simp only [EncodeRow.opcode, row_eq_ok_iff]
    refine ⟨by simpa [EncodeRow.fixedZero] using hzero, ?_⟩
  case mmul m rd ra rb =>
    have hm := m.bit_lt
    simp (disch := omega) only [encode, assemble_rd, assemble_ra, assemble_rb, modField_assemble_bit]
  case msqr m rd ra | mred m rd ra | menc m rd ra | minv m rd ra =>
    have hm := m.bit_lt
    simp (disch := omega) only [encode, assemble_rd, assemble_ra, modField_assemble_bit]
  case cmov cs rd ra rb =>
    have hcs := cs.code_lt
    simp (disch := omega) only [encode, assemble_rd, assemble_ra, assemble_rb, condField_assemble_code]
  case cneg cs m rd ra =>
    have hm := m.bit_lt
    have hcs := cs.code_lt
    simp (disch := omega) only [encode, assemble_rd, assemble_ra, modField_assemble_code_bit, condField_assemble_code_bit]
  case tsel rd ra col =>
    simp (disch := omega) only [encode, assemble_rd, assemble_ra, colField_assemble]
  case paddm pnz qnz sg rd ra rb =>
    have hp := pnz.toNat_lt
    have hq := qnz.toNat_lt
    have hs := sg.toNat_lt
    obtain ⟨hpnz, hqnz, hsg⟩ := flagField_assemble 0x22 rd ra rb 0 pnz qnz sg (by decide)
    simp (disch := omega) only [encode, assemble_rd, assemble_ra, assemble_rb, hpnz, hqnz, hsg]
  case kinv rd ra | pdbl rd ra | paff rd ra | bmul rd ra =>
    simp (disch := omega) only [encode, assemble_rd, assemble_ra]
  case padd rd ra rb | smul rd ra rb =>
    simp (disch := omega) only [encode, assemble_rd, assemble_ra, assemble_rb]
  case cmul rd ra rb rc =>
    simp (disch := omega) only [encode, assemble_rd, assemble_ra, assemble_rb, assemble_rc]
  case tinit => trivial

/-- Settles O11: the lemma on the opcode table's rows says it. -/
theorem encodeInvertsDecode : Obligations.EncodeInvertsDecode :=
  fun _ _ => encode_of_decode

/-- Settles O13. -/
theorem sampleWordsDecode : Obligations.SampleWordsDecode := by
  unfold Obligations.SampleWordsDecode
  decide +kernel

end Sys2Proof

namespace Sys2Proof.Machine

open Sys2Proof.Safety

/-- Settles O12: a word in no row is ILLOP, a word in a row decodes to the row's command or, with a must-be-zero bit set, is
RSVD. -/
theorem decodeRejectsExactlyTheReservedWords : Obligations.DecodeRejectsExactlyTheReservedWords := by
  intro cw
  rcases decode_by_row cw with ⟨hrow, hdecode⟩ | ⟨r, i, hrow, hreads⟩
  · simp [hrow, hdecode]
  · by_cases hzero : reservedSet r cw = true
    · simp [hrow, hreads.decode_of_reserved hzero, hzero]
    · simp [hrow, hreads.decode_of_not_reserved hzero, hzero]

end Sys2Proof.Machine
end

section
/-! What a step that answers a next state has done, said once, and the rules that hold of every step: the machine invariant
(R15, R22, R146), the table (R22) and the flags (R14, R16). -/

namespace Sys2Proof.Machine

open Sys2Proof.Safety

/-! Rules. -/

/-- A command's rule leaves ERR and ECMD alone. -/
theorem commandRule_err_ecmd {i : Instr} {s : State} (h : faultOf i s = none) :
    (commandRule Config.sm2 i s).err = s.err ∧ (commandRule Config.sm2 i s).ecmd = s.ecmd :=
  have ⟨herr, hecmd, _⟩ := exec_system (exec_of_none h) h
  ⟨herr, hecmd⟩

/-- A command's rule leaves the table and TRDY alone, except that TINIT's builds the table (R22). -/
theorem commandRule_table {i : Instr} {s : State} (h : faultOf i s = none) :
    ((commandRule Config.sm2 i s).tab = s.tab ∧ (commandRule Config.sm2 i s).trdy = s.trdy) ∨
    (s.trdy = false ∧ (commandRule Config.sm2 i s).tab = baseTable Config.sm2 ∧ (commandRule Config.sm2 i s).trdy = true) := by
  by_cases hi : i = .tinit
  · subst hi
    have ⟨_, _, hbuild⟩ := (faultOf_eq_none_iff _ _).1 h
    exact .inr ⟨hbuild rfl, rfl, rfl⟩
  · exact .inl (exec_table (exec_of_none h) hi)

/-! Steps. -/

/-- The next states that a step from `s` can answer. -/
inductive StepTo (s : State) : State → Prop where
  /-- Nothing pending, a host read, a write without effect, or a word discarded by a latched fault. -/
  | quiet (rest : List HostAction) (replies : List BusWord) : StepTo s { s with host := rest, replies := replies }
  /-- A host write of a register. -/
  | register (rest : List HostAction) (i : Nat) (w : Word) : StepTo s (State.setReg { s with host := rest } i w)
  /-- A command word that raises a fault, none being latched. -/
  | fault (rest : List HostAction) (c : FaultCode) (cw : CmdWord) (hs : s.faulted = false) :
      StepTo s (raiseFault c cw { s with host := rest })
  /-- A command that passes its checks. -/
  | rule (rest : List HostAction) (i : Instr) (hs : s.faulted = false) (hi : faultOf i { s with host := rest } = none) :
      StepTo s (commandRule Config.sm2 i { s with host := rest })
  /-- The reset signal. -/
  | reset (rest : List HostAction) (hs : s.host = .reset :: rest) : StepTo s (takeReset { s with host := rest })

theorem issue_stepTo {cw : CmdWord} {s t : State} {rest : List HostAction} (h : issue cw { s with host := rest } = .next t) :
    StepTo s t := by
  rcases issue_cases h with ⟨-, ho⟩ | ⟨hquiet, c, -, ho⟩ | ⟨hquiet, i, -, ho⟩
  · obtain rfl := Host.Outcome.next.inj ho
    exact .quiet rest s.replies
  · obtain rfl := Host.Outcome.next.inj ho
    exact .fault rest c cw hquiet
  · cases hf : faultOf i { s with host := rest } with
    | none =>
      obtain rfl := Host.Outcome.next.inj (ho.trans (exec_of_none hf))
      exact .rule rest i hquiet hf
    | some c =>
      obtain rfl := Host.Outcome.next.inj (ho.trans (exec_of_fault hf))
      exact .fault rest c _ hquiet

theorem memWrite_stepTo {s t : State} {rest : List HostAction} {addr n : Nat} {v : BusWord}
    (h : memWrite { s with host := rest } addr n v = .next t) : StepTo s t := by
  rcases memWrite_cases h with ⟨-, ho⟩ | ⟨r, -, ⟨i, -, ho⟩ | ⟨-, ho⟩ | ⟨-, -, ho⟩⟩
  · cases ho
  · obtain rfl := Host.Outcome.next.inj ho
    exact .register rest i _
  · exact issue_stepTo ho.symm
  · obtain rfl := Host.Outcome.next.inj ho
    exact .quiet rest s.replies

/-- Everything that a step with a next state can have done. -/
theorem step_stepTo {s t : State} (h : step s = .next t) : StepTo s t := by
  rcases step_cases s with ⟨-, hs⟩ | ⟨addr, n, rest, -, hs⟩ | ⟨addr, n, v, rest, -, hs⟩ | ⟨rest, hhost, hs⟩
  · obtain rfl := Host.Outcome.next.inj (hs.symm.trans h)
    exact .quiet s.host s.replies
  · obtain ⟨v, -, rfl⟩ := hostRead_next (hs.symm.trans h)
    exact .quiet rest _
  · exact memWrite_stepTo (hs.symm.trans h)
  · obtain rfl := Host.Outcome.next.inj (hs.symm.trans h)
    exact .reset rest hhost

/-! The invariant. -/

/-- A change that leaves ERR, ECMD, the table and TRDY alone keeps the invariant. -/
theorem inv_of_eq {s t : State} (h : Inv s) (herr : t.err = s.err) (hecmd : t.ecmd = s.ecmd) (htab : t.tab = s.tab)
    (htrdy : t.trdy = s.trdy) : Inv t := by
  obtain ⟨hlegal, hquiet, hbuilt⟩ := h
  refine ⟨?_, ?_, ?_⟩
  · rwa [ErrLegal, herr]
  · rwa [EcmdQuiet, herr, hecmd]
  · rwa [TableBuilt, htab, htrdy]

/-- Settles O2. -/
theorem resetHasInvariant : Obligations.ResetHasInvariant := by
  refine ⟨?_, fun _ => rfl, fun h => ?_⟩
  · unfold ErrLegal
    decide
  · cases h

/-- Settles O3: only a fault writes ERR and ECMD, with one of the six codes; only TINIT's rule and the reset signal write the
table and TRDY. -/
theorem stepKeepsInvariant : Obligations.StepKeepsInvariant := by
  intro s t hinv h
  have ⟨hlegal, hquiet, hbuilt⟩ := hinv
  cases step_stepTo h with
  | quiet rest replies => exact inv_of_eq hinv rfl rfl rfl rfl
  | register rest i w => apply inv_of_eq hinv <;> simp
  | fault rest c cw _ => exact ⟨c.code_range.2, fun hzero => absurd hzero c.code_ne_zero, hbuilt⟩
  | rule rest i _ hi =>
    obtain ⟨herr, hecmd⟩ := commandRule_err_ecmd hi
    rcases commandRule_table hi with ⟨htab, htrdy⟩ | ⟨-, htab, -⟩
    · exact inv_of_eq hinv herr hecmd htab htrdy
    · refine ⟨?_, ?_, fun _ => htab⟩
      · rwa [ErrLegal, herr]
      · rwa [EcmdQuiet, herr, hecmd]
  | reset rest _ =>
    refine ⟨?_, fun _ => rfl, fun htrdy => ?_⟩
    · simp [ErrLegal]
    · simp at htrdy

/-- Settles O4: of the steps that are no reset only TINIT's rule writes the table, and that one only while TRDY = 0. -/
theorem tableIsWrittenOnceBetweenResets : Obligations.TableIsWrittenOnceBetweenResets := by
  intro s t h hreset
  have hcases : (t.tab = s.tab ∧ t.trdy = s.trdy) ∨ (s.trdy = false ∧ t.tab = baseTable Config.sm2 ∧ t.trdy = true) := by
    cases step_stepTo h with
    | quiet rest replies => exact .inl ⟨rfl, rfl⟩
    | register rest i w => exact .inl ⟨by simp, by simp⟩
    | fault rest c cw _ => exact .inl ⟨rfl, rfl⟩
    | rule rest i _ hi => exact commandRule_table hi
    | reset rest hhost => exact absurd (by simp [hhost]) hreset
  rcases hcases with ⟨htab, htrdy⟩ | ⟨hclear, htab, htrdy⟩
  · exact ⟨fun hset => ⟨htab, htrdy.trans hset⟩, fun hclear => .inl ⟨htab, htrdy.trans hclear⟩⟩
  · exact ⟨fun hset => absurd (hset.symm.trans hclear) (by decide), fun _ => .inr ⟨htab, htrdy⟩⟩

/-! Flags. -/

/-- Only PADD's rule writes EQ (R14). -/
theorem eq_padd_of_commandRule_eq {i : Instr} {s : State} (h : (commandRule Config.sm2 i s).eq ≠ s.eq) :
    ∃ rd ra rb, i = .padd rd ra rb := by
  cases i with
  | padd rd ra rb => exact ⟨rd, ra, rb, rfl⟩
  | _ => simp [commandRule, ruleMmul, ruleMsqr, ruleMred, ruleMenc, ruleMinv, ruleKinv, ruleCmov, ruleCneg, ruleTsel, rulePdbl,
      rulePaddm, rulePaff, ruleBmul, ruleSmul, ruleCmul, ruleTinit] at h

/-- Only the rules of PAFF, BMUL, SMUL and CMUL write INF (R14). -/
theorem eq_affine_of_commandRule_inf {i : Instr} {s : State} (h : (commandRule Config.sm2 i s).inf ≠ s.inf) :
    (∃ rd ra, i = .paff rd ra) ∨ (∃ rd ra, i = .bmul rd ra) ∨ (∃ rd ra rb, i = .smul rd ra rb) ∨
      ∃ rd ra rb rc, i = .cmul rd ra rb rc := by
  cases i with
  | paff rd ra => exact .inl ⟨rd, ra, rfl⟩
  | bmul rd ra => exact .inr (.inl ⟨rd, ra, rfl⟩)
  | smul rd ra rb => exact .inr (.inr (.inl ⟨rd, ra, rb, rfl⟩))
  | cmul rd ra rb rc => exact .inr (.inr (.inr ⟨rd, ra, rb, rc, rfl⟩))
  | _ => simp [commandRule, ruleMmul, ruleMsqr, ruleMred, ruleMenc, ruleMinv, ruleKinv, ruleCmov, ruleCneg, ruleTsel, rulePdbl,
      rulePadd, rulePaddm, ruleTinit] at h

/-- Only the rules of MINV and KINV write ZR (R14). -/
theorem eq_inverse_of_commandRule_zr {i : Instr} {s : State} (h : (commandRule Config.sm2 i s).zr ≠ s.zr) :
    (∃ m rd ra, i = .minv m rd ra) ∨ ∃ rd ra, i = .kinv rd ra := by
  cases i with
  | minv m rd ra => exact .inl ⟨m, rd, ra, rfl⟩
  | kinv rd ra => exact .inr ⟨rd, ra, rfl⟩
  | _ => simp [commandRule, ruleMmul, ruleMsqr, ruleMred, ruleMenc, ruleCmov, ruleCneg, ruleTsel, rulePdbl,
      rulePadd, rulePaddm, rulePaff, ruleBmul, ruleSmul, ruleCmul, ruleTinit] at h

/-- Settles O6: a fault writes no flag, and of the rules each flag is written by the ones R14 names. -/
theorem flagsAreWrittenOnlyByTheirCommands : Obligations.FlagsAreWrittenOnlyByTheirCommands := by
  intro i s t h
  have htrdy : t.trdy ≠ s.trdy → i = .tinit := fun hne => by_contra fun hi => hne (exec_table h hi).2
  cases hf : faultOf i s with
  | none =>
    obtain rfl := Host.Outcome.next.inj ((exec_of_none hf).symm.trans h)
    exact ⟨eq_padd_of_commandRule_eq, eq_affine_of_commandRule_inf, eq_inverse_of_commandRule_zr, htrdy⟩
  | some c =>
    obtain rfl := Host.Outcome.next.inj ((exec_of_fault hf).symm.trans h)
    exact ⟨absurd rfl, absurd rfl, absurd rfl, htrdy⟩

/-! The sequence of host actions. -/

/-- Settles O8: the definition of a step, by whether an action is pending. -/
theorem stepTakesTheOldestHostAction : Obligations.StepTakesTheOldestHostAction := by
  refine ⟨fun s h => ?_, fun s a rest h => ?_⟩ <;> simp [step, nextAction, h]

theorem ofNat_toNat_eq_setWidth (v : BusWord) : BitVec.ofNat 32 v.toNat = v.setWidth 32 :=
  BitVec.eq_of_toNat_eq (by simp)

/-- A step on a word that `withFetchWord` places issues the word. -/
theorem step_withFetchWord (s : State) (nbits w : Nat) :
    step (s.withFetchWord nbits w) = issue (BitVec.ofNat 32 (w % 2 ^ nbits)) s := by
  have hhost : (s.withFetchWord nbits w).host = .write 0x200 4 (BitVec.ofNat 64 (BitVec.ofNat 32 (w % 2 ^ nbits)).toNat) :: s.host :=
    rfl
  rw [step_of_cmd_write hhost]
  have hword (cw : CmdWord) : BitVec.ofNat 32 (BitVec.ofNat 64 cw.toNat).toNat = cw := by
    have hlt := cw.isLt
    apply BitVec.eq_of_toNat_eq
    simp only [BitVec.toNat_ofNat]
    omega
  rw [hword]
  rfl

theorem decode_of_decodeTableWord {nbits w : Nat} {i : Instr} (h : decodeTableWord nbits w = some i) :
    decode (BitVec.ofNat 32 (w % 2 ^ nbits)) = .ok i := by
  unfold decodeTableWord at h
  split at h
  case h_1 j hj => rw [hj, Option.some.inj h]
  case h_2 => cases h

/-- Settles O9: the write of CMD issues the word, and issuing goes by what the decoder answers. -/
theorem stepRunsTheDecodedCommand : Obligations.StepRunsTheDecodedCommand := by
  refine ⟨fun s v rest hhost => ?_, step_withFetchWord, fun s nbits w i herr hdecode => ?_⟩
  · have hstep := step_of_cmd_write hhost
    rw [ofNat_toNat_eq_setWidth] at hstep
    refine ⟨hstep, fun herr => ⟨fun i hdecode => ?_, fun hdecode => ?_, fun hdecode => ?_⟩⟩
    · exact hstep.trans (issue_of_ok herr hdecode)
    · exact hstep.trans (issue_of_illop herr hdecode)
    · exact hstep.trans (issue_of_rsvd herr hdecode)
  · rw [step_withFetchWord, issue_of_ok herr (decode_of_decodeTableWord hdecode)]

/-! Traps. -/

/-- Check 3 of R148 comes first. -/
theorem faultOf_of_groups {i : Instr} (s : State) (h : i.groupsOk = false) : faultOf i s = some .regidx := by
  simp [faultOf, spans_any_pastEnd, h]

/-- Check 4 of R148. -/
theorem faultOf_of_column {i : Instr} (s : State) (hgroups : i.groupsOk = true) (h : i.columnOk = false) :
    faultOf i s = some .col := by
  simp [faultOf, spans_any_pastEnd, badColumn_eq, hgroups, h]

/-- Check 5 of R148. -/
theorem faultOf_of_unbuilt {i : Instr} {s : State} (hwf : i.wf = true) (hread : readsTable i = true) (htrdy : s.trdy = false) :
    faultOf i s = some .notab := by
  obtain ⟨hgroups, hcol⟩ := Bool.and_eq_true_iff.1 hwf
  simp [faultOf, spans_any_pastEnd, badColumn_eq, hgroups, hcol, hread, htrdy]

/-- Check 6 of R148. -/
theorem faultOf_tinit_of_built {s : State} (htrdy : s.trdy = true) : faultOf .tinit s = some .tabdone := by
  simp [faultOf, spans, badColumn, readsTable, buildsTable, htrdy]

/-- Settles O15: each check's code, with the fault that `exec` raises for it. -/
theorem commandsTrapWhereTheRulesSay : Obligations.CommandsTrapWhereTheRulesSay := by
  intro i s
  refine ⟨fun hgroups => ?_, fun hgroups hcol => ?_, fun hwf htrdy hi => ?_, fun hi htrdy => ?_⟩
  · exact exec_of_fault (faultOf_of_groups s hgroups)
  · exact exec_of_fault (faultOf_of_column s hgroups hcol)
  · have hread : readsTable i = true := by
      rcases hi with ⟨rd, ra, col, rfl⟩ | ⟨rd, ra, rfl⟩ | ⟨rd, ra, rb, rc, rfl⟩ <;> rfl
    exact exec_of_fault (faultOf_of_unbuilt hwf hread htrdy)
  · subst hi
    exact exec_of_fault (faultOf_tinit_of_built htrdy)

/-- Of the state the checks 3 to 6 of R148 read TRDY only. -/
theorem faultOf_congr (i : Instr) {s s' : State} (h : s'.trdy = s.trdy) : faultOf i s' = faultOf i s := by
  rw [faultOf, faultOf, h]

/-- ERR and ECMD after a command, as a function of the command, TRDY, ERR and ECMD. -/
theorem exec_fault_congr {i : Instr} {s s' t t' : State} (htrdy : s'.trdy = s.trdy) (herr : s'.err = s.err)
    (hecmd : s'.ecmd = s.ecmd) (h : exec i s = .next t) (h' : exec i s' = .next t') : t'.err = t.err ∧ t'.ecmd = t.ecmd := by
  have hsame := faultOf_congr i htrdy
  cases hf : faultOf i s with
  | none =>
    obtain ⟨he, hc, -⟩ := exec_system h hf
    obtain ⟨he', hc', -⟩ := exec_system h' (hsame.trans hf)
    exact ⟨by rw [he', he, herr], by rw [hc', hc, hecmd]⟩
  | some c =>
    obtain rfl := Host.Outcome.next.inj ((exec_of_fault hf).symm.trans h)
    obtain rfl := Host.Outcome.next.inj ((exec_of_fault (hsame.trans hf)).symm.trans h')
    exact ⟨rfl, rfl⟩

/-- Settles O17: the sticky check reads ERR, the decoder the word, and the command's checks TRDY. -/
theorem faultsDoNotDependOnData : Obligations.FaultsDoNotDependOnData := by
  intro cw s s' t t' htrdy herr hecmd h h'
  by_cases hquiet : s.err = 0
  · have hquiet' : s'.err = 0 := herr.trans hquiet
    cases hd : decode cw with
    | ok i =>
      rw [issue_of_ok hquiet hd] at h
      rw [issue_of_ok hquiet' hd] at h'
      exact exec_fault_congr htrdy herr hecmd h h'
    | error e =>
      cases e with
      | illop =>
        obtain rfl := Host.Outcome.next.inj ((issue_of_illop hquiet hd).symm.trans h)
        obtain rfl := Host.Outcome.next.inj ((issue_of_illop hquiet' hd).symm.trans h')
        exact ⟨rfl, rfl⟩
      | rsvd =>
        obtain rfl := Host.Outcome.next.inj ((issue_of_rsvd hquiet hd).symm.trans h)
        obtain rfl := Host.Outcome.next.inj ((issue_of_rsvd hquiet' hd).symm.trans h')
        exact ⟨rfl, rfl⟩
  · have hlatched' : s'.err ≠ 0 := herr ▸ hquiet
    obtain rfl := Host.Outcome.next.inj ((issue_of_err_ne_zero cw hquiet).symm.trans h)
    obtain rfl := Host.Outcome.next.inj ((issue_of_err_ne_zero cw hlatched').symm.trans h')
    exact ⟨herr, hecmd⟩

end Sys2Proof.Machine
end

section
/-! The table while TRDY = 0 (R165, U5): the operations of the machine one by one on two states that differ in it. -/

namespace Sys2Proof.Machine

open Sys2Proof.Safety

/-- `s` with the table `tab'`. -/
def State.withTab (s : State) (tab' : Table) : State :=
  { s with tab := tab' }

/-- `t'` is `t` but for the table, and with TRDY = 1 it is `t`. -/
def SameButTable (t t' : State) : Prop :=
  ∃ tab', t' = t.withTab tab' ∧ (t.trdy = true → tab' = t.tab)

/-- A state without the table, with any other content there. -/
theorem sameButTable_withTab {t : State} (tab' : Table) (h : t.trdy = false) : SameButTable t (t.withTab tab') :=
  ⟨tab', rfl, fun hset => absurd (hset.symm.trans h) (by decide)⟩

theorem SameButTable.refl (t : State) : SameButTable t t :=
  ⟨t.tab, rfl, fun _ => rfl⟩

/-! Operations that the table does not enter. -/

theorem State.setReg_withTab (s : State) (tab' : Table) (i : Nat) (w : Word) :
    (s.withTab tab').setReg i w = (s.setReg i w).withTab tab' := by
  unfold State.setReg
  split <;> rfl

theorem State.setVal_withTab (s : State) (tab' : Table) (i v : Nat) :
    (s.withTab tab').setVal i v = (s.setVal i v).withTab tab' :=
  s.setReg_withTab tab' i _

theorem State.setPair_withTab (s : State) (tab' : Table) (i : Nat) (a : Affine) :
    (s.withTab tab').setPair i a = (s.setPair i a).withTab tab' := by
  simp only [State.setPair, State.setVal_withTab]

theorem State.setTriple_withTab (s : State) (tab' : Table) (i : Nat) (p : Jac) :
    (s.withTab tab').setTriple i p = (s.setTriple i p).withTab tab' := by
  simp only [State.setTriple, State.setVal_withTab]

/-- A command that neither reads nor builds the table has its rule's result whatever the table holds. -/
theorem commandRule_withTab (c : Config.Params) {i : Instr} (s : State) (tab' : Table) (hread : readsTable i = false)
    (hbuild : buildsTable i = false) : commandRule c i (s.withTab tab') = (commandRule c i s).withTab tab' := by
  cases i with
  | tsel | bmul | cmul => cases hread
  | tinit => cases hbuild
  | mmul | msqr | mred | menc => exact s.setVal_withTab tab' _ _
  | minv | kinv => exact congrArg (State.setZr · _) (s.setVal_withTab tab' _ _)
  | cmov => exact s.setReg_withTab tab' _ _
  | cneg => exact s.setVal_withTab tab' _ _
  | pdbl | paddm => exact s.setTriple_withTab tab' _ _
  | padd => exact congrArg (State.setEq · _) (s.setTriple_withTab tab' _ _)
  | paff | smul => exact congrArg (State.setInf · _) (s.setPair_withTab tab' _ _)

theorem itemValue_withTab (s : State) (tab' : Table) (it : Item) : itemValue (s.withTab tab') it = itemValue s it := by
  cases it <;> rfl

theorem memRead_withTab (s : State) (tab' : Table) (addr n : Nat) : memRead (s.withTab tab') addr n = memRead s addr n :=
  memRead_congr fun _ _ => State.byteAt_congr _ _ _ fun r _ _ _ => itemValue_withTab s tab' r.item

/-! The meanings, while TRDY = 0. -/

section
variable {s t : State} (tab' : Table)

theorem exec_withTab {i : Instr} (htrdy : s.trdy = false) (h : exec i s = .next t) :
    ∃ t', exec i (s.withTab tab') = .next t' ∧ SameButTable t t' := by
  have hsame : faultOf i (s.withTab tab') = faultOf i s := faultOf_congr i rfl
  cases hf : faultOf i s with
  | some c =>
    obtain rfl := Host.Outcome.next.inj ((exec_of_fault hf).symm.trans h)
    exact ⟨_, exec_of_fault (hsame.trans hf), sameButTable_withTab tab' htrdy⟩
  | none =>
    obtain rfl := Host.Outcome.next.inj ((exec_of_none hf).symm.trans h)
    refine ⟨_, exec_of_none (hsame.trans hf), ?_⟩
    by_cases hi : i = .tinit
    · subst hi
      exact .refl _
    · have ⟨_, hread, _⟩ := (faultOf_eq_none_iff i s).1 hf
      rw [commandRule_withTab]
      · exact sameButTable_withTab tab' ((exec_table (exec_of_none hf) hi).2.trans htrdy)
      · exact Bool.eq_false_iff.2 fun hreads => absurd (hread hreads) (by simp [htrdy])
      · cases i with
        | tinit => exact absurd rfl hi
        | _ => rfl

theorem issue_withTab {cw : CmdWord} (htrdy : s.trdy = false) (h : issue cw s = .next t) :
    ∃ t', issue cw (s.withTab tab') = .next t' ∧ SameButTable t t' := by
  by_cases hquiet : s.err = 0
  · have hquiet' : (s.withTab tab').err = 0 := hquiet
    rcases hd : decode cw with (_ | _) | i
    · obtain rfl := Host.Outcome.next.inj ((issue_of_illop hquiet hd).symm.trans h)
      exact ⟨_, issue_of_illop hquiet' hd, sameButTable_withTab tab' htrdy⟩
    · obtain rfl := Host.Outcome.next.inj ((issue_of_rsvd hquiet hd).symm.trans h)
      exact ⟨_, issue_of_rsvd hquiet' hd, sameButTable_withTab tab' htrdy⟩
    · rw [issue_of_ok hquiet hd] at h
      rw [issue_of_ok hquiet' hd]
      exact exec_withTab tab' htrdy h
  · have hlatched' : (s.withTab tab').err ≠ 0 := hquiet
    obtain rfl := Host.Outcome.next.inj ((issue_of_err_ne_zero cw hquiet).symm.trans h)
    exact ⟨_, issue_of_err_ne_zero cw hlatched', sameButTable_withTab tab' htrdy⟩

theorem memWrite_withTab {addr n : Nat} {v : BusWord} (htrdy : s.trdy = false) (h : memWrite s addr n v = .next t) :
    ∃ t', memWrite (s.withTab tab') addr n v = .next t' ∧ SameButTable t t' := by
  unfold memWrite at h ⊢
  cases hadm : admitted addr n with
  | none => simp [hadm] at h
  | some r =>
    simp only [hadm] at h ⊢
    cases hit : r.item with
    | reg i =>
      simp only [hit] at h ⊢
      obtain rfl := Host.Outcome.next.inj h
      exact ⟨_, congrArg _ (s.setReg_withTab tab' i _), sameButTable_withTab tab' (by simpa using htrdy)⟩
    | cmd =>
      simp only [hit] at h ⊢
      exact issue_withTab tab' htrdy h
    | _ =>
      simp only [hit] at h ⊢
      obtain rfl := Host.Outcome.next.inj h
      exact ⟨_, rfl, sameButTable_withTab tab' htrdy⟩

theorem hostRead_withTab {addr n : Nat} (htrdy : s.trdy = false) (h : hostRead s addr n = .next t) :
    ∃ t', hostRead (s.withTab tab') addr n = .next t' ∧ SameButTable t t' := by
  obtain ⟨v, hv, rfl⟩ := hostRead_next h
  refine ⟨_, ?_, sameButTable_withTab tab' htrdy⟩
  rw [hostRead, memRead_withTab, hv]
  rfl

theorem step_withTab (htrdy : s.trdy = false) (h : step s = .next t) :
    ∃ t', step (s.withTab tab') = .next t' ∧ SameButTable t t' := by
  obtain ⟨hidle, haction⟩ := stepTakesTheOldestHostAction
  cases hhost : s.host with
  | nil =>
    obtain rfl := Host.Outcome.next.inj ((hidle s hhost).symm.trans h)
    exact ⟨_, hidle _ hhost, sameButTable_withTab tab' htrdy⟩
  | cons a rest =>
    rw [haction s a rest hhost] at h
    rw [haction (s.withTab tab') a rest hhost]
    cases a with
    | read addr n => exact hostRead_withTab (s := { s with host := rest }) tab' htrdy h
    | write addr n v => exact memWrite_withTab (s := { s with host := rest }) tab' htrdy h
    | reset =>
      obtain rfl := Host.Outcome.next.inj h
      exact ⟨_, rfl, .refl _⟩

end

/-- Settles O5: every operation that passes its checks while TRDY = 0 leaves the table alone or builds it whole. -/
theorem unbuiltTableIsUnobservable : Obligations.UnbuiltTableIsUnobservable := by
  intro s tab' t htrdy h
  obtain ⟨t', hstep, tab'', rfl, hbuilt⟩ := step_withTab tab' htrdy h
  exact ⟨_, hstep, rfl, rfl, rfl, rfl, rfl, rfl, hbuilt⟩

end Sys2Proof.Machine
end

section
/-! Host accesses (R30 to R37): which are accepted, what reads return, and what writes leave. -/

namespace Sys2Proof.Machine

open Sys2Proof.Safety

/-! The accepted accesses. -/

/-- The lines of the map by their place: registers, PARAM constants, and the four items of size 4 (R30). -/
theorem apertureMap_places : ∀ r ∈ apertureMap,
    (r.size = 32 ∧ r.base + 32 ≤ 0x200) ∨ (r.size = 32 ∧ 0x300 ≤ r.base ∧ r.base + 32 ≤ 0x3C0) ∨
    (r.size = 4 ∧ (r.base = 0x200 ∨ r.base = 0x204 ∨ r.base = 0x208 ∨ r.base = 0x3C0)) := by
  decide +kernel

theorem widthOk_iff {r : Region} {addr n : Nat} : widthOk r addr n = true ↔ (r.size = 4 → n = 4 ∧ addr = r.base) := by
  unfold widthOk
  split
  case isTrue h => simp [h]
  case isFalse h => simp [h]

/-- An access is accepted in a line of the map exactly when it is an aligned access of 1, 2, 4 or 8 bytes inside it, the
whole line for an item of size 4 (R31, R35, R36). -/
theorem admitted_eq_some_iff {addr n : Nat} {r : Region} :
    admitted addr n = some r ↔ (n = 1 ∨ n = 2 ∨ n = 4 ∨ n = 8) ∧ addr % n = 0 ∧
      r ∈ apertureMap ∧ r.base ≤ addr ∧ addr + n ≤ r.base + r.size ∧ (r.size = 4 → n = 4 ∧ addr = r.base) := by
  rw [admitted, Option.ite_none_right_eq_some, Option.filter_eq_some_iff, widthOk_iff]
  constructor
  · rintro ⟨⟨hn, hal⟩, hloc, hw⟩
    obtain ⟨hr, hlo, hhi⟩ := (locate_eq_some_iff _ _ _ (by omega)).1 hloc
    exact ⟨hn, hal, hr, hlo, hhi, hw⟩
  · rintro ⟨hn, hal, hr, hlo, hhi, hw⟩
    exact ⟨⟨hn, hal⟩, (locate_eq_some_iff _ _ _ (by omega)).2 ⟨hr, hlo, hhi⟩, hw⟩

/-- An aligned access of the PARAM window is accepted, in the line of one constant. -/
theorem isSome_admitted_param {addr n : Nat} (hn : n = 1 ∨ n = 2 ∨ n = 4 ∨ n = 8) (hal : addr % n = 0) (hlo : 0x300 ≤ addr)
    (hhi : addr + n ≤ 0x3C0) : (admitted addr n).isSome = true := by
  have hlen : paramNames.length = 6 := rfl
  have hk : (addr - 0x300) / 32 < paramNames.length := by omega
  refine Option.isSome_iff_exists.2 ⟨paramRegion _ _, admitted_eq_some_iff.2 ⟨hn, hal,
    paramRegion_mem_apertureMap (List.getElem?_eq_getElem hk), ?_, ?_, fun h => absurd h (by simp [paramRegion])⟩⟩
  · simp only [paramRegion]
    omega
  · simp only [paramRegion]
    rcases hn with rfl | rfl | rfl | rfl <;> omega

/-- Settles O18: an accepted access lies in a line of the map, and every place of the map is covered by a line. -/
theorem apertureAdmitsExactlyTheMap : Obligations.ApertureAdmitsExactlyTheMap := by
  intro addr n
  constructor
  · intro h
    obtain ⟨r, hr⟩ := Option.isSome_iff_exists.1 h
    obtain ⟨hn, hal, hmem, hlo, hhi, hw⟩ := admitted_eq_some_iff.1 hr
    refine ⟨hn, hal, ?_⟩
    rcases apertureMap_places r hmem with ⟨hsize, hplace⟩ | ⟨hsize, hplace⟩ | ⟨hsize, hplace⟩
    · omega
    · omega
    · obtain ⟨hfour, rfl⟩ := hw hsize
      exact .inr (.inr ⟨hfour, hplace⟩)
  · intro h
    have ⟨hn, hal, hplace⟩ := h
    rcases hplace with hreg | ⟨hlo, hhi⟩ | ⟨rfl, rfl | rfl | rfl | rfl⟩
    · obtain ⟨i, t, rfl, hi, ht⟩ := exists_register_of_admissible h hreg
      rw [admitted_regRegion hi hn ht hal]
      rfl
    · exact isSome_admitted_param hn hal hlo hhi
    all_goals decide

theorem exists_admitted_of_admissible {addr n : Nat} (h : Admissible addr n) : ∃ r, admitted addr n = some r :=
  Option.isSome_iff_exists.1 ((apertureAdmitsExactlyTheMap addr n).2 h)

theorem admitted_eq_none_iff {addr n : Nat} : admitted addr n = none ↔ ¬ Admissible addr n := by
  rw [← apertureAdmitsExactlyTheMap addr n, Option.not_isSome_iff_eq_none]

/-! Reads. -/

theorem memRead_eq_none_iff {s : State} {addr n : Nat} : memRead s addr n = none ↔ ¬ Admissible addr n := by
  rw [memRead, Option.map_eq_none_iff, admitted_eq_none_iff]

/-- The big-endian integer of `n` bytes as a sum over their offsets (R31). -/
theorem bigEndian_map_range (b : Nat → Byte) (n : Nat) :
    bigEndian ((List.range n).map b) = ∑ t ∈ Finset.range n, (b t).toNat * 256 ^ (n - 1 - t) := by
  induction n with
  | zero => rfl
  | succ n ih =>
    rw [List.range_succ, List.map_append, List.map_singleton, bigEndian_concat, ih, Finset.sum_range_succ, Finset.mul_sum]
    congr 1
    · refine Finset.sum_congr rfl fun t ht => ?_
      have hlt := Finset.mem_range.1 ht
      rw [show n + 1 - 1 - t = n - 1 - t + 1 by omega, pow_succ]
      ring
    · simp

/-- Accesses are at most eight bytes wide: the big-endian integer fits the bus. -/
theorem toNat_ofNat_bigEndian {bs : List Byte} (h : bs.length ≤ 8) : (BitVec.ofNat 64 (bigEndian bs)).toNat = bigEndian bs := by
  rw [BitVec.toNat_ofNat]
  refine Nat.mod_eq_of_lt ((bigEndian_lt bs).trans_le ?_)
  calc 256 ^ bs.length
      ≤ 256 ^ 8 := Nat.pow_le_pow_right (by norm_num) h
    _ = 2 ^ 64 := by norm_num

/-- Where every covered offset has a byte the bytes of an access are those. -/
theorem State.bytesAt_eq_map {s : State} {addr n : Nat} {b : Nat → Byte} (h : ∀ t, t < n → s.byteAt (addr + t) = some (b t)) :
    s.bytesAt addr n = (List.range n).map b := by
  rw [State.bytesAt, ← List.filterMap_eq_map]
  exact List.filterMap_congr fun t ht => h t (List.mem_range.1 ht)

/-- Settles O20: an accepted access covers bytes of one item, at most eight of them. -/
theorem readsAreBigEndian : Obligations.ReadsAreBigEndian := by
  intro s addr n h
  obtain ⟨r, hr⟩ := exists_admitted_of_admissible h
  obtain ⟨hn, -, hmem, hlo, hhi, -⟩ := admitted_eq_some_iff.1 hr
  have hbytes (t : Nat) (ht : t < n) : s.byteAt (addr + t) =
      some (BitVec.ofNat 8 (imageByte r.size (itemValue s r.item) (addr - r.base + t))) := by
    rw [← s.byteAt_of_mem r _ hmem (by omega), show r.base + (addr - r.base + t) = addr + t by omega]
  refine ⟨_, hbytes, ?_⟩
  rw [memRead, hr, Option.map_some, Option.map_some, State.bytesAt_eq_map hbytes, toNat_ofNat_bigEndian,
    bigEndian_map_range]
  simp only [List.length_map, List.length_range]
  omega

/-- Settles O19: a read returns exactly for an accepted access, and a refused one is a bus error. -/
theorem hostAccessesAnswerOrAreRefused : Obligations.HostAccessesAnswerOrAreRefused := by
  obtain ⟨-, haction⟩ := stepTakesTheOldestHostAction
  refine ⟨fun s addr n rest h hhost => ?_, fun s addr n rest h hhost => ?_, fun s addr n v rest h hhost => ?_⟩
  · obtain ⟨v, hv⟩ := Option.ne_none_iff_exists'.1 fun hnone => memRead_eq_none_iff (s := { s with host := rest }).1 hnone h
    refine ⟨v, hv, ?_⟩
    rw [haction s _ rest hhost, hostStep, hostRead, hv]
  · rw [haction s _ rest hhost, hostStep, hostRead, memRead_eq_none_iff.2 h]
  · rw [haction s _ rest hhost, hostStep, memWrite, admitted_eq_none_iff.2 h]

/-! Writes. -/

theorem issue_next (cw : CmdWord) (s : State) : ∃ t, issue cw s = .next t := by
  rcases issue_cases (rfl : issue cw s = _) with ⟨-, ho⟩ | ⟨-, c, -, ho⟩ | ⟨-, i, -, ho⟩
  · exact ⟨_, ho⟩
  · exact ⟨_, ho⟩
  · rw [ho]
    exact exec_next i s

/-- An accepted write answers a next state: commands do not stop the machine. -/
theorem memWrite_next {addr n : Nat} (s : State) (v : BusWord) (h : Admissible addr n) : ∃ t, memWrite s addr n v = .next t := by
  rcases memWrite_cases (rfl : memWrite s addr n v = _) with ⟨hnone, -⟩ | ⟨r, -, ⟨i, -, ho⟩ | ⟨-, ho⟩ | ⟨-, -, ho⟩⟩
  · exact absurd h (admitted_eq_none_iff.1 hnone)
  · exact ⟨_, ho⟩
  · rw [ho]
    exact issue_next _ s
  · exact ⟨_, ho⟩

/-- Settles O7: everything but an access that the aperture does not accept answers a next state. -/
theorem stepStopsOnlyOnABusError : Obligations.StepStopsOnlyOnABusError := by
  intro s
  obtain ⟨hread, hrefuseRead, hrefuseWrite⟩ := hostAccessesAnswerOrAreRefused
  rcases step_cases s with ⟨-, hs⟩ | ⟨addr, n, rest, hhost, -⟩ | ⟨addr, n, v, rest, hhost, hs⟩ | ⟨rest, -, hs⟩
  · exact .inl ⟨_, hs⟩
  · by_cases h : Admissible addr n
    · obtain ⟨v, -, hs⟩ := hread s addr n rest h hhost
      exact .inl ⟨_, hs⟩
    · exact .inr ⟨addr, n, rest, h, hrefuseRead s addr n rest h hhost, .inl hhost⟩
  · by_cases h : Admissible addr n
    · rw [hs]
      exact .inl (memWrite_next _ v h)
    · exact .inr ⟨addr, n, rest, h, hrefuseWrite s addr n v rest h hhost, .inr ⟨v, hhost⟩⟩
  · exact .inl ⟨_, hs⟩

/-- From `0x204` on the map holds read-only items only (R30). -/
theorem item_readOnly_of_lt : ∀ r ∈ apertureMap, 0x204 < r.base + r.size →
    r.item = .status ∨ r.item = .ecmd ∨ r.item = .bits ∨ ∃ k ∈ paramNames, r.item = .param k := by
  decide +kernel

/-- Settles O23: an accepted access from `0x204` on falls in a read-only item. -/
theorem readOnlyItemsIgnoreWrites : Obligations.ReadOnlyItemsIgnoreWrites := by
  intro s addr n v h haddr
  obtain ⟨r, hr⟩ := exists_admitted_of_admissible h
  obtain ⟨hn, -, hmem, -, hhi, -⟩ := admitted_eq_some_iff.1 hr
  rcases item_readOnly_of_lt r hmem (by omega) with hit | hit | hit | ⟨k, -, hit⟩ <;> simp [memWrite, hr, hit]

/-- Reading the first `m` of the `n` bytes just written returns the value's `m` most significant bytes (R34). -/
theorem memRead_putRegBytes (s : State) {i t n m : Nat} (v : Nat) (hi : i < 16) (ht : t + n ≤ 32) (hmn : m ≤ n)
    (hm : m = 1 ∨ m = 2 ∨ m = 4 ∨ m = 8) (hal : (32 * i + t) % m = 0) :
    memRead (s.putRegBytes i t n v) (32 * i + t) m = some (BitVec.ofNat 64 (v / 256 ^ (n - m) % 256 ^ m)) := by
  have hbytes (k : Nat) (hk : k < m) :
      (s.putRegBytes i t n v).byteAt (32 * i + t + k) = some (BitVec.ofNat 8 (imageByte n v (0 + k))) := by
    rw [State.byteAt_putRegBytes s _ _ hi ht, if_pos (by omega), Nat.add_sub_cancel_left, zero_add]
  rw [memRead, admitted_regRegion hi hm (by omega) hal, Option.map_some, State.bytesAt_eq_map hbytes,
    bigEndian_image n v 0 m (by omega), zero_add]

/-- Settles O22: the read covers all of the bytes just written, or the first of them. -/
theorem readReturnsTheLatestWrite : Obligations.ReadReturnsTheLatestWrite := by
  intro s addr n v h hw
  obtain ⟨i, t, rfl, hi, ht⟩ := exists_register_of_admissible h hw
  obtain ⟨hn, hal, -⟩ := h
  refine ⟨_, memWrite_reg s v hi hn ht hal, ?_, ?_⟩
  · simpa using memRead_putRegBytes s v.toNat hi ht le_rfl hn hal
  · simpa using memRead_putRegBytes s v.toNat hi ht (by omega : 1 ≤ n) (.inl rfl) (Nat.mod_one _)

/-! STATUS. -/

/-- The bits of an integer with `b` below those of `n`. -/
theorem testBit_toNat_add_two_mul (b : Bool) (n k : Nat) :
    (b.toNat + 2 * n).testBit k = if k = 0 then b else n.testBit (k - 1) := by
  cases k with
  | zero => cases b <;> simp
  | succ k =>
    have hhalf : (b.toNat + 2 * n) / 2 = n := by
      have hb := b.toNat_lt
      omega
    rw [Nat.testBit_succ, hhalf]
    rfl

/-- ERR has eight bits. -/
theorem State.err_testBit (s : State) {k : Nat} (h : 8 ≤ k) : s.err.toNat.testBit k = false :=
  BitVec.testBit_toNat s.err ▸ BitVec.getLsbD_of_ge s.err k h

/-- The bits of STATUS (R14). -/
theorem State.statusWord_getLsbD (s : State) (k : Nat) : s.statusWord.getLsbD k =
    if k = 0 then s.trdy else if k = 1 then s.eq else if k = 2 then s.inf else if k = 3 then s.zr
    else if 8 ≤ k ∧ k < 16 then s.err.getLsbD (k - 8) else false := by
  have hfields : s.trdy.toNat + 2 * s.eq.toNat + 4 * s.inf.toNat + 8 * s.zr.toNat + 256 * s.err.toNat =
      s.trdy.toNat + 2 * (s.eq.toNat + 2 * (s.inf.toNat + 2 * (s.zr.toNat + 2 * (2 ^ 4 * s.err.toNat)))) := by
    ring
  rw [State.statusWord, BitVec.getLsbD_ofNat, hfields]
  simp only [testBit_toNat_add_two_mul, Nat.testBit_two_pow_mul]
  rcases k with _ | _ | _ | _ | k
  iterate 4 simp
  by_cases hlow : 4 ≤ k
  · by_cases hhigh : k < 12
    · simp [hlow, show 8 ≤ k + 4 ∧ k + 4 < 16 ∧ k + 4 < 32 by omega, BitVec.testBit_toNat]
    · simp [s.err_testBit (show 8 ≤ k - 4 by omega), show ¬ k + 4 < 16 by omega]
  · simp [hlow, show ¬ 8 ≤ k + 4 by omega]

/-- A four-byte read of an item of size 4 returns the item. -/
theorem memRead_word (s : State) {r : Region} (hr : r ∈ apertureMap) (hsize : r.size = 4) (hal : r.base % 4 = 0)
    (hlt : itemValue s r.item < 2 ^ 32) : memRead s r.base 4 = some (BitVec.ofNat 64 (itemValue s r.item)) := by
  have hadm : admitted r.base 4 = some r := admitted_eq_some_iff.2 ⟨by decide, hal, hr, le_rfl, by omega, fun _ => ⟨rfl, rfl⟩⟩
  have hread := memRead_of_mem s r 0 4 hr hadm (by omega)
  simp only [hsize, add_zero, zero_add, Nat.sub_self, pow_zero, Nat.div_one] at hread
  rwa [Nat.mod_eq_of_lt (by omega)] at hread

/-- Settles O24: the sum of STATUS is its bits, and the reads are of items of size 4. -/
theorem statusHasItsLayout : Obligations.StatusHasItsLayout := by
  intro s
  refine ⟨s.statusWord_getLsbD, ?_, ?_, ?_⟩
  · rw [memRead_word s (r := ⟨0x204, 4, .status⟩) (by decide) rfl rfl s.statusWord.isLt]
    exact congrArg some (BitVec.eq_of_toNat_eq (by simp [itemValue]))
  · rw [memRead_word s (r := ⟨0x208, 4, .ecmd⟩) (by decide) rfl rfl s.ecmd.isLt]
    exact congrArg some (BitVec.eq_of_toNat_eq (by simp [itemValue]))
  · exact memRead_word s (r := ⟨0x200, 4, .cmd⟩) (by decide) rfl rfl (by simp [itemValue])

end Sys2Proof.Machine
end

section
/-! The constants that the multiplier and the inverse engine use (R2, R70, R130). -/

namespace Sys2Proof.Config

/-- The modulus is below the radix, and `RINV`, `RR` and `ONE` are what R2 defines from it: all of `Engine.Derived` that the
results of the commands rest on. -/
structure Engine.Montgomery (e : Engine) : Prop where
  m_lt : e.m < 2 ^ 256
  rinv_eq : e.rinv * radix % e.m = 1
  rr_eq : e.rr = radix * radix % e.m
  one_eq : e.one = radix % e.m

theorem Engine.Derived.montgomery {e : Engine} (h : e.Derived) : e.Montgomery := by
  obtain ⟨-, hlt, -, -, hrinv, hrr, hone, -⟩ := h
  exact ⟨hlt, hrinv, hrr, hone⟩

theorem Engine.Derived.two_lt_m {e : Engine} (h : e.Derived) : 2 < e.m := by
  obtain ⟨hlow, -⟩ := h
  omega

namespace Engine.Montgomery

variable {e : Engine} (h : e.Montgomery)
include h

/-- The residues modulo 0 and modulo 1 have no inverse of the radix with residue 1. -/
theorem one_lt_m : 1 < e.m := by
  have hinv := h.rinv_eq
  by_contra hsmall
  have hm : e.m = 0 ∨ e.m = 1 := by omega
  rcases hm with hm | hm
  · rw [hm, Nat.mod_zero] at hinv
    have hradix : radix = 1 := Nat.eq_one_of_mul_eq_one_left hinv
    norm_num at hradix
  · rw [hm, Nat.mod_one] at hinv
    cases hinv

theorem m_pos : 0 < e.m :=
  Nat.zero_lt_of_lt h.one_lt_m

/-- Fermat's exponent and R130's. -/
theorem m_sub_one : e.m - 1 = e.m - 2 + 1 := by
  have hm := h.one_lt_m
  omega

/-- In the residue ring `RINV` is the inverse of the radix. -/
theorem rinv_mul_radix : (e.rinv : ZMod e.m) * (radix : ℕ) = 1 := by
  rw [← Nat.cast_mul, ← Nat.cast_one, ZMod.natCast_eq_natCast_iff, Nat.ModEq, h.rinv_eq, Nat.mod_eq_of_lt h.one_lt_m]

theorem rr_cast : (e.rr : ZMod e.m) = (radix : ℕ) * (radix : ℕ) := by
  rw [h.rr_eq, ZMod.natCast_mod, Nat.cast_mul]

theorem one_cast : (e.one : ZMod e.m) = (radix : ℕ) := by
  rw [h.one_eq, ZMod.natCast_mod]

end Engine.Montgomery

end Sys2Proof.Config
end

section
/-! The laws of the Montgomery arithmetic (R76), and the fixed powers of the inverse engine (R130 to R132). -/

namespace Sys2Proof.Machine

open Sys2Proof.Config (Engine radix)

variable {e : Engine}

/-- Canonical integers are determined by their residues. -/
theorem eq_of_cast_eq {m x y : Nat} (hx : x < m) (hy : y < m) (h : (x : ZMod m) = y) : x = y :=
  ((ZMod.natCast_eq_natCast_iff x y m).1 h).eq_of_lt_of_lt hx hy

theorem cast_eq_one_iff {m : Nat} (hm : 1 < m) (x : Nat) : (x : ZMod m) = 1 ↔ x % m = 1 := by
  rw [← Nat.cast_one, ZMod.natCast_eq_natCast_iff, Nat.ModEq, Nat.mod_eq_of_lt hm]

/-! The laws. -/

theorem montMul_comm (e : Engine) (a b : Nat) : montMul e a b = montMul e b a := by
  rw [montMul, montMul, mul_comm a b]

theorem montMul_mod_right (e : Engine) (a b : Nat) : montMul e a (b % e.m) = montMul e a b := by
  rw [montMul_comm, montMul_mod_left, montMul_comm]

theorem montMul_assoc (hm : 0 < e.m) (a b c : Nat) : montMul e (montMul e a b) c = montMul e a (montMul e b c) := by
  refine eq_of_cast_eq (montMul_lt _ _ _ hm) (montMul_lt _ _ _ hm) ?_
  simp only [montMul_cast]
  ring

/-- `ONE` is neutral, up to the reduction of the operand (R76). -/
theorem montMul_one (h : e.Montgomery) (a : Nat) : montMul e a e.one = a % e.m := by
  refine eq_of_cast_eq (montMul_lt _ _ _ h.m_pos) (Nat.mod_lt _ h.m_pos) ?_
  rw [montMul_cast, h.one_cast, ZMod.natCast_mod]
  linear_combination (a : ZMod e.m) * h.rinv_mul_radix

/-- Multiplying by `RR` enters the Montgomery domain (R73). -/
theorem montMul_rr (h : e.Montgomery) (a : Nat) : montMul e a e.rr = a * radix % e.m := by
  refine eq_of_cast_eq (montMul_lt _ _ _ h.m_pos) (Nat.mod_lt _ h.m_pos) ?_
  rw [montMul_cast, h.rr_cast, ZMod.natCast_mod, Nat.cast_mul]
  linear_combination (a : ZMod e.m) * (radix : ℕ) * h.rinv_mul_radix

theorem montMul_eq_zero_of_left {a : Nat} (b : Nat) (ha : a % e.m = 0) : montMul e a b = 0 := by
  rw [← montMul_mod_left, ha]
  simp [montMul]

theorem montMul_eq_zero_of_right (a : Nat) {b : Nat} (hb : b % e.m = 0) : montMul e a b = 0 := by
  rw [montMul_comm]
  exact montMul_eq_zero_of_left a hb

/-- Settles O27: each law is an identity of the residue ring, with `RINV` the inverse of the radix. -/
theorem montMulLaws : Obligations.MontMulLaws := by
  intro e a b c h
  refine ⟨montMul_comm e a b, ?_, montMul_one h.montgomery a, ?_, montMul_rr h.montgomery a, montMul_assoc h.m_pos a b c,
    montMul_eq_zero_of_right a (Nat.zero_mod _), montMul_eq_zero_of_right a (Nat.mod_self _)⟩
  · rw [montMul_mod_left, montMul_mod_right]
  · rw [montMul, mul_one]

/-! The fixed powers. -/

/-- The power that the square-and-multiply loop computes is R130's. -/
theorem montInv_eq_pow (h : e.Montgomery) (a : Nat) : montInv e a = e.rr * (a % e.m) ^ (e.m - 2) % e.m := by
  have hlt := h.m_lt
  rw [montInv, powMod_eq_pow _ _ _ h.m_pos (by omega), Nat.mul_mod_mod]

theorem montInv_lt (h : e.Montgomery) (a : Nat) : montInv e a < e.m :=
  Nat.mod_lt _ h.m_pos

theorem montInv_cast (h : e.Montgomery) (a : Nat) :
    ((montInv e a : Nat) : ZMod e.m) = (radix : ℕ) * (radix : ℕ) * (a : ZMod e.m) ^ (e.m - 2) := by
  have hpow : (((a % e.m) ^ (e.m - 2) : ℕ) : ZMod e.m) = (a : ZMod e.m) ^ (e.m - 2) := by
    rw [Nat.cast_pow, ZMod.natCast_mod]
  rw [montInv_eq_pow h, ZMod.natCast_mod, Nat.cast_mul, h.rr_cast, hpow]

/-- R130: 0 for an operand congruent to 0. -/
theorem montInv_of_mod_eq_zero (h : e.Montgomery) (h2 : 2 < e.m) {a : Nat} (ha : a % e.m = 0) : montInv e a = 0 := by
  rw [montInv_eq_pow h, ha, zero_pow (by omega), mul_zero, Nat.zero_mod]

theorem kinvValue_lt (h : e.Montgomery) (k : Nat) : kinvValue e k < e.m :=
  montMul_lt _ _ _ h.m_pos

/-- Entering the Montgomery domain, inverting and leaving it (R132) leaves one power of the radix. -/
theorem kinvValue_cast (h : e.Montgomery) (k : Nat) :
    ((kinvValue e k : Nat) : ZMod e.m) = (k : ZMod e.m) ^ (e.m - 2) * (radix : ℕ) ^ (e.m - 1) := by
  have hform : ((montMul e (k % e.m) e.rr : Nat) : ZMod e.m) = k * (radix : ℕ) := by
    rw [montMul_rr h, ZMod.natCast_mod, Nat.cast_mul, ZMod.natCast_mod]
  rw [kinvValue, montMul_cast, montInv_cast h, hform, mul_pow, h.m_sub_one, pow_succ, Nat.cast_one]
  linear_combination (radix : ℕ) * (k : ZMod e.m) ^ (e.m - 2) * ((radix : ℕ) : ZMod e.m) ^ (e.m - 2) * h.rinv_mul_radix

/-- Fermat's congruence for `z`, in the residue ring. -/
theorem cast_pow_eq_one (h : e.Montgomery) {z : Nat} (hfermat : z ^ (e.m - 1) % e.m = 1) : (z : ZMod e.m) ^ (e.m - 1) = 1 := by
  rw [← Nat.cast_pow]
  exact (cast_eq_one_iff h.one_lt_m _).2 hfermat

/-- R132's value, where the radix satisfies Fermat's congruence. -/
theorem kinvValue_eq_pow (h : e.Montgomery) (hfermat : (2 ^ 256) ^ (e.m - 1) % e.m = 1) (k : Nat) :
    kinvValue e k = k ^ (e.m - 2) % e.m := by
  refine eq_of_cast_eq (kinvValue_lt h k) (Nat.mod_lt _ h.m_pos) ?_
  rw [kinvValue_cast h, cast_pow_eq_one h hfermat, mul_one, ZMod.natCast_mod, Nat.cast_pow]

theorem kinvValue_of_mod_eq_zero (h : e.Montgomery) (h2 : 2 < e.m) {k : Nat} (hk : k % e.m = 0) : kinvValue e k = 0 := by
  refine eq_of_cast_eq (kinvValue_lt h k) h.m_pos ?_
  rw [kinvValue_cast h, (ZMod.natCast_eq_zero_iff k e.m).2 (Nat.dvd_of_mod_eq_zero hk), zero_pow (by omega), zero_mul,
    Nat.cast_zero]

/-- The radix satisfies Fermat's congruence modulo both moduli of the hardware: by evaluation, without primality. -/
theorem radix_pow_engineOf_sm2 : ∀ m : ModSel,
    (2 ^ 256) ^ ((engineOf Config.sm2 m).m - 1) % (engineOf Config.sm2 m).m = 1
  | .p => by rw [← powMod_eq_pow _ _ _ (by decide +kernel) (by decide +kernel)]; decide +kernel
  | .n => by rw [← powMod_eq_pow _ _ _ (by decide +kernel) (by decide +kernel)]; decide +kernel

/-- Settles O35: by Fermat's little theorem, for the operand and for the radix. -/
theorem fixedPowersAreInverses : Obligations.FixedPowersAreInverses := by
  intro e a hprime hlt hrinv hrr hone ha
  have h : e.Montgomery := ⟨hlt, hrinv, hrr, hone⟩
  have : Fact (Nat.Prime e.m) := ⟨hprime⟩
  have hfermat : (a : ZMod e.m) * (a : ZMod e.m) ^ (e.m - 2) = 1 := by
    rw [← pow_succ', ← h.m_sub_one]
    exact ZMod.pow_card_sub_one_eq_one fun hzero => ha (Nat.mod_eq_zero_of_dvd ((ZMod.natCast_eq_zero_iff a e.m).1 hzero))
  have hradix : ((radix : ℕ) : ZMod e.m) ^ (e.m - 1) = 1 :=
    ZMod.pow_card_sub_one_eq_one (right_ne_zero_of_mul_eq_one h.rinv_mul_radix)
  constructor
  · refine eq_of_cast_eq (montMul_lt _ _ _ h.m_pos) (hone ▸ Nat.mod_lt _ h.m_pos) ?_
    rw [montMul_cast, montInv_cast h, h.one_cast]
    linear_combination (radix : ℕ) * (radix : ℕ) * (e.rinv : ZMod e.m) * hfermat + (radix : ℕ) * h.rinv_mul_radix
  · refine (cast_eq_one_iff h.one_lt_m _).1 ?_
    rw [Nat.cast_mul, kinvValue_cast h, hradix, mul_one, hfermat]

end Sys2Proof.Machine
end

section
/-! The chains of R133 and R135: each intermediate result stands for a power of the operand, in Montgomery form. -/

namespace Sys2Proof.Machine

open Sys2Proof.Config (Engine radix)
open Sys2Proof.Safety

variable {e : Engine} {a : Nat}

/-- `x` is `a^k` in the Montgomery sense: its standard form is the power of the standard form of `a` (R20). -/
def IsPower (e : Engine) (a x k : Nat) : Prop :=
  std e x = std e a ^ k

theorem isPower_self (e : Engine) (a : Nat) : IsPower e a a 1 :=
  (pow_one _).symm

theorem IsPower.mul {x y j k : Nat} (hx : IsPower e a x j) (hy : IsPower e a y k) :
    IsPower e a (montMul e x y) (j + k) := by
  rw [IsPower, ← fMul, std_fMul, hx, hy, pow_add]

theorem IsPower.sqrTimes {x k : Nat} (hx : IsPower e a x k) : ∀ n, IsPower e a (sqrTimes e x n) (k * 2 ^ n)
  | 0 => by simpa [Machine.sqrTimes] using hx
  | n + 1 => by
    have hsqr := (hx.sqrTimes n).mul (hx.sqrTimes n)
    rwa [← mul_two, mul_assoc, ← pow_succ] at hsqr

/-- Canonical integers are determined by their standard forms, `RINV` being invertible. -/
theorem eq_of_std_eq (h : e.Montgomery) {x y : Nat} (hx : x < e.m) (hy : y < e.m) (hstd : std e x = std e y) : x = y := by
  refine eq_of_cast_eq hx hy ?_
  unfold std at hstd
  linear_combination ((radix : ℕ) : ZMod e.m) * hstd + ((y : ZMod e.m) - x) * h.rinv_mul_radix

/-- Where the radix satisfies Fermat's congruence the inverse of R130 is the power `M - 2` in the Montgomery sense. -/
theorem isPower_montInv (h : e.Montgomery) (hfermat : (2 ^ 256) ^ (e.m - 1) % e.m = 1) (a : Nat) :
    IsPower e a (montInv e a) (e.m - 2) := by
  have hone : ((radix : ℕ) : ZMod e.m) ^ (e.m - 1) = 1 := cast_pow_eq_one h hfermat
  have hrinv : (e.rinv : ZMod e.m) ^ (e.m - 2) = (radix : ℕ) := by
    have hcancel : (e.rinv : ZMod e.m) ^ (e.m - 2) * ((radix : ℕ) : ZMod e.m) ^ (e.m - 2) = 1 := by
      rw [← mul_pow, h.rinv_mul_radix, one_pow]
    rw [h.m_sub_one, pow_succ] at hone
    linear_combination ((radix : ℕ) : ZMod e.m) * hcancel - (e.rinv : ZMod e.m) ^ (e.m - 2) * hone
  rw [IsPower, std, std, montInv_cast h, mul_pow, hrinv]
  linear_combination ((radix : ℕ) : ZMod e.m) * (a : ZMod e.m) ^ (e.m - 2) * h.rinv_mul_radix

/-- A canonical power `M - 2` is the inverse of R130. -/
theorem IsPower.eq_montInv (h : e.Montgomery) (hfermat : (2 ^ 256) ^ (e.m - 1) % e.m = 1) {x : Nat} (hx : x < e.m)
    (hpow : IsPower e a x (e.m - 2)) : x = montInv e a :=
  eq_of_std_eq h hx (montInv_lt h a) (hpow.trans (isPower_montInv h hfermat a).symm)

/-! R133. -/

/-- The power that the chain of R133 computes, for any modulus: the chain's own arithmetic on the exponents. -/
theorem isPower_chainP (e : Engine) (a : Nat) : IsPower e a (chainP e a)
    0xFFFFFFFEFFFFFFFFFFFFFFFFFFFFFFFFFFFFFFFF00000000FFFFFFFFFFFFFFFD := by
  have a1 := isPower_self e a
  have p2 := (a1.sqrTimes 1).mul a1
  have p4 := (p2.sqrTimes 2).mul p2
  have p8 := (p4.sqrTimes 4).mul p4
  have p16 := (p8.sqrTimes 8).mul p8
  have p32 := (p16.sqrTimes 16).mul p16
  have x24 := (p16.sqrTimes 8).mul p8
  have x28 := (x24.sqrTimes 4).mul p4
  have x30 := (x28.sqrTimes 2).mul p2
  have x31 := (x30.sqrTimes 1).mul a1
  have w0 := x31.sqrTimes 1
  have w1 := (w0.sqrTimes 32).mul p32
  have w2 := (w1.sqrTimes 32).mul p32
  have w3 := (w2.sqrTimes 32).mul p32
  have w4 := (w3.sqrTimes 32).mul p32
  have w5 := w4.sqrTimes 32
  have w6 := (w5.sqrTimes 32).mul p32
  have w7 := (w6.sqrTimes 30).mul x30
  exact (w7.sqrTimes 2).mul a1

/-- Settles O36: the exponent of the chain is `P - 2`. -/
theorem fieldChainComputesMontInv : Obligations.FieldChainComputesMontInv := by
  intro a
  have h := (engineOf_sm2_derived .p).montgomery
  exact (isPower_chainP _ a).eq_montInv h (radix_pow_engineOf_sm2 .p) (montMul_lt _ _ _ h.m_pos)

/-! R135. -/

/-- The table of R135 holds the odd powers. -/
theorem isPower_oddPower (e : Engine) (a : Nat) : ∀ i, IsPower e a (oddPower e a i) (2 * i + 1)
  | 0 => isPower_self e a
  | i + 1 => (isPower_oddPower e a i).mul ((isPower_self e a).sqrTimes 1)

/-- A non-zero hexadecimal digit is its odd part shifted. -/
theorem oddSplit_spec : ∀ d < 16, d ≠ 0 →
    (oddSplit d).1 ≤ 4 ∧ (oddSplit d).2 % 2 = 1 ∧ (oddSplit d).2 * 2 ^ (oddSplit d).1 = d := by
  decide

/-- One step of R135 appends a hexadecimal digit to the exponent. -/
theorem IsPower.chainNStep {acc j d : Nat} (hacc : IsPower e a acc j) (hd : d < 16) :
    IsPower e a (chainNStep e a acc d) (16 * j + d) := by
  unfold Machine.chainNStep
  by_cases hzero : d = 0
  · rw [if_pos hzero, hzero]
    have hshift := hacc.sqrTimes 4
    rwa [mul_comm] at hshift
  · rw [if_neg hzero]
    obtain ⟨hs, hodd, hsplit⟩ := oddSplit_spec d hd hzero
    have hstep := ((hacc.sqrTimes (4 - (oddSplit d).1)).mul (isPower_oddPower e a ((oddSplit d).2 / 2))).sqrTimes (oddSplit d).1
    have hexp : (j * 2 ^ (4 - (oddSplit d).1) + (2 * ((oddSplit d).2 / 2) + 1)) * 2 ^ (oddSplit d).1 = 16 * j + d := by
      have hshift : 2 ^ (4 - (oddSplit d).1) * 2 ^ (oddSplit d).1 = 16 := by
        rw [← pow_add, Nat.sub_add_cancel hs]
        norm_num
      have hu : 2 * ((oddSplit d).2 / 2) + 1 = (oddSplit d).2 := by omega
      rw [hu, add_mul, hsplit, mul_assoc, hshift, mul_comm]
    rwa [hexp] at hstep

/-- The loop of R135 appends the `n` lowest hexadecimal digits of `k` to the exponent. -/
theorem IsPower.chainNLoop (k : Nat) : ∀ {n acc j : Nat}, IsPower e a acc j →
    IsPower e a (chainNLoop e a k n acc) (j * 16 ^ n + k % 16 ^ n)
  | 0, acc, j, hacc => by simpa [Machine.chainNLoop, Nat.mod_one] using hacc
  | n + 1, acc, j, hacc => by
    have hrest := (hacc.chainNStep (Nat.mod_lt (k / 16 ^ n) (by norm_num : 0 < 16))).chainNLoop k (n := n)
    have hexp : (16 * j + k / 16 ^ n % 16) * 16 ^ n + k % 16 ^ n = j * 16 ^ (n + 1) + k % 16 ^ (n + 1) := by
      rw [Nat.mod_pow_succ, pow_succ]
      ring
    rwa [hexp] at hrest

theorem sqrTimes_lt (hm : 0 < e.m) {x : Nat} (hx : x < e.m) (n : Nat) : sqrTimes e x n < e.m := by
  cases n with
  | zero => exact hx
  | succ n => exact montMul_lt _ _ _ hm

theorem chainNStep_lt (hm : 0 < e.m) {acc : Nat} (d : Nat) (hacc : acc < e.m) : chainNStep e a acc d < e.m := by
  unfold chainNStep
  split
  · exact sqrTimes_lt hm hacc 4
  · exact sqrTimes_lt hm (montMul_lt _ _ _ hm) _

theorem chainNLoop_lt (hm : 0 < e.m) (k : Nat) : ∀ {n acc : Nat}, acc < e.m → chainNLoop e a k n acc < e.m
  | 0, _, hacc => hacc
  | n + 1, _, hacc => chainNLoop_lt hm k (n := n) (chainNStep_lt hm _ hacc)

/-- Settles O37: the loop starts from `a^15`, whose exponent is the top digit of `N - 2`, and appends the other 63. -/
theorem orderChainComputesMontInv : Obligations.OrderChainComputesMontInv := by
  intro a
  have h := (engineOf_sm2_derived .n).montgomery
  have hloop := (isPower_oddPower (engineOf Config.sm2 .n) a 7).chainNLoop ((engineOf Config.sm2 .n).m - 2) (n := 63)
  have hexp : (2 * 7 + 1) * 16 ^ 63 + ((engineOf Config.sm2 .n).m - 2) % 16 ^ 63 = (engineOf Config.sm2 .n).m - 2 := by
    decide +kernel
  rw [hexp] at hloop
  exact hloop.eq_montInv h (radix_pow_engineOf_sm2 .n) (chainNLoop_lt h.m_pos _ (montMul_lt _ _ _ h.m_pos))

end Sys2Proof.Machine
end

section
/-! What a command that writes one, two or three registers leaves: its results read back, and its frame. -/

namespace Sys2Proof.Machine

open Sys2Proof.Safety

variable {rd n : Nat} {s t : State}

/-! Bytes that a command does not write. -/

theorem State.reg_of_ge (s : State) {i : Nat} (h : 16 ≤ i) : s.reg i = 0 :=
  dif_neg (by omega)

/-- A register outside the group that was written shows the bytes that it showed before. -/
theorem itemValue_reg_of_regsExcept (hregs : RegsExcept rd n s t) {i : Nat} (hi : i < rd ∨ rd + n ≤ i) :
    itemValue t (.reg i) = itemValue s (.reg i) := by
  by_cases hlt : i < 16
  · exact congrArg BitVec.toNat (hregs i hlt hi)
  · simp [itemValue, State.val, State.reg_of_ge _ (Nat.le_of_not_lt hlt)]

/-- A byte outside the written registers, if it is none of STATUS or STATUS is as it was. -/
theorem byteAt_of_regsExcept (hregs : RegsExcept rd n s t) (hecmd : t.ecmd = s.ecmd) {a : Nat}
    (ha : a < 32 * rd ∨ 32 * (rd + n) ≤ a) (hstatus : (a < 0x204 ∨ 0x208 ≤ a) ∨ t.statusWord = s.statusWord) :
    t.byteAt a = s.byteAt a := by
  refine State.byteAt_congr _ _ a fun r hr hlo hhi => ?_
  cases hit : r.item with
  | reg i =>
    obtain rfl := eq_regRegion_of_mem_apertureMap hr hit
    simp only [regRegion] at hlo hhi
    exact itemValue_reg_of_regsExcept hregs (by omega)
  | status =>
    have hplace : ∀ q ∈ apertureMap, q.item = .status → q.base = 0x204 ∧ q.size = 4 := by decide +kernel
    obtain ⟨hbase, hsize⟩ := hplace r hr hit
    rcases hstatus with hout | hsame
    · omega
    · exact congrArg BitVec.toNat hsame
  | ecmd => exact congrArg BitVec.toNat hecmd
  | cmd => rfl
  | param k => rfl
  | bits => rfl

/-- The frame of a command that writes no flag, from the fields of the state. -/
theorem frame_of (hregs : RegsExcept rd n s t) (hflags : FlagsSame s t) (hsystem : SystemSame s t) : Frame rd n s t := by
  have ⟨_, htrdy, herr, hecmd, _⟩ := hsystem
  have ⟨heq, hinf, hzr⟩ := hflags
  have hstatus : t.statusWord = s.statusWord := by simp [State.statusWord, htrdy, herr, heq, hinf, hzr]
  exact ⟨hregs, hflags, hsystem, fun a ha => byteAt_of_regsExcept hregs hecmd ha (.inr hstatus)⟩

/-- The frame of a command that writes flags, from the fields of the state. -/
theorem frameButFlags_of (hregs : RegsExcept rd n s t) (hsystem : SystemSame s t) : FrameButFlags rd n s t :=
  have ⟨_, _, _, hecmd, _⟩ := hsystem
  ⟨hregs, hsystem, fun _ ha hout => byteAt_of_regsExcept hregs hecmd ha (.inl hout)⟩

/-! The frames of the writes. -/

variable (rd s)

theorem regsExcept_setReg (w : Word) : RegsExcept rd 1 s (s.setReg rd w) :=
  fun i _ hi => State.reg_setReg_other s rd i w (by omega)

theorem regsExcept_setPair (a : Affine) : RegsExcept rd 2 s (s.setPair rd a) := by
  intro i _ hi
  have h0 : rd ≠ i := by omega
  have h1 : rd + 1 ≠ i := by omega
  simp [State.setPair, State.reg_setVal, h0, h1]

theorem regsExcept_setTriple (p : Jac) : RegsExcept rd 3 s (s.setTriple rd p) := by
  intro i _ hi
  have h0 : rd ≠ i := by omega
  have h1 : rd + 1 ≠ i := by omega
  have h2 : rd + 2 ≠ i := by omega
  simp [State.setTriple, State.reg_setVal, h0, h1, h2]

theorem frame_setReg (w : Word) : Frame rd 1 s (s.setReg rd w) :=
  frame_of (regsExcept_setReg rd s w) (by simp [FlagsSame]) (by simp [SystemSame])

theorem frame_setVal (v : Nat) : Frame rd 1 s (s.setVal rd v) :=
  frame_setReg rd s _

theorem frame_setPair (a : Affine) : Frame rd 2 s (s.setPair rd a) :=
  frame_of (regsExcept_setPair rd s a) (by simp [FlagsSame]) (by simp [SystemSame])

theorem frame_setTriple (p : Jac) : Frame rd 3 s (s.setTriple rd p) :=
  frame_of (regsExcept_setTriple rd s p) (by simp [FlagsSame]) (by simp [SystemSame])

theorem frameButFlags_putInverse (v : Nat) (zr : Bool) : FrameButFlags rd 1 s (s.putInverse rd v zr) :=
  frameButFlags_of (regsExcept_setReg rd s _) (by simp [SystemSame])

theorem frameButFlags_putSum (r : Jac × Bool) : FrameButFlags rd 3 s (s.putSum rd r) :=
  frameButFlags_of (regsExcept_setTriple rd s r.1) (by simp [SystemSame])

theorem frameButFlags_putAffine (r : Affine × Bool) : FrameButFlags rd 2 s (s.putAffine rd r) :=
  frameButFlags_of (regsExcept_setPair rd s r.1) (by simp [SystemSame])

/-! Results read back. -/

variable {rd}

theorem toNat_ofNat_word {v : Nat} (hv : v < 2 ^ 256) : (BitVec.ofNat 256 v).toNat = v :=
  BitVec.toNat_ofNat v 256 ▸ Nat.mod_eq_of_lt hv

theorem val_setVal {v : Nat} (hrd : rd < 16) (hv : v < 2 ^ 256) : (s.setVal rd v).val rd = v := by
  rw [State.val, State.reg_setVal, if_pos ⟨rfl, hrd⟩, toNat_ofNat_word hv]

theorem pair_setPair {a : Affine} (hrd : rd ≤ 14) (hx : a.x < 2 ^ 256) (hy : a.y < 2 ^ 256) :
    (s.setPair rd a).pair rd = a := by
  have hfit : rd + 2 ≤ 16 := by omega
  simp [-BitVec.toNat_ofNat, State.pair, State.val, State.reg_setPair _ _ _ _ hfit, toNat_ofNat_word hx, toNat_ofNat_word hy]

theorem triple_setTriple {p : Jac} (hrd : rd ≤ 13) (hx : p.x < 2 ^ 256) (hy : p.y < 2 ^ 256) (hz : p.z < 2 ^ 256) :
    (s.setTriple rd p).triple rd = p := by
  have hfit : rd + 3 ≤ 16 := by omega
  simp [-BitVec.toNat_ofNat, State.triple, State.val, State.reg_setTriple _ _ _ _ hfit, toNat_ofNat_word hx,
    toNat_ofNat_word hy, toNat_ofNat_word hz]

/-- A register that holds the integer 0 is the word 0. -/
theorem State.reg_eq_zero_of_val {i : Nat} (h : s.val i = 0) : s.reg i = 0 :=
  BitVec.eq_of_toNat_eq h

end Sys2Proof.Machine
end

section
/-! MMUL, MSQR, MRED, MENC, MINV and KINV: each rule over any consistent record, and the machine's own. -/

namespace Sys2Proof.Machine

open Sys2Proof.Safety
open Sys2Proof.Config (radix)

/-- Settles O25: by evaluation of the six integers and their derived constants. -/
theorem curveConstantsAreConsistent : Obligations.CurveConstantsAreConsistent := by
  unfold Obligations.CurveConstantsAreConsistent
  decide +kernel

theorem engineOf_derived {c : Config.Params} (hc : c.Consistent) : ∀ m : ModSel, (engineOf c m).Derived
  | .p => hc.1
  | .n => hc.2.1

/-- A well-formed command that neither reads nor builds the table raises no fault. -/
theorem faultOf_eq_none_of_wf {i : Instr} {s : State} (hwf : i.wf = true) (hread : readsTable i = false)
    (hbuild : buildsTable i = false) : faultOf i s = none :=
  (faultOf_eq_none_iff i s).2 ⟨hwf, by simp [hread], by simp [hbuild]⟩

/-- A well-formed command that reads the table raises no fault once the table is built. -/
theorem faultOf_eq_none_of_built {i : Instr} {s : State} (hwf : i.wf = true) (htrdy : s.trdy = true)
    (hbuild : buildsTable i = false) : faultOf i s = none :=
  (faultOf_eq_none_iff i s).2 ⟨hwf, fun _ => htrdy, by simp [hbuild]⟩

section
variable {c : Config.Params} (hc : c.Consistent) (m : ModSel) (rd ra rb : Reg) (s : State)
include hc

/-- Writing a Montgomery product to a register (R72). -/
theorem setVal_montMul (a b : Nat) :
    let t := s.setVal rd (montMul (engineOf c m) a b)
    t.val rd < (engineOf c m).m ∧ t.val rd * 2 ^ 256 % (engineOf c m).m = a * b % (engineOf c m).m ∧ Frame rd 1 s t := by
  have h := engineOf_derived hc m
  have hlt := montMul_lt (engineOf c m) a b h.m_pos
  have hval := val_setVal s rd.isLt (hlt.trans h.montgomery.m_lt)
  refine ⟨?_, ?_, frame_setVal _ _ _⟩
  · rwa [hval]
  · rw [hval]
    exact montMul_mul_radix h a b

theorem ruleMmul_leaves :
    let t := ruleMmul c m rd ra rb s
    t.val rd < (engineOf c m).m ∧ t.val rd * 2 ^ 256 % (engineOf c m).m = s.val ra * s.val rb % (engineOf c m).m ∧
      Frame rd 1 s t :=
  setVal_montMul hc m rd s _ _

theorem ruleMsqr_leaves :
    let t := ruleMsqr c m rd ra s
    t.val rd < (engineOf c m).m ∧ t.val rd * 2 ^ 256 % (engineOf c m).m = s.val ra * s.val ra % (engineOf c m).m ∧
      Frame rd 1 s t :=
  setVal_montMul hc m rd s _ _

theorem ruleMred_leaves :
    let t := ruleMred c m rd ra s
    t.val rd < (engineOf c m).m ∧ t.val rd * 2 ^ 256 % (engineOf c m).m = s.val ra % (engineOf c m).m ∧ Frame rd 1 s t := by
  have hprod := setVal_montMul hc m rd s (s.val ra) 1
  rwa [mul_one] at hprod

/-- Reading back what MENC writes. -/
theorem ruleMenc_val : (ruleMenc c m rd ra s).val rd = montMul (engineOf c m) (s.val ra) (engineOf c m).rr := by
  have h := engineOf_derived hc m
  exact val_setVal s rd.isLt ((montMul_lt _ _ _ h.m_pos).trans h.montgomery.m_lt)

/-- Reading back what MRED writes. -/
theorem ruleMred_val : (ruleMred c m rd ra s).val rd = montMul (engineOf c m) (s.val ra) 1 := by
  have h := engineOf_derived hc m
  exact val_setVal s rd.isLt ((montMul_lt _ _ _ h.m_pos).trans h.montgomery.m_lt)

theorem ruleMenc_leaves :
    let t := ruleMenc c m rd ra s
    t.val rd = s.val ra * 2 ^ 256 % (engineOf c m).m ∧ Frame rd 1 s t :=
  ⟨(ruleMenc_val hc m rd ra s).trans (montMul_rr (engineOf_derived hc m).montgomery _), frame_setVal _ _ _⟩

theorem ruleMinv_leaves :
    let e := engineOf c m
    let t := ruleMinv c m rd ra s
    t.val rd = e.rr * (s.val ra % e.m) ^ (e.m - 2) % e.m ∧
      (t.zr = true ↔ s.val ra % e.m = 0) ∧ (s.val ra % e.m = 0 → t.val rd = 0) ∧
      t.eq = s.eq ∧ t.inf = s.inf ∧ FrameButFlags rd 1 s t := by
  have h := engineOf_derived hc m
  have hval : (ruleMinv c m rd ra s).val rd = montInv (engineOf c m) (s.val ra) :=
    val_setVal s rd.isLt ((montInv_lt h.montgomery _).trans h.montgomery.m_lt)
  refine ⟨hval.trans (montInv_eq_pow h.montgomery _), ?_, fun hzero => ?_, ?_, ?_, frameButFlags_putInverse _ _ _ _⟩
  · simp [ruleMinv, zrFlag]
  · exact hval.trans (montInv_of_mod_eq_zero h.montgomery h.two_lt_m hzero)
  · simp [ruleMinv]
  · simp [ruleMinv]

theorem ruleKinv_leaves :
    let order := c.order.m
    let t := ruleKinv c rd ra s
    ((2 ^ 256) ^ (order - 1) % order = 1 → t.val rd = s.val ra ^ (order - 2) % order) ∧
      (t.zr = true ↔ s.val ra % order = 0) ∧ (s.val ra % order = 0 → t.val rd = 0) ∧
      t.eq = s.eq ∧ t.inf = s.inf ∧ FrameButFlags rd 1 s t := by
  have h : c.order.Derived := engineOf_derived hc .n
  have hval : (ruleKinv c rd ra s).val rd = kinvValue c.order (s.val ra) :=
    val_setVal s rd.isLt ((kinvValue_lt h.montgomery _).trans h.montgomery.m_lt)
  refine ⟨fun hfermat => ?_, ?_, fun hzero => ?_, ?_, ?_, frameButFlags_putInverse _ _ _ _⟩
  · exact hval.trans (kinvValue_eq_pow h.montgomery hfermat _)
  · simp [ruleKinv, zrFlag]
  · exact hval.trans (kinvValue_of_mod_eq_zero h.montgomery h.two_lt_m hzero)
  · simp [ruleKinv]
  · simp [ruleKinv]

end

/-- Settles O30: the rule's product on the hardware's record; MMUL raises no fault. -/
theorem mmulLeavesTheProduct : Obligations.MmulLeavesTheProduct := fun m rd ra rb s =>
  ⟨_, exec_of_none (faultOf_eq_none_of_wf rfl rfl rfl), ruleMmul_leaves curveConstantsAreConsistent m rd ra rb s⟩

/-- Settles O31: the three rules on the hardware's record. -/
theorem msqrMredMencLeaveTheirResults : Obligations.MsqrMredMencLeaveTheirResults := fun m rd ra s =>
  ⟨⟨_, exec_of_none (faultOf_eq_none_of_wf rfl rfl rfl), ruleMsqr_leaves curveConstantsAreConsistent m rd ra s⟩,
    ⟨_, exec_of_none (faultOf_eq_none_of_wf rfl rfl rfl), ruleMred_leaves curveConstantsAreConsistent m rd ra s⟩,
    ⟨_, exec_of_none (faultOf_eq_none_of_wf rfl rfl rfl), ruleMenc_leaves curveConstantsAreConsistent m rd ra s⟩⟩

/-- `RR` out of the Montgomery domain is `ONE` (R2). -/
theorem montMul_one_rr {e : Config.Engine} (h : e.Montgomery) : montMul e 1 e.rr = e.one := by
  rw [montMul_rr h, one_mul, h.one_eq]

theorem val_of_exec_menc {m : ModSel} {rd ra : Reg} {s t : State} (h : exec (.menc m rd ra) s = .next t) :
    t.val rd = montMul (engineOf Config.sm2 m) (s.val ra) (engineOf Config.sm2 m).rr := by
  obtain rfl := Host.Outcome.next.inj ((exec_of_none (faultOf_eq_none_of_wf rfl rfl rfl)).symm.trans h)
  exact ruleMenc_val curveConstantsAreConsistent m rd ra s

theorem val_of_exec_mred {m : ModSel} {rd ra : Reg} {s t : State} (h : exec (.mred m rd ra) s = .next t) :
    t.val rd = montMul (engineOf Config.sm2 m) (s.val ra) 1 := by
  obtain rfl := Host.Outcome.next.inj ((exec_of_none (faultOf_eq_none_of_wf rfl rfl rfl)).symm.trans h)
  exact ruleMred_val curveConstantsAreConsistent m rd ra s

/-- Settles O32: in both orders the operand is multiplied by `RR` and by 1, which together are `ONE`. -/
theorem mencAndMredAreInverse : Obligations.MencAndMredAreInverse := by
  intro m rd ra s t u
  have h := (engineOf_sm2_derived m).montgomery
  constructor
  · intro hmenc hmred
    rw [val_of_exec_mred hmred, val_of_exec_menc hmenc, montMul_assoc h.m_pos, montMul_comm _ (engineOf Config.sm2 m).rr,
      montMul_one_rr h, montMul_one h]
  · intro hmred hmenc
    rw [val_of_exec_menc hmenc, val_of_exec_mred hmred, montMul_assoc h.m_pos, montMul_one_rr h, montMul_one h]

/-- Settles O33: the rule on the hardware's record. -/
theorem minvLeavesTheFixedPower : Obligations.MinvLeavesTheFixedPower := fun m rd ra s =>
  ⟨_, exec_of_none (faultOf_eq_none_of_wf rfl rfl rfl), ruleMinv_leaves curveConstantsAreConsistent m rd ra s⟩

/-- Settles O34: the rule on the hardware's record, whose `N` the radix satisfies Fermat's congruence for. -/
theorem kinvLeavesTheFixedPower : Obligations.KinvLeavesTheFixedPower := by
  intro rd ra s
  have hfermat := radix_pow_engineOf_sm2 .n
  rw [show engineOf Config.sm2 .n = Config.sm2.order from rfl] at hfermat
  obtain ⟨hpow, hrest⟩ := ruleKinv_leaves curveConstantsAreConsistent rd ra s
  exact ⟨_, exec_of_none (faultOf_eq_none_of_wf rfl rfl rfl), hpow hfermat, hrest⟩

end Sys2Proof.Machine
end

section
/-! CMOV, CNEG and TSEL (R85 to R88). -/

namespace Sys2Proof.Machine

open Sys2Proof.Safety

/-! CMOV. -/

theorem ruleCmov_reg (cs : Cond) (rd ra rb : Reg) (s : State) :
    (ruleCmov cs rd ra rb s).reg rd = if condOf cs s then s.reg ra else s.reg rb :=
  State.reg_setReg_same _ _ _ rd.isLt

/-- Settles O38: the masked form has the value of the choice. -/
theorem cmovMovesByMask : Obligations.CmovMovesByMask := by
  intro cs rd ra rb s
  refine ⟨_, exec_of_none (faultOf_eq_none_of_wf rfl rfl rfl), ?_, frame_setReg _ _ _⟩
  exact (ruleCmov_reg cs rd ra rb s).trans (select_mask (condOf cs s) _ _).symm

/-! CNEG. -/

theorem negMod_lt {e : Config.Engine} (hm : 0 < e.m) (a : Nat) : negMod e a < e.m :=
  Nat.mod_lt _ hm

/-- R87: the canonical negative and the operand add up to 0. -/
theorem negMod_add_mod {e : Config.Engine} (hm : 0 < e.m) (a : Nat) : (negMod e a + a) % e.m = 0 := by
  refine Nat.mod_eq_zero_of_dvd ((ZMod.natCast_eq_zero_iff _ _).1 ?_)
  rw [Nat.cast_add, negMod_cast e a hm, neg_add_cancel]

theorem ruleCneg_leaves {c : Config.Params} (hc : c.Consistent) (cs : Cond) (m : ModSel) (rd ra : Reg) (s : State) :
    let t := ruleCneg c cs m rd ra s
    (condOf cs s = true → t.val rd < (engineOf c m).m ∧ (t.val rd + s.val ra) % (engineOf c m).m = 0) ∧
      (condOf cs s = false → t.reg rd = s.reg ra) ∧ Frame rd 1 s t := by
  have h := engineOf_derived hc m
  refine ⟨fun hcond => ?_, fun hcond => ?_, frame_setVal _ _ _⟩
  · have hlt := negMod_lt h.m_pos (s.val ra)
    have hval : (ruleCneg c cs m rd ra s).val rd = negMod (engineOf c m) (s.val ra) := by
      rw [ruleCneg, hcond]
      exact val_setVal s rd.isLt (hlt.trans h.montgomery.m_lt)
    rw [hval]
    exact ⟨hlt, negMod_add_mod h.m_pos _⟩
  · have hval : (ruleCneg c cs m rd ra s).val rd = s.val ra := by
      rw [ruleCneg, hcond]
      exact val_setVal s rd.isLt (s.val_lt ra)
    exact BitVec.eq_of_toNat_eq hval

/-- Settles O39: the rule on the hardware's record. -/
theorem cnegNegatesUnderItsCondition : Obligations.CnegNegatesUnderItsCondition := fun cs m rd ra s =>
  ⟨_, exec_of_none (faultOf_eq_none_of_wf rfl rfl rfl), ruleCneg_leaves curveConstantsAreConsistent cs m rd ra s⟩

/-- Settles O41: MOV is CMOV of one source, FNEG and NNEG are CNEG under the constant 1. -/
theorem pseudoCommandsCopyAndNegate : Obligations.PseudoCommandsCopyAndNegate := by
  intro rd ra s
  refine ⟨⟨_, exec_of_none (faultOf_eq_none_of_wf rfl rfl rfl), ruleCmov_reg .t rd ra ra s⟩, ?_, ?_⟩
  · obtain ⟨t, ht, hneg, -⟩ := cnegNegatesUnderItsCondition .t .p rd ra s
    exact ⟨t, ht, (hneg rfl).2⟩
  · obtain ⟨t, ht, hneg, -⟩ := cnegNegatesUnderItsCondition .t .n rd ra s
    exact ⟨t, ht, (hneg rfl).2⟩

/-! TSEL. -/

/-- What TSEL leaves in its two registers. -/
theorem ruleTsel_reg {rd : Reg} (hrd : rd.val ≤ 14) (ra : Reg) {col : Fin 64} (hc : col.val < 37) (s : State) :
    let t := ruleTsel rd ra col s
    t.reg rd = BitVec.ofNat 256 (entryOf s.tab col (s.val ra)).x ∧
      t.reg (rd.val + 1) = BitVec.ofNat 256 (entryOf s.tab col (s.val ra)).y := by
  have hfit : rd.val + 2 ≤ 16 := by omega
  simp [ruleTsel, State.reg_setPair _ _ _ _ hfit, tableSelect_eq_entryOf _ _ _ hc]

theorem wf_tsel {rd ra : Reg} {col : Fin 64} (hrd : rd.val ≤ 14) (hc : col.val < 37) : (Instr.tsel rd ra col).wf = true := by
  simp [Instr.wf, Instr.groupsOk, Instr.columnOk, groupOk, hc]
  omega

/-- Settles O40: the scan is a look-up. -/
theorem tselSelectsTheEntry : Obligations.TselSelectsTheEntry := by
  intro rd ra col s hc hrd htrdy
  have ⟨hx, hy⟩ := ruleTsel_reg hrd ra hc s
  refine ⟨_, exec_of_none (faultOf_eq_none_of_built (wf_tsel hrd hc) htrdy rfl), fun v hv hval => ?_, fun hout => ?_,
    frame_setPair _ _ _⟩
  · have hentry : entryOf s.tab col (s.val ra) = ⟨((s.tab[col.val]'hc)[v]).x.toNat, ((s.tab[col.val]'hc)[v]).y.toNat⟩ := by
      simp [entryOf, hval, hc, show v + 1 ≤ 64 from hv]
    rw [hentry, BitVec.ofNat_toNat, BitVec.setWidth_eq] at hx hy
    exact ⟨hx, hy⟩
  · have hentry : entryOf s.tab col (s.val ra) = ⟨0, 0⟩ := dif_neg (by omega)
    rw [hentry] at hx hy
    exact ⟨hx, hy⟩

end Sys2Proof.Machine
end

section
/-! The point formulas on what triples represent (R20, R96 to R99): identities of the residue ring. -/

namespace Sys2Proof.Safety

open Sys2Proof.Machine
open Sys2Proof.Config (radix)

variable {e : Config.Engine}

theorem std_zero : std e 0 = 0 := by
  simp [std]

/-- The standard form of a canonical integer is 0 only for 0. -/
theorem eq_zero_of_std_eq_zero (h : e.Derived) {a : Nat} (ha : a < e.m) (hstd : std e a = 0) : a = 0 :=
  eq_of_std_eq h.montgomery ha h.m_pos (hstd.trans std_zero.symm)

/-- An integer whose standard form is invertible is not 0. -/
theorem ne_zero_of_isUnit_std (h : e.Derived) {a : Nat} (hu : IsUnit (std e a)) : a ≠ 0 := by
  have : Fact (1 < e.m) := ⟨h.montgomery.one_lt_m⟩
  rintro rfl
  rw [std_zero] at hu
  exact not_isUnit_zero hu

/-! Doubling. -/

/-- Settles O46: the tangent, with the common denominator `Z3 = 2*Y*Z`. -/
theorem dblRepresentsTheDouble : Obligations.DblRepresentsTheDouble := by
  intro e p x y l h hp hy hslope
  obtain ⟨hz, hx, hpy⟩ := hp
  simp only [Represents, dbl, std_fSub h.m_pos, std_fMul, std_fSqr, std_fAdd, std_fDouble, hx, hpy]
  generalize std e p.z = z at hz
  refine ⟨?_, ?_, ?_⟩
  · convert hy.mul (hz.pow 4) using 1
    ring
  · linear_combination (-(3 * x ^ 2 - 3 + 2 * y * l) * z ^ 8) * hslope
  · linear_combination (-(12 * x * y ^ 2 -
      ((3 * x ^ 2 - 3) ^ 2 + (3 * x ^ 2 - 3) * (2 * y * l) + (2 * y * l) ^ 2)) * z ^ 12) * hslope

/-! Addition. -/

/-- `H` of R97, in standard form, on triples that represent points. -/
theorem std_add_h (h : e.Derived) {p q : Jac} {x1 y1 x2 y2 : ZMod e.m} (hp : Represents e p x1 y1)
    (hq : Represents e q x2 y2) :
    std e (fSub e (fMul e q.x (fSqr e p.z)) (fMul e p.x (fSqr e q.z))) = (x2 - x1) * (std e p.z * std e q.z) ^ 2 := by
  obtain ⟨-, hpx, -⟩ := hp
  obtain ⟨-, hqx, -⟩ := hq
  simp only [std_fSub h.m_pos, std_fMul, std_fSqr, hpx, hqx]
  ring

/-- `r` of R97, in standard form, on triples that represent points. -/
theorem std_add_r (h : e.Derived) {p q : Jac} {x1 y1 x2 y2 : ZMod e.m} (hp : Represents e p x1 y1)
    (hq : Represents e q x2 y2) :
    std e (fSub e (fMul e (fMul e q.y p.z) (fSqr e p.z)) (fMul e (fMul e p.y q.z) (fSqr e q.z))) =
      (y2 - y1) * (std e p.z * std e q.z) ^ 3 := by
  obtain ⟨-, -, hpy⟩ := hp
  obtain ⟨-, -, hqy⟩ := hq
  simp only [std_fSub h.m_pos, std_fMul, std_fSqr, hpy, hqy]
  ring

/-- Settles O47: the chord, with the common denominator `Z3 = H*Z1*Z2`; `H` is invertible, so the equality bit is 0. -/
theorem addRepresentsTheSum : Obligations.AddRepresentsTheSum := by
  intro e p q x1 y1 x2 y2 l h hp hq hdiff hslope
  have ⟨hz1, hpx, hpy⟩ := hp
  have ⟨hz2, hqx, hqy⟩ := hq
  have hH := std_add_h h hp hq
  have hunit : IsUnit ((x2 - x1) * (std e p.z * std e q.z) ^ 2) := hdiff.mul ((hz1.mul hz2).pow 2)
  rw [show y2 = y1 + (x2 - x1) * l by rw [hslope]; ring] at hqy
  refine ⟨?_, ?_⟩
  · simp only [Represents, add, std_fSub h.m_pos, std_fMul, std_fSqr, std_fDouble, hpx, hpy, hqx, hqy]
    refine ⟨?_, by ring, by ring⟩
    convert (hunit.mul hz1).mul hz2 using 1
    ring
  · have hne := ne_zero_of_isUnit_std h (hH ▸ hunit)
    simp [add, hne]

@[simp] theorem fSqr_zero (e : Config.Engine) : fSqr e 0 = 0 := by
  simp [fSqr, montMul]

@[simp] theorem zero_fMul (e : Config.Engine) (b : Nat) : fMul e 0 b = 0 := by
  simp [fMul, montMul]

@[simp] theorem fMul_zero (e : Config.Engine) (a : Nat) : fMul e a 0 = 0 := by
  simp [fMul, montMul]

@[simp] theorem fDouble_zero (e : Config.Engine) : fDouble e 0 = 0 := by
  simp [fDouble, fAdd]

@[simp] theorem fSub_zero_zero (e : Config.Engine) : fSub e 0 0 = 0 := by
  simp [fSub]

/-- Settles O48: equal points make `H` and `r` zero, and with them all of the result; opposite points make `H` zero and
`r = -2*y*(Z1*Z2)^3`. -/
theorem addOfEqualAndOppositePoints : Obligations.AddOfEqualAndOppositePoints := by
  intro e p q x y h hp
  have hzeroH {y' : ZMod e.m} (hq : Represents e q x y') :
      fSub e (fMul e q.x (fSqr e p.z)) (fMul e p.x (fSqr e q.z)) = 0 :=
    eq_zero_of_std_eq_zero h (fSub_lt _ _ _ h.m_pos) (by rw [std_add_h h hp hq, sub_self, zero_mul])
  refine ⟨fun hq => ?_, fun hq hy => ?_⟩
  · have hzeroR : fSub e (fMul e (fMul e q.y p.z) (fSqr e p.z)) (fMul e (fMul e p.y q.z) (fSqr e q.z)) = 0 :=
      eq_zero_of_std_eq_zero h (fSub_lt _ _ _ h.m_pos) (by rw [std_add_r h hp hq, sub_self, zero_mul])
    simp [add, hzeroH hq, hzeroR]
  · have hne : fSub e (fMul e (fMul e q.y p.z) (fSqr e p.z)) (fMul e (fMul e p.y q.z) (fSqr e q.z)) ≠ 0 := by
      have ⟨hz1, _⟩ := hp
      have ⟨hz2, _⟩ := hq
      refine ne_zero_of_isUnit_std h ?_
      rw [std_add_r h hp hq]
      refine IsUnit.mul ?_ ((hz1.mul hz2).pow 3)
      convert hy.neg using 1
      ring
    simp [add, hzeroH hq, hne]

/-- Settles O49: `Z3 = H*Z1*Z2` has both operands' Z as factors. -/
theorem addOfAnIdentityHasZeroZ : Obligations.AddOfAnIdentityHasZeroZ := by
  intro e p q _ hzero
  rcases hzero with hp | hq
  · have hleft : montMul e (fSub e (fMul e q.x (fSqr e p.z)) (fMul e p.x (fSqr e q.z))) p.z = 0 :=
      montMul_eq_zero_of_right _ hp
    exact montMul_eq_zero_of_left q.z (by rw [fMul, hleft, Nat.zero_mod])
  · exact montMul_eq_zero_of_right _ hq

/-! Mixed addition. -/

theorem std_condNeg (h : e.Derived) (sg : Bool) (a : Nat) :
    std e (condNeg e sg a) = if sg then -std e a else std e a := by
  cases sg
  · rfl
  · exact std_negMod h.m_pos a

/-- Settles O50: the chord to the pair, whose Z is 1, with the common denominator `Z3 = H*Z1`. -/
theorem addMixedRepresentsTheSum : Obligations.AddMixedRepresentsTheSum := by
  intro e p q sg x1 y1 l h hp x2 y2 hdiff hslope
  obtain ⟨hz, hx, hy⟩ := hp
  have hy2 : std e (condNeg e sg q.y) = y1 + (x2 - x1) * l := by
    rw [hslope, std_condNeg h]
    ring
  have hx2 : std e q.x = x2 := rfl
  simp only [Represents, addMixed, addMixedSum, Bool.true_eq_false, if_false, std_fSub h.m_pos, std_fMul, std_fSqr,
    std_fDouble, hx, hy, hx2, hy2]
  refine ⟨?_, by ring, by ring⟩
  convert hdiff.mul (hz.pow 3) using 1
  ring

/-! Affine coordinates. -/

theorem toAffine_lt (h : e.Derived) (p : Jac) : (toAffine e p).1.x < e.m ∧ (toAffine e p).1.y < e.m :=
  ⟨montMul_lt _ _ _ h.m_pos, montMul_lt _ _ _ h.m_pos⟩

/-- For a Z that satisfies Fermat's congruence `MontInv` is the inverse in standard form. -/
theorem std_montInv_mul (h : e.Derived) {z : Nat} (hfermat : z ^ (e.m - 1) % e.m = 1) :
    std e (montInv e z) * std e z = 1 := by
  have hm := h.montgomery
  have hpow : (z : ZMod e.m) ^ (e.m - 2) * z = 1 := by
    rw [← pow_succ, ← hm.m_sub_one, cast_pow_eq_one hm hfermat]
  rw [std, std, montInv_cast hm]
  linear_combination ((radix : ℕ) * (radix : ℕ) * (e.rinv : ZMod e.m) ^ 2) * hpow +
    (1 + (e.rinv : ZMod e.m) * (radix : ℕ)) * hm.rinv_mul_radix

/-- Settles O51: `MontInv` inverts Z, so its square and cube cancel Z's. -/
theorem toAffineGivesThePoint : Obligations.ToAffineGivesThePoint := by
  intro e p x y h hp hfermat
  obtain ⟨hz, hx, hy⟩ := hp
  have hinv := std_montInv_mul h hfermat
  obtain ⟨hltx, hlty⟩ := toAffine_lt h p
  refine ⟨?_, ?_, hltx, hlty, ?_⟩
  · rw [toAffine, ← std_eq_montMul_one, std_fMul, std_fSqr, hx]
    linear_combination x * (std e (montInv e p.z) * std e p.z + 1) * hinv
  · rw [toAffine, ← std_eq_montMul_one, std_fMul, std_fMul, std_fSqr, hy]
    linear_combination y * ((std e (montInv e p.z) * std e p.z) ^ 2 + std e (montInv e p.z) * std e p.z + 1) * hinv
  · have hexp : e.m - 1 ≠ 0 := by
      have hm2 := h.two_lt_m
      omega
    refine beq_eq_false_iff_ne.2 fun hzero => ?_
    rw [Nat.pow_mod, hzero, zero_pow hexp, Nat.zero_mod] at hfermat
    cases hfermat

end Sys2Proof.Safety
end

section
/-! PDBL, PADD, PADDM and PAFF (R100 to R103): each rule over any consistent record, and the machine's own. -/

namespace Sys2Proof.Machine

open Sys2Proof.Safety

/-! The results are canonical. -/

/-- The coordinates of a triple are below `b`. -/
def Jac.Below (p : Jac) (b : Nat) : Prop :=
  p.x < b ∧ p.y < b ∧ p.z < b

theorem Jac.Below.mono {p : Jac} {b b' : Nat} (h : p.Below b) (hb : b ≤ b') : p.Below b' :=
  have ⟨hx, hy, hz⟩ := h
  ⟨hx.trans_le hb, hy.trans_le hb, hz.trans_le hb⟩

theorem dbl_below {e : Config.Engine} (hm : 0 < e.m) (p : Jac) : (dbl e p).Below e.m :=
  ⟨fSub_lt _ _ _ hm, fSub_lt _ _ _ hm, fAdd_lt _ _ _ hm⟩

theorem add_below {e : Config.Engine} (hm : 0 < e.m) (p q : Jac) : (add e p q).1.Below e.m :=
  ⟨fSub_lt _ _ _ hm, fSub_lt _ _ _ hm, montMul_lt _ _ _ hm⟩

theorem addMixedSum_below {e : Config.Engine} (hm : 0 < e.m) (p : Jac) (q : Affine) : (addMixedSum e p q).Below e.m :=
  ⟨fSub_lt _ _ _ hm, fSub_lt _ _ _ hm, montMul_lt _ _ _ hm⟩

theorem State.triple_below (s : State) (i : Nat) : (s.triple i).Below (2 ^ 256) :=
  ⟨s.val_lt _, s.val_lt _, s.val_lt _⟩

theorem triple_setTriple_of_below {rd : Nat} (s : State) {p : Jac} (hrd : rd ≤ 13) (hp : p.Below (2 ^ 256)) :
    (s.setTriple rd p).triple rd = p :=
  have ⟨hx, hy, hz⟩ := hp
  triple_setTriple s hrd hx hy hz

/-- `ToAffine` says in its bit whether `Z mod P = 0`. -/
theorem toAffine_inf_iff (e : Config.Engine) (p : Jac) : (toAffine e p).2 = true ↔ p.z % e.m = 0 :=
  beq_iff_eq

/-- `ToAffine` of a triple with `Z mod P = 0` is (0, 0): the inverse of R130 is 0 there. -/
theorem toAffine_of_z_zero {e : Config.Engine} (h : e.Derived) {p : Jac} (hz : p.z % e.m = 0) :
    (toAffine e p).1 = ⟨0, 0⟩ := by
  simp [toAffine, montInv_of_mod_eq_zero h.montgomery h.two_lt_m hz, montMul]

/-- `ToAffine` of a triple with zero X and Y is (0, 0). -/
theorem toAffine_of_xy_zero (e : Config.Engine) (z : Nat) : (toAffine e ⟨0, 0, z⟩).1 = ⟨0, 0⟩ := by
  simp [toAffine, montMul]

/-! The rules. -/

section
variable {c : Config.Params} (hc : c.Consistent) {rd : Reg} (s : State)
include hc

theorem rulePdbl_leaves (ra : Reg) (hrd : rd.val ≤ 13) :
    let t := rulePdbl c rd ra s
    t.triple rd = dbl c.field (s.triple ra) ∧ Frame rd 3 s t := by
  have h : c.field.Derived := engineOf_derived hc .p
  exact ⟨triple_setTriple_of_below s hrd ((dbl_below h.m_pos _).mono h.montgomery.m_lt.le), frame_setTriple _ _ _⟩

theorem rulePadd_leaves (ra rb : Reg) (hrd : rd.val ≤ 13) :
    let t := rulePadd c rd ra rb s
    (t.triple rd, t.eq) = add c.field (s.triple ra) (s.triple rb) ∧
      t.inf = s.inf ∧ t.zr = s.zr ∧ FrameButFlags rd 3 s t := by
  have h : c.field.Derived := engineOf_derived hc .p
  have htriple : (rulePadd c rd ra rb s).triple rd = (add c.field (s.triple ra) (s.triple rb)).1 :=
    triple_setTriple_of_below s hrd ((add_below h.m_pos _ _).mono h.montgomery.m_lt.le)
  exact ⟨Prod.ext htriple (State.putSum_eq s rd _), State.putSum_inf .., State.putSum_zr .., frameButFlags_putSum _ _ _⟩

theorem condNeg_lt {a : Nat} (sg : Bool) (ha : a < 2 ^ 256) : condNeg c.field sg a < 2 ^ 256 := by
  have h : c.field.Derived := engineOf_derived hc .p
  cases sg
  · exact ha
  · exact (negMod_lt h.m_pos a).trans h.montgomery.m_lt

theorem rulePaddm_leaves (pnz qnz sg : Bool) (ra rb : Reg) (hrd : rd.val ≤ 13) :
    let y2 := if sg then (c.field.m - s.val (rb.val + 1) % c.field.m) % c.field.m else s.val (rb.val + 1)
    let t := rulePaddm c pnz qnz sg rd ra rb s
    (pnz = false → t.triple rd = ⟨s.val rb, y2, c.field.one⟩) ∧
      (pnz = true → qnz = false → t.triple rd = s.triple ra) ∧
      (pnz = true → qnz = true → t.triple rd = addMixedSum c.field (s.triple ra) ⟨s.val rb, y2⟩) ∧ Frame rd 3 s t := by
  have h : c.field.Derived := engineOf_derived hc .p
  have hone : c.field.one < 2 ^ 256 := by
    rw [h.montgomery.one_eq]
    exact (Nat.mod_lt _ h.m_pos).trans h.montgomery.m_lt
  refine ⟨fun hp => ?_, fun hp hq => ?_, fun hp hq => ?_, frame_setTriple _ _ _⟩
  · subst hp
    exact triple_setTriple_of_below s hrd ⟨s.val_lt _, condNeg_lt hc sg (s.val_lt _), hone⟩
  · subst hp hq
    exact triple_setTriple_of_below s hrd (s.triple_below ra)
  · subst hp hq
    exact triple_setTriple_of_below s hrd ((addMixedSum_below h.m_pos _ _).mono h.montgomery.m_lt.le)

/-- Reading back an affine pair with coordinates that the reducer has left. -/
theorem pair_putAffine (p : Jac) (inf : Bool) (hrd : rd.val ≤ 14) :
    (s.putAffine rd ((toAffine c.field p).1, inf)).pair rd = (toAffine c.field p).1 := by
  have h : c.field.Derived := engineOf_derived hc .p
  obtain ⟨hx, hy⟩ := toAffine_lt h p
  exact pair_setPair s hrd (hx.trans h.montgomery.m_lt) (hy.trans h.montgomery.m_lt)

theorem rulePaff_leaves (ra : Reg) (hrd : rd.val ≤ 14) :
    let t := rulePaff c rd ra s
    (t.pair rd, t.inf) = toAffine c.field (s.triple ra) ∧ (t.inf = true ↔ s.val (ra.val + 2) % c.field.m = 0) ∧
      t.eq = s.eq ∧ t.zr = s.zr ∧ FrameButFlags rd 2 s t := by
  have hinf : (rulePaff c rd ra s).inf = (toAffine c.field (s.triple ra)).2 := State.putAffine_inf ..
  refine ⟨Prod.ext (pair_putAffine hc s _ _ hrd) hinf, ?_, State.putAffine_eq .., State.putAffine_zr ..,
    frameButFlags_putAffine _ _ _⟩
  rw [hinf]
  exact toAffine_inf_iff c.field (s.triple ra)

end

/-! The machine's own. -/

theorem wf_pdbl {rd ra : Reg} (hrd : rd.val ≤ 13) (hra : ra.val ≤ 13) : (Instr.pdbl rd ra).wf = true := by
  simp [Instr.wf, Instr.groupsOk, Instr.columnOk, groupOk]
  omega

theorem wf_padd {rd ra rb : Reg} (hrd : rd.val ≤ 13) (hra : ra.val ≤ 13) (hrb : rb.val ≤ 13) :
    (Instr.padd rd ra rb).wf = true := by
  simp [Instr.wf, Instr.groupsOk, Instr.columnOk, groupOk]
  omega

theorem wf_paddm (pnz qnz sg : Bool) {rd ra rb : Reg} (hrd : rd.val ≤ 13) (hra : ra.val ≤ 13) (hrb : rb.val ≤ 14) :
    (Instr.paddm pnz qnz sg rd ra rb).wf = true := by
  simp [Instr.wf, Instr.groupsOk, Instr.columnOk, groupOk]
  omega

theorem wf_paff {rd ra : Reg} (hrd : rd.val ≤ 14) (hra : ra.val ≤ 13) : (Instr.paff rd ra).wf = true := by
  simp [Instr.wf, Instr.groupsOk, Instr.columnOk, groupOk]
  omega

/-- Settles O42: the rule on the hardware's record; the formulas end in reductions. -/
theorem pdblLeavesTheDouble : Obligations.PdblLeavesTheDouble := by
  intro rd ra s hrd hra
  obtain ⟨htriple, hframe⟩ := rulePdbl_leaves curveConstantsAreConsistent s ra hrd
  refine ⟨_, exec_of_none (faultOf_eq_none_of_wf (wf_pdbl hrd hra) rfl rfl), htriple, ?_⟩
  have hbelow : ((rulePdbl Config.sm2 rd ra s).triple rd).Below Config.sm2.field.m :=
    htriple ▸ dbl_below (engineOf_sm2_derived .p).m_pos _
  obtain ⟨hx, hy, hz⟩ := hbelow
  exact ⟨hx, hy, hz, hframe⟩

/-- Settles O43: the rule on the hardware's record. -/
theorem paddLeavesTheSum : Obligations.PaddLeavesTheSum := by
  intro rd ra rb s hrd hra hrb
  obtain ⟨hsum, hrest⟩ := rulePadd_leaves curveConstantsAreConsistent s ra rb hrd
  obtain ⟨htriple, heq⟩ := Prod.ext_iff.1 hsum
  exact ⟨_, exec_of_none (faultOf_eq_none_of_wf (wf_padd hrd hra hrb) rfl rfl), htriple, heq, hrest⟩

/-- Settles O44: the rule on the hardware's record. -/
theorem paddmSelectsItsResult : Obligations.PaddmSelectsItsResult := fun pnz qnz sg _ ra rb s hrd hra hrb =>
  ⟨_, exec_of_none (faultOf_eq_none_of_wf (wf_paddm pnz qnz sg hrd hra hrb) rfl rfl),
    rulePaddm_leaves curveConstantsAreConsistent s pnz qnz sg ra rb hrd⟩

/-- A pair of zeros in two registers. -/
theorem State.regs_eq_zero_of_pair {s : State} {i : Nat} (h : s.pair i = ⟨0, 0⟩) : s.reg i = 0 ∧ s.reg (i + 1) = 0 := by
  obtain ⟨hx, hy⟩ := Affine.mk.inj h
  exact ⟨s.reg_eq_zero_of_val hx, s.reg_eq_zero_of_val hy⟩

/-- Settles O45: the rule on the hardware's record; with `Z mod P = 0` the pair is that of `ToAffine` there. -/
theorem paffLeavesTheAffinePair : Obligations.PaffLeavesTheAffinePair := by
  intro rd ra s hrd hra
  have h : Config.sm2.field.Derived := engineOf_sm2_derived .p
  obtain ⟨haffine, hinf, hrest⟩ := rulePaff_leaves curveConstantsAreConsistent s ra hrd
  have hpair : (rulePaff Config.sm2 rd ra s).pair rd = (toAffine Config.sm2.field (s.triple ra)).1 :=
    congrArg Prod.fst haffine
  obtain ⟨hx, hy⟩ := toAffine_lt h (s.triple ra)
  rw [← hpair] at hx hy
  exact ⟨_, exec_of_none (faultOf_eq_none_of_wf (wf_paff hrd hra) rfl rfl), hpair, hx, hy, hinf,
    fun hz => State.regs_eq_zero_of_pair (hpair.trans (toAffine_of_z_zero h hz)), hrest⟩

end Sys2Proof.Machine
end

section
/-! The Booth digits of a scalar (R110, R111): their sum telescopes. -/

namespace Sys2Proof.Machine

/-- The bit of the scalar below digit position `i`: the carry into digit `i`, 0 into digit 0. -/
def boothCarry (k w i : Nat) : Nat :=
  2 * k / 2 ^ (w * i) % 2

/-- A digit's value, from its window: the rounded half, less `2^w` for a window whose top bit is set. -/
theorem digitValue_booth_eq_window (k w i : Nat) :
    digitValue (booth k w i) =
      ((boothWindow k w i / 2 + boothWindow k w i % 2 : ℕ) : Int) - 2 ^ w * (boothWindow k w i / 2 ^ w : ℕ) := by
  have hlt := boothWindow_lt k w i
  have hdouble : 2 ^ (w + 1) = 2 * 2 ^ w := Nat.pow_succ'
  have htop : boothWindow k w i / 2 ^ w = 0 ∨ boothWindow k w i / 2 ^ w = 1 := by
    have hquot : boothWindow k w i / 2 ^ w < 2 := Nat.div_lt_of_lt_mul hlt
    exact Nat.le_one_iff_eq_zero_or_eq_one.1 (Nat.lt_succ_iff.1 hquot)
  unfold digitValue booth
  rcases htop with hclear | hset
  · simp [hclear]
  · simp only [hset, beq_self_eq_true, if_true, Nat.cast_one, mul_one]
    have hge : 2 ^ w ≤ boothWindow k w i := (Nat.one_le_div_iff (Nat.two_pow_pos w)).1 hset.ge
    have hcast : ((2 : Int) ^ w) = ((2 ^ w : ℕ) : Int) := by push_cast; rfl
    rw [hdouble] at hlt ⊢
    rw [hcast]
    generalize 2 ^ w = top at *
    generalize boothWindow k w i = win at *
    omega

/-- R110 with the carries: the `w` bits of the digit position, with the carry in, less the carry out. -/
theorem digitValue_booth (k w i : Nat) :
    digitValue (booth k w i) =
      ((k / 2 ^ (w * i) % 2 ^ w : ℕ) : Int) + boothCarry k w i - 2 ^ w * boothCarry k w (i + 1) := by
  have hhalf : boothWindow k w i / 2 = k / 2 ^ (w * i) % 2 ^ w := by
    rw [boothWindow, pow_succ', Nat.mod_mul_right_div_self, Nat.div_div_eq_div_mul, mul_comm (2 ^ (w * i)) 2,
      Nat.mul_div_mul_left _ _ two_pos]
  have hlow : boothWindow k w i % 2 = boothCarry k w i := by
    rw [boothWindow, Nat.mod_mod_of_dvd _ (dvd_pow_self 2 (Nat.succ_ne_zero w)), boothCarry]
  have htop : boothWindow k w i / 2 ^ w = boothCarry k w (i + 1) := by
    rw [boothWindow, pow_succ, Nat.mod_mul_right_div_self, Nat.div_div_eq_div_mul, ← pow_add, boothCarry, mul_add_one]
  rw [digitValue_booth_eq_window, hhalf, hlow, htop, Nat.cast_add]

/-- R111 (b): the sums of the first digits. -/
theorem sum_digitValue_booth (k w : Nat) (i : Nat) :
    ∑ j ∈ Finset.range i, digitValue (booth k w j) * 2 ^ (w * j) =
      ((k % 2 ^ (w * i) : ℕ) : Int) - boothCarry k w i * 2 ^ (w * i) := by
  induction i with
  | zero => simp [boothCarry, Nat.mod_one]
  | succ i ih =>
    have hsplit : k % 2 ^ (w * (i + 1)) = k % 2 ^ (w * i) + 2 ^ (w * i) * (k / 2 ^ (w * i) % 2 ^ w) := by
      rw [mul_add_one, pow_add, Nat.mod_mul]
    rw [Finset.sum_range_succ, ih, digitValue_booth, hsplit, mul_add_one, pow_add]
    push_cast
    ring

/-- No carry leaves a scalar that fits. -/
theorem boothCarry_eq_zero {k w n : Nat} (h : k < 2 ^ (w * n - 1)) : boothCarry k w n = 0 := by
  have hfit : 2 * k / 2 ^ (w * n) = 0 := by
    by_cases hn : w * n = 0
    · rw [hn] at h ⊢
      have hk : k = 0 := by simpa using h
      simp [hk]
    · refine Nat.div_eq_of_lt ?_
      have hpow : 2 * 2 ^ (w * n - 1) = 2 ^ (w * n) := mul_pow_sub_one hn 2
      omega
  rw [boothCarry, hfit]

/-- R111 (a): the digits sum to the scalar. -/
theorem sum_digitValue_booth_eq {k w n : Nat} (h : k < 2 ^ (w * n - 1)) :
    ∑ i ∈ Finset.range n, digitValue (booth k w i) * 2 ^ (w * i) = (k : Int) := by
  have hmod : k % 2 ^ (w * n) = k := Nat.mod_eq_of_lt (h.trans_le (Nat.pow_le_pow_right two_pos (Nat.sub_le _ 1)))
  rw [sum_digitValue_booth, boothCarry_eq_zero h, hmod]
  simp

/-- R111 (a) for a 256-bit scalar: the digits reach one bit beyond it. -/
theorem sum_booth_of_width {k : Nat} (hk : k < 2 ^ 256) (w n : Nat) (h : 257 ≤ w * n) :
    ∑ i ∈ Finset.range n, digitValue (booth k w i) * 2 ^ (w * i) = (k : Int) :=
  sum_digitValue_booth_eq (hk.trans_le (Nat.pow_le_pow_right two_pos (by omega)))

/-- A 256-bit scalar whose digits are all zero is 0. -/
theorem eq_zero_of_booth_mag_zero {k : Nat} (hk : k < 2 ^ 256) {w n : Nat} (h : 257 ≤ w * n)
    (hmag : ∀ i < n, (booth k w i).2 = 0) : k = 0 := by
  have hsum := sum_booth_of_width hk w n h
  have hzero : ∑ i ∈ Finset.range n, digitValue (booth k w i) * 2 ^ (w * i) = 0 :=
    Finset.sum_eq_zero fun i hi => by simp [digitValue, hmag i (Finset.mem_range.1 hi)]
  omega

/-- Above digit 0 the carry is the bit of the scalar below the digit's position. -/
theorem boothCarry_eq_ite {k w i : Nat} (h : 1 ≤ w * i) :
    boothCarry k w i = if k.testBit (w * i - 1) then 1 else 0 := by
  have hbit : k.testBit (w * i - 1) = decide (boothCarry k w i = 1) := by
    rw [boothCarry, ← Nat.testBit_eq_decide_div_mod_eq, testBit_two_mul_eq_ite, if_neg (by omega)]
  have hlt : boothCarry k w i < 2 := Nat.mod_lt _ two_pos
  by_cases hone : boothCarry k w i = 1
  · simp [hbit, hone]
  · simp [hbit, hone]
    omega

/-- R111 (b): the range of such a sum, the `n` low bits as a signed integer. -/
theorem signed_range {k n : Nat} (hn : 1 ≤ n) :
    -(2 ^ (n - 1) : Int) ≤ (k % 2 ^ n : Int) - (if k.testBit (n - 1) then 1 else 0) * 2 ^ n ∧
      (k % 2 ^ n : Int) - (if k.testBit (n - 1) then 1 else 0) * 2 ^ n < 2 ^ (n - 1) := by
  obtain ⟨n, rfl⟩ := Nat.exists_eq_add_of_le' hn
  have hsplit : k % 2 ^ (n + 1) = k % 2 ^ n + 2 ^ n * (k / 2 ^ n % 2) := by rw [pow_succ, Nat.mod_mul]
  have hlow : k % 2 ^ n < 2 ^ n := Nat.mod_lt _ (Nat.two_pow_pos n)
  have hbit : k.testBit n = decide (k / 2 ^ n % 2 = 1) := Nat.testBit_eq_decide_div_mod_eq
  have hcast : (k % 2 ^ (n + 1) : Int) = (k % 2 ^ n : ℕ) + 2 ^ n * (k / 2 ^ n % 2 : ℕ) := by
    exact_mod_cast hsplit
  have hlowInt : ((k % 2 ^ n : ℕ) : Int) < 2 ^ n := by exact_mod_cast hlow
  rw [Nat.add_sub_cancel, hcast, hbit, pow_succ]
  have hquot : k / 2 ^ n % 2 = 0 ∨ k / 2 ^ n % 2 = 1 := by omega
  rcases hquot with hclear | hset
  · simp [hclear]
    omega
  · simp [hset]
    omega

/-- R111 (c): the top digit of a 256-bit scalar, 7 bits wide. -/
theorem booth_top_fixed {k : Nat} (hk : k < 2 ^ 256) : (booth k 7 36).1 = false ∧ (booth k 7 36).2 ≤ 16 := by
  have hwin : boothWindow k 7 36 < 32 := by unfold boothWindow; omega
  have htop : boothWindow k 7 36 / 2 ^ 7 = 0 := by omega
  simp only [booth, htop]
  norm_num
  omega

/-- R111 (c): the top digit of a 256-bit scalar, 5 bits wide. -/
theorem booth_top_variable {k : Nat} (hk : k < 2 ^ 256) : (booth k 5 51).1 = false ∧ (booth k 5 51).2 ≤ 2 := by
  have hwin : boothWindow k 5 51 < 4 := by unfold boothWindow; omega
  have htop : boothWindow k 5 51 / 2 ^ 5 = 0 := by omega
  simp only [booth, htop]
  norm_num
  omega

/-- R111 (d): a zero scalar has zero digits. -/
theorem booth_zero (w i : Nat) : booth 0 w i = (false, 0) := by
  simp [booth, boothWindow]

/-- Settles O53: the carries telescope, and none leaves the top digit. -/
theorem boothDigitsSumToTheScalar : Obligations.BoothDigitsSumToTheScalar := by
  refine ⟨fun k w n _ h => sum_digitValue_booth_eq h, fun k w i hw hi => ?_, fun k hk => ?_, fun k w => ?_, booth_zero⟩
  · have hpos : 1 ≤ w * i := Nat.mul_pos hw hi
    have hsum : ∑ j ∈ Finset.range i, digitValue (booth k w j) * 2 ^ (w * j) =
        (k % 2 ^ (w * i) : Int) - (if k.testBit (w * i - 1) then 1 else 0) * 2 ^ (w * i) := by
      rw [sum_digitValue_booth, boothCarry_eq_ite hpos]
      push_cast
      rfl
    simp only [hsum]
    exact ⟨trivial, signed_range hpos⟩
  · obtain ⟨hsign7, hmag7⟩ := booth_top_fixed hk
    exact ⟨sum_booth_of_width hk 7 37 (by norm_num), sum_booth_of_width hk 5 52 (by norm_num), hsign7, hmag7,
      booth_top_variable hk⟩
  · rw [boothWindow, Nat.mod_mod_of_dvd _ (dvd_pow_self 2 (Nat.succ_ne_zero w)), mul_zero, pow_zero, Nat.div_one,
      Nat.mul_mod_right]

end Sys2Proof.Machine
end

section
/-! The loops of the scalar multipliers (R112, R115): the state after each step, and when anything is added. -/

namespace Sys2Proof.Machine

open Sys2Proof.Safety
open Sys2Proof.Config (Params)

/-! Combine and the per-call table. -/

/-- Settles O57: the definition of `Combine`, by its two flags. -/
theorem combineFoldsTheSpecialCases : Obligations.CombineFoldsTheSpecialCases := by
  intro e p q nz
  refine ⟨?_, ?_, ?_⟩ <;> simp [combine]

/-- The masked scan of the per-call table is a look-up (R115). -/
theorem varSelect_eq (vt : List Jac) (idx : Nat) :
    varSelect vt idx = if 1 ≤ idx then vt.getD (idx - 1) ⟨0, 0, 0⟩ else ⟨0, 0, 0⟩ := by
  unfold varSelect
  simp only [scan_eq]
  split
  · have hmap (f : Jac → Nat) (hf : f ⟨0, 0, 0⟩ = 0) : (vt.map f).getD (idx - 1) 0 = f (vt.getD (idx - 1) ⟨0, 0, 0⟩) := by
      rw [← List.getD_map (f := f), hf]
    rw [hmap Jac.x rfl, hmap Jac.y rfl, hmap Jac.z rfl]
  · rfl

theorem varSelect_zero (vt : List Jac) : varSelect vt 0 = ⟨0, 0, 0⟩ := by
  rw [varSelect_eq, if_neg (by decide)]

/-- Settles O59: the table is written out in R114's order, and the scan looks entries up in it. -/
theorem varTableFollowsItsOrder : Obligations.VarTableFollowsItsOrder := by
  intro c x y
  refine ⟨rfl, ?_, fun m hlo hhi => ?_, fun m hlo hhi => ?_, fun m hout => ?_⟩
  · rw [varSelect_eq]
    rfl
  · simp only [varSelect_eq]
    interval_cases m <;> rfl
  · simp only [varSelect_eq]
    interval_cases m <;> rfl
  · rw [varSelect_eq]
    split
    · exact List.getD_eq_default _ _ (show 16 ≤ m - 1 by omega)
    · rfl

/-! Steps in a given order. -/

/-- The state of a loop after its first `n` steps, step number `j` being for the digit `order j`. -/
def loopState (step : Jac × Bool → Nat → Jac × Bool) (order : Nat → Nat) (start : Jac × Bool) : Nat → Jac × Bool
  | 0 => start
  | n + 1 => step (loopState step order start n) (order n)

section
variable {step : Jac × Bool → Nat → Jac × Bool} {order : Nat → Nat} {start : Jac × Bool}

theorem foldl_map_range_eq_loopState (n : Nat) :
    ((List.range n).map order).foldl step start = loopState step order start n := by
  induction n with
  | zero => rfl
  | succ n ih =>
    rw [List.range_succ, List.map_append, List.foldl_append, ih]
    rfl

/-- The flag of a loop whose steps or the digit's magnitude into it stays 0 exactly while every magnitude is 0. -/
theorem loopState_flag_eq_false_iff {mag : Nat → Nat} (hstep : ∀ st i, (step st i).2 = (st.2 || mag i != 0)) (n : Nat) :
    (loopState step order start n).2 = false ↔ start.2 = false ∧ ∀ j < n, mag (order j) = 0 := by
  induction n with
  | zero => simp [loopState]
  | succ n ih =>
    rw [loopState, hstep, Bool.or_eq_false_iff, ih, Nat.forall_lt_succ_right]
    simp [and_assoc]

/-- A state that no step changes is the state of the loop throughout. -/
theorem loopState_of_fixed (hstep : ∀ i, step start i = start) (n : Nat) : loopState step order start n = start := by
  induction n with
  | zero => rfl
  | succ n ih => rw [loopState, ih, hstep]

end

/-! The fixed-base loop (R112). -/

section
variable (c : Params) (t : Table) (k' : Nat)

/-- The start of R112's loop: the entry of column 0 that digit 0 selects. -/
def baseStart : Jac × Bool :=
  (⟨(tableSelect t 0 (booth k' 7 0).2).x, condNeg c.field (booth k' 7 0).1 (tableSelect t 0 (booth k' 7 0).2).y, c.field.one⟩,
    (booth k' 7 0).2 != 0)

/-- The state of R112's loop after the steps for the digits 1 to `i`. -/
def baseLoop (i : Nat) : Jac × Bool :=
  loopState (baseMulStep c t k') (· + 1) (baseStart c t k') i

theorem baseMulJac_eq_baseLoop (k : Nat) : baseMulJac c t k = baseLoop c t (reduceScalar c k) 36 := by
  rw [baseLoop, ← foldl_map_range_eq_loopState]
  rfl

/-- The machine's loop is the recurrence of R112. -/
theorem fixedBaseLoop_baseLoop : FixedBaseLoop c t k' (baseLoop c t k' 36) := by
  refine ⟨fun i => (baseLoop c t k' i).1, fun i => (baseLoop c t k' i).2, ?_, rfl, fun i hlo hhi => ?_, rfl⟩
  · rw [← tableSelect_eq_entryOf t 0 _ (by decide)]
    rfl
  · obtain ⟨j, rfl⟩ := Nat.exists_eq_add_of_le' hlo
    rw [← tableSelect_eq_entryOf t (j + 1) _ (by omega)]
    exact ⟨rfl, rfl⟩

theorem baseLoop_flag_eq_false_iff (hk : k' < 2 ^ 256) : (baseLoop c t k' 36).2 = false ↔ k' = 0 := by
  rw [baseLoop, loopState_flag_eq_false_iff (mag := fun i => (booth k' 7 i).2) fun _ _ => rfl]
  constructor
  · rintro ⟨hstart, hsteps⟩
    refine eq_zero_of_booth_mag_zero hk (w := 7) (n := 37) (by norm_num) fun i hi => ?_
    cases i with
    | zero => simpa [baseStart] using hstart
    | succ j => exact hsteps j (by omega)
  · rintro rfl
    simp [baseStart, booth_zero]

theorem tableSelect_zero (t : Table) (j : Nat) : tableSelect t j 0 = ⟨0, 0⟩ := by
  simp [tableSelect, scan_eq]

/-- A zero scalar adds nothing: the loop keeps its start (0, 0, ONE_P). -/
theorem baseLoop_zero (n : Nat) : baseLoop c t 0 n = (⟨0, 0, c.field.one⟩, false) := by
  have hstart : baseStart c t 0 = (⟨0, 0, c.field.one⟩, false) := by
    simp [baseStart, booth_zero, tableSelect_zero, condNeg]
  have hfixed (i : Nat) : baseMulStep c t 0 (⟨0, 0, c.field.one⟩, false) i = (⟨0, 0, c.field.one⟩, false) := by
    simp [baseMulStep, booth_zero, tableSelect_zero, addMixed, condNeg]
  rw [baseLoop, hstart]
  exact loopState_of_fixed hfixed n

end

/-! The variable-base loop (R115). -/

section
variable (c : Params) (k' x y : Nat)

/-- The state of R115's loop after the steps for the digits 50 down to `i`, at 51 its start. -/
def varLoop (i : Nat) : Jac × Bool :=
  loopState (varMulStep c.field (varTable c x y) k') (50 - ·)
    (varSelect (varTable c x y) (booth k' 5 51).2, (booth k' 5 51).2 != 0) (51 - i)

theorem varMulJac_eq_varLoop (k : Nat) : varMulJac c k x y = varLoop c (reduceScalar c k) x y 0 := by
  have horder : (List.range (Config.varDigits - 1)).reverse = (List.range 51).map (50 - ·) := by decide
  unfold varMulJac
  rw [horder]
  exact foldl_map_range_eq_loopState 51

/-- One step of the loop, for the digit `i`. -/
theorem varLoop_step {i : Nat} (hi : i ≤ 50) :
    varLoop c k' x y i = varMulStep c.field (varTable c x y) k' (varLoop c k' x y (i + 1)) i := by
  have hcount : 51 - i = 50 - i + 1 := by omega
  have hnext : 51 - (i + 1) = 50 - i := by omega
  have hdigit : 50 - (50 - i) = i := by omega
  rw [varLoop, varLoop, hcount, hnext, loopState, hdigit]

/-- The machine's loop is the recurrence of R115. -/
theorem variableBaseLoop_varLoop : VariableBaseLoop c k' x y (varLoop c k' x y 0) := by
  refine ⟨fun i => (varLoop c k' x y i).1, fun i => (varLoop c k' x y i).2, rfl, rfl, fun i hi => ?_, rfl⟩
  simp only [varLoop_step c k' x y hi, ne_eq, ite_not]
  exact ⟨rfl, rfl⟩

theorem varLoop_flag_eq_false_iff (hk : k' < 2 ^ 256) : (varLoop c k' x y 0).2 = false ↔ k' = 0 := by
  rw [varLoop, loopState_flag_eq_false_iff (mag := fun i => (booth k' 5 i).2) fun _ _ => rfl]
  constructor
  · rintro ⟨hstart, hsteps⟩
    refine eq_zero_of_booth_mag_zero hk (w := 5) (n := 52) (by norm_num) fun i hi => ?_
    by_cases htop : i = 51
    · subst htop
      simpa using hstart
    · have hmag := hsteps (50 - i) (by omega)
      rwa [show 50 - (50 - i) = i by omega] at hmag
  · rintro rfl
    simp [booth_zero]

/-- A zero scalar adds nothing: the loop keeps its start (0, 0, 0). -/
theorem varLoop_zero (i : Nat) : varLoop c 0 x y i = (⟨0, 0, 0⟩, false) := by
  have hfixed (j : Nat) : varMulStep c.field (varTable c x y) 0 (⟨0, 0, 0⟩, false) j = (⟨0, 0, 0⟩, false) := by
    simp [varMulStep, booth_zero, varSelect_zero, condNeg]
  simp only [varLoop, booth_zero, varSelect_zero]
  exact loopState_of_fixed hfixed _

end

end Sys2Proof.Machine
end

section
/-! BMUL, SMUL, CMUL and TINIT: each rule over any consistent record, and the machine's own. -/

namespace Sys2Proof.Machine

open Sys2Proof.Safety

section
variable {c : Config.Params} (hc : c.Consistent) {rd : Reg} (s : State)
include hc

theorem reduceScalar_lt (k : Nat) : reduceScalar c k < 2 ^ 256 := by
  have h : c.order.Derived := engineOf_derived hc .n
  exact (Nat.mod_lt _ h.m_pos).trans h.montgomery.m_lt

theorem ruleBmul_leaves (ra : Reg) (hrd : rd.val ≤ 14) :
    let p := baseMulJac c s.tab (s.val ra)
    let t := ruleBmul c rd ra s
    FixedBaseLoop c s.tab (s.val ra % c.order.m) p ∧ (p.2 = false ↔ s.val ra % c.order.m = 0) ∧
      t.pair rd = (toAffine c.field p.1).1 ∧ t.inf = ((toAffine c.field p.1).2 || !p.2) ∧
      (s.val ra % c.order.m = 0 → t.pair rd = ⟨0, 0⟩ ∧ t.inf = true) ∧
      t.eq = s.eq ∧ t.zr = s.zr ∧ FrameButFlags rd 2 s t := by
  have hp := baseMulJac_eq_baseLoop c s.tab (s.val ra)
  have hpair : (ruleBmul c rd ra s).pair rd = (toAffine c.field (baseMulJac c s.tab (s.val ra)).1).1 :=
    pair_putAffine hc s _ _ hrd
  have hinf : (ruleBmul c rd ra s).inf =
      ((toAffine c.field (baseMulJac c s.tab (s.val ra)).1).2 || !(baseMulJac c s.tab (s.val ra)).2) := State.putAffine_inf ..
  refine ⟨?_, ?_, hpair, hinf, fun hzero => ?_, State.putAffine_eq .., State.putAffine_zr .., frameButFlags_putAffine _ _ _⟩
  · rw [hp]
    exact fixedBaseLoop_baseLoop c s.tab _
  · rw [hp]
    exact baseLoop_flag_eq_false_iff c s.tab _ (reduceScalar_lt hc _)
  · rw [hpair, hinf, hp, reduceScalar, hzero, baseLoop_zero]
    simp [toAffine_of_xy_zero]

theorem ruleSmul_leaves (ra rb : Reg) (hrd : rd.val ≤ 14) :
    let p := varMulJac c (s.val ra) (s.val rb) (s.val (rb.val + 1))
    let t := ruleSmul c rd ra rb s
    VariableBaseLoop c (s.val ra % c.order.m) (s.val rb) (s.val (rb.val + 1)) p ∧
      (p.2 = false ↔ s.val ra % c.order.m = 0) ∧
      t.pair rd = (toAffine c.field p.1).1 ∧ t.inf = ((toAffine c.field p.1).2 || !p.2) ∧
      (s.val ra % c.order.m = 0 → t.pair rd = ⟨0, 0⟩ ∧ t.inf = true) ∧
      t.eq = s.eq ∧ t.zr = s.zr ∧ FrameButFlags rd 2 s t := by
  intro p t
  have hp : p = varLoop c (reduceScalar c (s.val ra)) (s.val rb) (s.val (rb.val + 1)) 0 := varMulJac_eq_varLoop c _ _ _
  have hpair : t.pair rd = (toAffine c.field p.1).1 := pair_putAffine hc s _ _ hrd
  have hinf : t.inf = ((toAffine c.field p.1).2 || !p.2) := State.putAffine_inf ..
  refine ⟨?_, ?_, hpair, hinf, fun hzero => ?_, State.putAffine_eq .., State.putAffine_zr .., frameButFlags_putAffine _ _ _⟩
  · rw [hp]
    exact variableBaseLoop_varLoop c _ _ _
  · rw [hp]
    exact varLoop_flag_eq_false_iff c _ _ _ (reduceScalar_lt hc _)
  · rw [hpair, hinf, hp, reduceScalar, hzero, varLoop_zero]
    simp [toAffine_of_xy_zero]

theorem ruleCmul_leaves (ra rb rc : Reg) (hrd : rd.val ≤ 14) :
    let p1 := baseMulJac c s.tab (s.val ra)
    let p2 := varMulJac c (s.val rb) (s.val rc) (s.val (rc.val + 1))
    let t := ruleCmul c rd ra rb rc s
    (t.pair rd, t.inf) = toAffine c.field (combine c.field p1 p2) ∧
      (s.val ra % c.order.m = 0 → s.val rb % c.order.m = 0 → t.pair rd = ⟨0, 0⟩ ∧ t.inf = true) ∧
      t.eq = s.eq ∧ t.zr = s.zr ∧ FrameButFlags rd 2 s t := by
  intro p1 p2 t
  have hpair : t.pair rd = (toAffine c.field (combine c.field p1 p2)).1 := pair_putAffine hc s _ _ hrd
  have hinf : t.inf = (toAffine c.field (combine c.field p1 p2)).2 := State.putAffine_inf ..
  refine ⟨Prod.ext hpair hinf, fun hzero1 hzero2 => ?_, State.putAffine_eq .., State.putAffine_zr ..,
    frameButFlags_putAffine _ _ _⟩
  have hp1 : p1 = (⟨0, 0, c.field.one⟩, false) := by
    rw [show p1 = _ from baseMulJac_eq_baseLoop c _ _, reduceScalar, hzero1, baseLoop_zero]
  have hp2 : p2 = (⟨0, 0, 0⟩, false) := by
    rw [show p2 = _ from varMulJac_eq_varLoop c _ _ _, reduceScalar, hzero2, varLoop_zero]
  obtain ⟨habsent, -⟩ := combineFoldsTheSpecialCases c.field ⟨0, 0, c.field.one⟩ ⟨0, 0, 0⟩ false
  rw [hpair, hinf, hp1, hp2, habsent, toAffine_inf_iff]
  exact ⟨toAffine_of_xy_zero _ _, Nat.zero_mod _⟩

/-- The machine's table is R136's. -/
theorem builtFromRows_baseTable : BuiltFromRows c (baseTable c) := by
  have h : c.field.Derived := engineOf_derived hc .p
  have hword (a b : Nat) : (BitVec.ofNat 256 (montMul c.field a b)).toNat = montMul c.field a b :=
    toNat_ofNat_word ((montMul_lt _ _ _ h.m_pos).trans h.montgomery.m_lt)
  refine ⟨rowPoint c, rowPoint_one c, fun v hv => ⟨rowPoint_even c v hv, rowPoint_odd c v hv⟩, fun j v hj hv => ?_⟩
  rw [baseTable_entry c j v hj hv]
  exact ⟨hword _ _, hword _ _⟩

theorem ruleTinit_leaves :
    let t := ruleTinit c s
    BuiltFromRows c t.tab ∧ t.trdy = true ∧ t.regs = s.regs ∧ FlagsSame s t ∧ t.err = s.err ∧ t.ecmd = s.ecmd ∧
      t.host = s.host ∧ t.replies = s.replies ∧ t.resets = s.resets ∧ BytesExceptStatus 0 0 s t :=
  ⟨builtFromRows_baseTable hc, rfl, rfl, ⟨rfl, rfl, rfl⟩, rfl, rfl, rfl, rfl, rfl,
    fun _ ha hout => byteAt_of_regsExcept (s := s) (t := ruleTinit c s) (fun _ _ _ => rfl) rfl ha (.inl hout)⟩

end

/-! The machine's own. -/

theorem wf_bmul {rd : Reg} (ra : Reg) (hrd : rd.val ≤ 14) : (Instr.bmul rd ra).wf = true := by
  simp [Instr.wf, Instr.groupsOk, Instr.columnOk, groupOk]
  omega

theorem wf_smul {rd : Reg} (ra : Reg) {rb : Reg} (hrd : rd.val ≤ 14) (hrb : rb.val ≤ 14) :
    (Instr.smul rd ra rb).wf = true := by
  simp [Instr.wf, Instr.groupsOk, Instr.columnOk, groupOk]
  omega

theorem wf_cmul {rd : Reg} (ra rb : Reg) {rc : Reg} (hrd : rd.val ≤ 14) (hrc : rc.val ≤ 14) :
    (Instr.cmul rd ra rb rc).wf = true := by
  simp [Instr.wf, Instr.groupsOk, Instr.columnOk, groupOk]
  omega

/-- Settles O54: the rule on the hardware's record. -/
theorem bmulRunsTheFixedBaseLoop : Obligations.BmulRunsTheFixedBaseLoop := by
  intro rd ra s hrd htrdy
  obtain ⟨hloop, hflag, hpair, hinf, hzero, hrest⟩ := ruleBmul_leaves curveConstantsAreConsistent s ra hrd
  refine ⟨hloop, hflag, fun hk => ?_, _, exec_of_none (faultOf_eq_none_of_built (wf_bmul ra hrd) htrdy rfl), hpair, hinf,
    fun hk => ?_, hrest⟩
  · rw [baseMulJac_eq_baseLoop, reduceScalar, hk, baseLoop_zero]
  · obtain ⟨hpair0, hinf1⟩ := hzero hk
    obtain ⟨hx, hy⟩ := State.regs_eq_zero_of_pair hpair0
    exact ⟨hx, hy, hinf1⟩

/-- Settles O55: the rule on the hardware's record; SMUL does not ask for the table. -/
theorem smulRunsTheVariableBaseLoop : Obligations.SmulRunsTheVariableBaseLoop := by
  intro rd ra rb s hrd hrb
  obtain ⟨hloop, hflag, hpair, hinf, hzero, hrest⟩ := ruleSmul_leaves curveConstantsAreConsistent s ra rb hrd
  refine ⟨hloop, hflag, fun hk => ?_, _, exec_of_none (faultOf_eq_none_of_wf (wf_smul ra hrd hrb) rfl rfl), hpair, hinf,
    fun hk => ?_, hrest⟩
  · rw [varMulJac_eq_varLoop, reduceScalar, hk, varLoop_zero]
  · obtain ⟨hpair0, hinf1⟩ := hzero hk
    obtain ⟨hx, hy⟩ := State.regs_eq_zero_of_pair hpair0
    exact ⟨hx, hy, hinf1⟩

/-- Settles O56: the rule on the hardware's record. -/
theorem cmulLeavesTheCombination : Obligations.CmulLeavesTheCombination := by
  intro rd ra rb rc s hrd hrc htrdy
  obtain ⟨haffine, hzero, hrest⟩ := ruleCmul_leaves curveConstantsAreConsistent s ra rb rc hrd
  obtain ⟨hpair, hinf⟩ := Prod.ext_iff.1 haffine
  refine ⟨_, exec_of_none (faultOf_eq_none_of_built (wf_cmul ra rb hrd hrc) htrdy rfl), hpair, hinf, fun hk1 hk2 => ?_, hrest⟩
  obtain ⟨hpair0, hinf1⟩ := hzero hk1 hk2
  obtain ⟨hx, hy⟩ := State.regs_eq_zero_of_pair hpair0
  exact ⟨hx, hy, hinf1⟩

/-- Settles O58: the rule on the hardware's record. -/
theorem tinitBuildsTheTable : Obligations.TinitBuildsTheTable := by
  intro s htrdy
  obtain ⟨hbuilt, hset, hrest⟩ := ruleTinit_leaves curveConstantsAreConsistent s
  exact ⟨_, exec_of_none ((faultOf_eq_none_iff _ _).2 ⟨rfl, nofun, fun _ => htrdy⟩), hset, hbuilt, hrest⟩

end Sys2Proof.Machine
end

section
/-! The rules over an arbitrary record (R1). -/

namespace Sys2Proof.Machine

open Sys2Proof.Safety

/-- Settles O60: the machine executes the rules on its own record, and each rule leaves its result over any consistent one;
the rules of CMOV and TSEL do not take the record. -/
theorem rulesHoldForEveryCurve : Obligations.RulesHoldForEveryCurve := by
  refine ⟨fun i s hf => exec_of_none hf, fun c s hc => ?_⟩
  exact ⟨fun _ _ _ _ => rfl, fun _ _ _ => rfl,
    fun m rd ra rb => ruleMmul_leaves hc m rd ra rb s,
    fun m rd ra => ruleMsqr_leaves hc m rd ra s,
    fun m rd ra => ruleMred_leaves hc m rd ra s,
    fun m rd ra => ruleMenc_leaves hc m rd ra s,
    fun m rd ra => ruleMinv_leaves hc m rd ra s,
    fun rd ra => ruleKinv_leaves hc rd ra s,
    fun cs m rd ra => ruleCneg_leaves hc cs m rd ra s,
    fun _ ra hrd => rulePdbl_leaves hc s ra hrd,
    fun _ ra rb hrd => rulePadd_leaves hc s ra rb hrd,
    fun pnz qnz sg _ ra rb hrd => rulePaddm_leaves hc s pnz qnz sg ra rb hrd,
    fun _ ra hrd => rulePaff_leaves hc s ra hrd,
    fun _ ra hrd => ruleBmul_leaves hc s ra hrd,
    fun _ ra rb hrd => ruleSmul_leaves hc s ra rb hrd,
    fun _ ra rb rc hrd => ruleCmul_leaves hc s ra rb rc hrd,
    ruleTinit_leaves hc s⟩

end Sys2Proof.Machine
end
